-- ==== Sys2Proof/Word.lean ====
section
/-! DEFINITION. The two bit-vector widths of the block (00_scope.md R7, R8). -/

namespace Sys2Proof

/-- A 16-bit value: a control word, a payload or a mirror (R7, R8). Bit 0 is the least significant. -/
abbrev Word := BitVec 16

/-- An 8-bit value: one frame on the wire (R7, R8). -/
abbrev Byte := BitVec 8

end Sys2Proof
end

