-- ==== Sys2Proof/Config.lean ====
section
/-! DEFINITION. What one handle fixes at construction (00_scope.md R6, 10_state.md R31), and the free values the
spec leaves to the environment. -/

namespace Sys2Proof

/-- The two transport strategies (R6, R7). -/
inductive TransportMode
  | hw   -- byte transfer by a managed serial peripheral
  | sw   -- pins toggled by the block itself
deriving DecidableEq, Repr

/-- Bit order of the serial peripheral; the spec fixes the one value (R6 `SPI_MODE`). -/
inductive BitOrder
  | msbFirst
deriving DecidableEq, Repr

/-- Clock mode of the serial peripheral: clock idle low, data sampled on the rising edge (R6 `SPI_MODE`). -/
inductive ClockMode
  | mode0
deriving DecidableEq, Repr

/-- `SPI_MODE` (R6). Each part has the one value the spec fixes. -/
structure SpiMode where
  order : BitOrder
  clock : ClockMode
deriving DecidableEq, Repr

/-- The constant triple that `SpiBeginTransaction` takes (41_transport.md R133). -/
structure SpiSettings where
  mode    : SpiMode
  clockHz : Nat
deriving DecidableEq, Repr

/-- The configuration of one handle (R6, R31, 60_exceptions.md R200). Every field is written at construction and never
after. A pin name and a peripheral reference are opaque in the spec; the model numbers them. Which values are legal is
`Config.wf` in WellFormed.lean. -/
structure Config where
  chipAddr           : Nat           -- CHIP_ADDR, legal 0 .. 3
  mode               : TransportMode -- TRANSPORT_MODE
  hasMiso            : Bool          -- HAS_MISO
  pinClk             : Nat           -- PIN_CLK
  pinDout            : Nat           -- PIN_DOUT
  pinDin             : Option Nat    -- PIN_DIN, absent when HAS_MISO is false
  pinCs              : Nat           -- PIN_CS
  selAttL            : Word          -- SEL_ATT_L
  selAttR            : Word          -- SEL_ATT_R
  selGain            : Word          -- SEL_GAIN
  selStates          : Word          -- SEL_STATES
  volMin             : Int           -- VOL_MIN, fixed
  volMax             : Int           -- VOL_MAX, fixed
  gainRejectPositive : Bool          -- GAIN_REJECT_POSITIVE
  wVal               : Nat           -- W_VAL
  mirrorResetGain    : Word          -- MIRROR_RESET_GAIN
  mirrorResetStates  : Word          -- MIRROR_RESET_STATES
  spiClockMaxHz      : Nat           -- SPI_CLOCK_MAX_HZ
  spiClockDefaultHz  : Nat           -- SPI_CLOCK_DEFAULT_HZ
  spiMode            : SpiMode       -- SPI_MODE, fixed
  spiPeripheral      : Option Nat    -- the serial-peripheral reference, held in HW mode (R200)
deriving DecidableEq, Repr

/-- The reference configuration: R6's reference values and R83's `REF`. DESIGN CHOICE (log entries 6 and 7): R6 gives no
reference strategy, pin names or clock numbers. -/
def Config.ref : Config where
  chipAddr := 0
  mode := .sw
  hasMiso := true
  pinClk := 0
  pinDout := 1
  pinDin := some 2
  pinCs := 3
  selAttL := 0x0000#16
  selAttR := 0x0004#16
  selGain := 0x0008#16
  selStates := 0x000C#16
  volMin := -447
  volMax := 0
  gainRejectPositive := false
  wVal := 16
  mirrorResetGain := 0x0000#16
  mirrorResetStates := 0x0000#16
  spiClockMaxHz := 2
  spiClockDefaultHz := 1
  spiMode := { order := .msbFirst, clock := .mode0 }
  spiPeripheral := none

/-- The constant triple of R133. -/
def Config.spiSettings (cfg : Config) : SpiSettings :=
  { mode := cfg.spiMode, clockHz := cfg.spiClockDefaultHz }

/-- FREE VALUE (log entry 1): the level of the data-in line at the n-th draw, under no law (R8 `draw()`, 41_transport.md
R132, R143). -/
opaque Config.dataIn : Nat → Bool

/-- FREE VALUE (log entry 1): the byte `SpiTransfer` returns when no data-in line is wired (41_transport.md R137). -/
opaque Config.floatingByte : Nat → Byte

/-- FREE VALUE (log entry 3): the content at power-on of the device register with the address `k` = select constant or
chip address, 0 .. 15 (10_state.md R37, 70_reset_and_hazards.md R221, 93_implementation_defined.md U11). -/
opaque Config.powerOnContent : Nat → Word

/-- FREE VALUE (log entry 2): the content a register of the chip, by its index 0 .. 3, is left with after the n-th event
whose reception nothing is known of (70_reset_and_hazards.md R225, 93_implementation_defined.md U8, U13) or after the
chip's own power loss (U11). -/
opaque Config.upsetContent : Nat → Nat → Word

end Sys2Proof
end

