-- ==== Sys2Proof/Syntax.lean ====
section
/-! DEFINITION. The instructions: one constructor per row of spec/opcode_table.json, and what carries an encoded one. -/

namespace Sys2Proof

/-- The four registers of the target chip, each named by its register-select constant (20_memory.md R50, R58). -/
inductive Reg
  | attL
  | attR
  | gain
  | states
deriving DecidableEq, Repr

/-- The three single-bit features (30_encoding.md R92). -/
inductive Feature
  | zeroCrossing
  | externalClock
  | link
deriving DecidableEq, Repr

/-- One constructor per row of spec/opcode_table.json. An integer operand is a member of `Z` (R8); the command port
carries it in `W_VAL` bits. -/
inductive Instr
  -- control words, format CW (R81, R84 to R87): the payload bits [15:4] and the chip bits [1:0]
  | attL (payload : BitVec 12) (chip : BitVec 2)
  | attR (payload : BitVec 12) (chip : BitVec 2)
  | gain (payload : BitVec 12) (chip : BitVec 2)
  | states (payload : BitVec 12) (chip : BitVec 2)
  -- host operations, format CMD (R98)
  | beginOp
  | setVolume (left right : Int)
  | setGain (value : Int)
  | mute
  | setZeroCrossing (enabled : Bool)
  | setExternalClock (enabled : Bool)
  | setLinkChannels (enabled : Bool)
  | getStatus
  -- primitives of the Encoder, format PRIM (R110 to R115)
  | volumeValid (v : Int)
  | atten (v : Int)
  | gainCode (g : Int)
  | gainValid (g : Int)
  | assemble (sel : Reg) (payload : Word)
  | flagBit (feature : Feature) (enabled : Bool)
  -- primitives of the Transport, format PRIM (R136 to R140)
  | shiftByteSw (b : Byte)
  | shiftByteHw (b : Byte)
  | sendWordSw (w : Word)
  | sendWordHw (w : Word)
  | sendWord (w : Word)
deriving DecidableEq, Repr

/-- The host's command port (R98, D1): the 3-bit command code and the argument ports. A signed port carries a pattern
of `W_VAL` bits (R6, R8), here the number the pattern is read as without sign. An operation reads only its own ports. -/
structure CommandPort where
  code    : BitVec 3
  left    : Nat
  right   : Nat
  value   : Nat
  enabled : Bool
deriving DecidableEq, Repr

/-- An encoded instruction: a command on the host's port, or the frames of one chip-select bracket as the receiver
gets them, the first frame first (R53, R88). -/
inductive Issue
  | command (p : CommandPort)
  | frames (fs : List Byte)
deriving DecidableEq, Repr

end Sys2Proof
end

