-- ==== Sys2Proof/Machine/Operands.lean ====
section
/-! DEFINITION. Bits, byte order and sign extension (00_scope.md R8), the quantizer (40_encoder.md R110 to R113) and
the assembly and disassembly of a control word (R114, 30_encoding.md R80, R81, R100). -/

namespace Sys2Proof.Machine

/-- `trunc16(z)`: the 16-bit value congruent to `z` modulo 65536 (R8). -/
def trunc16 (z : Int) : Word := BitVec.ofInt 16 z

/-- `hi8(w) = w[15:8]` (R8). -/
def hi8 (w : Word) : Byte := w.extractLsb' 8 8

/-- `lo8(w) = w[7:0]` (R8). -/
def lo8 (w : Word) : Byte := w.extractLsb' 0 8

/-- The word of two frames, the first one the high byte (20_memory.md R53). -/
def joinFrames (f1 f2 : Byte) : Word := f1 ++ f2

/-- `set_bit(w, i, b) = (w & ~(1 << i)) | (b << i)` (R8). -/
def setBit (w : Word) (i : Nat) (b : Bool) : Word :=
  (w &&& ~~~(1#16 <<< i)) ||| ((if b then 1#16 else 0#16) <<< i)

/-- `sext_N(v)`: the integer a port pattern of `n` bits stands for (R8). -/
def sext (n v : Nat) : Int := if v < 2 ^ (n - 1) then (v : Int) else (v : Int) - 2 ^ n

/-- The `n`-bit two's-complement pattern of `z`, as the number it is without sign; undoes `sext`. -/
def portPattern (n : Nat) (z : Int) : Nat := (z % 2 ^ n).toNat

/-- The bits of a value, most significant first: the order on the wire (20_memory.md R54). -/
def msbBits {n : Nat} (b : BitVec n) : List Bool := (List.range n).map b.getMsbD

/-- `word(sr)`: bits read most significant first (41_transport.md R141). -/
def wordOfBits (bs : List Bool) : Word :=
  bs.foldl (fun acc b => (acc <<< 1) ||| (if b then 1#16 else 0#16)) 0#16

/-- The byte of eight bits read most significant first (41_transport.md R134). -/
def byteOfBits (bs : List Bool) : Byte :=
  bs.foldl (fun acc b => (acc <<< 1) ||| (if b then 1#8 else 0#8)) 0#8

/-- `VOLUME_VALID(v)` (R110). -/
def volumeValid (cfg : Config) (v : Int) : Bool := decide (cfg.volMin ≤ v) && decide (v ≤ cfg.volMax)

/-- `ATTEN(v) = trunc16(4096 + (-v * 128))` (R111). -/
def atten (v : Int) : Word := trunc16 (4096 + (-v * 128))

/-- `GAINCODE(g) = set_bit(trunc16((g << 12) | (g << 9)), 8, 0)` (R112). The shifts are taken in `Z`; the or is taken
after the truncation, by R8's law `trunc16(a | b) = trunc16(a) | trunc16(b)`. -/
def gainCode (g : Int) : Word := setBit (trunc16 (g * 2 ^ 12) ||| trunc16 (g * 2 ^ 9)) 8 false

/-- `GAIN_VALID(g)` (R113). -/
def gainValid (cfg : Config) (g : Int) : Bool := !cfg.gainRejectPositive || decide (g ≤ 0)

/-- The register-select constant of a register (20_memory.md R58). -/
def selConst (cfg : Config) : Reg → Word
  | .attL => cfg.selAttL
  | .attR => cfg.selAttR
  | .gain => cfg.selGain
  | .states => cfg.selStates

/-- `chip_field = CHIP_ADDR`, in bits [1:0] (30_encoding.md R91). -/
def chipField (cfg : Config) : Word := BitVec.ofNat 16 cfg.chipAddr

/-- `ASSEMBLE(sel, payload) = sel | chip_field | payload` (R114). -/
def assemble (cfg : Config) (sel : Reg) (payload : Word) : Word :=
  selConst cfg sel ||| chipField cfg ||| payload

/-- The control word of a kind with the given `PAYLOAD` and `CHIP` fields (30_encoding.md R80, R81). -/
def controlWord (cfg : Config) (sel : Reg) (payload : BitVec 12) (chip : BitVec 2) : Word :=
  selConst cfg sel ||| chip.setWidth 16 ||| (payload.setWidth 16 <<< 4)

/-- The `PAYLOAD` field, bits [15:4] (R81). -/
def payloadField (w : Word) : BitVec 12 := w.extractLsb' 4 12

/-- The `CHIP` field, bits [1:0] (R81). -/
def chipBits (w : Word) : BitVec 2 := w.extractLsb' 0 2

/-- The register whose select constant equals `w & 0x000C` (30_encoding.md R100). -/
def selectedReg (cfg : Config) (w : Word) : Option Reg :=
  if w &&& 0x000C#16 = cfg.selAttL then some .attL
  else if w &&& 0x000C#16 = cfg.selAttR then some .attR
  else if w &&& 0x000C#16 = cfg.selGain then some .gain
  else if w &&& 0x000C#16 = cfg.selStates then some .states
  else none

end Sys2Proof.Machine
end

