-- ==== Sys2Proof/Machine/Flags.lean ====
section
/-! DEFINITION. The feature flags (40_encoder.md R115, 30_encoding.md R92) and the named fields of the control words
and mirrors (10_state.md R24, R25, 30_encoding.md R84 to R87). -/

namespace Sys2Proof.Machine

/-- `FLAG_BIT(feature, enabled)`: the bit's index and its value (R115). -/
def flagBit : Feature → Bool → Nat × Bool
  | .zeroCrossing, e => (8, !e)
  | .externalClock, e => (9, !e)
  | .link, e => (15, e)

/-- The mirror with the feature's bit set to the encoding of `enabled` (42_device_operations.md section 3). -/
def setFeature (f : Feature) (enabled : Bool) (mirror : Word) : Word :=
  setBit mirror (flagBit f enabled).1 (flagBit f enabled).2

/-- `ATT`, bits [15:7] of an attenuation word (R84). -/
def attField (w : Word) : BitVec 9 := w.extractLsb' 7 9

/-- `LINK`, bit 15 of the gain register (R24). -/
def linkField (w : Word) : Bool := w.getLsbD 15

/-- `GAIN_A`, bits [15:12] of the gain register (R24). -/
def gainAField (w : Word) : BitVec 4 := w.extractLsb' 12 4

/-- `GC` of R86 and `GAIN_B` of R24: bits [15:9] of the gain register. -/
def gainCodeField (w : Word) : BitVec 7 := w.extractLsb' 9 7

/-- `ZC_N`, bit 8 of the gain register (R24). -/
def zcNField (w : Word) : Bool := w.getLsbD 8

/-- `CLK_INT`, bit 9 of the states register (R25). -/
def clkIntField (w : Word) : Bool := w.getLsbD 9

end Sys2Proof.Machine
end

