-- ==== Sys2Proof/WellFormed.lean ====
section
/-! DEFINITION. Which configurations a handle may be constructed with, and which instructions the command port can
carry. -/

namespace Sys2Proof

/-- `CHIP_ADDR` is in 0 .. 3 (30_encoding.md R96). -/
def Config.chipAddrOk (cfg : Config) : Bool := decide (cfg.chipAddr ≤ 3)

/-- R82 (a): no select constant has a bit of the chip-address field. -/
def Config.selAvoidsChip (cfg : Config) : Bool :=
  [cfg.selAttL, cfg.selAttR, cfg.selGain, cfg.selStates].all fun c => decide (c &&& 0x0003#16 = 0#16)

/-- R82 (b): the four select constants are pairwise different. -/
def Config.selDistinct (cfg : Config) : Bool :=
  decide (cfg.selAttL ≠ cfg.selAttR ∧ cfg.selAttL ≠ cfg.selGain ∧ cfg.selAttL ≠ cfg.selStates ∧
    cfg.selAttR ≠ cfg.selGain ∧ cfg.selAttR ≠ cfg.selStates ∧ cfg.selGain ≠ cfg.selStates)

/-- R82 (c): no select constant has a payload bit. -/
def Config.selAvoidsPayload (cfg : Config) : Bool :=
  [cfg.selAttL, cfg.selAttR, cfg.selGain, cfg.selStates].all fun c => decide (c &&& 0xFFF0#16 = 0#16)

/-- R37: the low four bits of both mirror reset parameters are clear. -/
def Config.mirrorsOk (cfg : Config) : Bool :=
  decide (cfg.mirrorResetGain &&& 0x000F#16 = 0#16) && decide (cfg.mirrorResetStates &&& 0x000F#16 = 0#16)

/-- R6: the pin names are distinct, and there is a data-in name exactly when `HAS_MISO`. -/
def Config.pinsOk (cfg : Config) : Bool :=
  decide (cfg.pinClk ≠ cfg.pinDout ∧ cfg.pinClk ≠ cfg.pinCs ∧ cfg.pinDout ≠ cfg.pinCs) &&
  match cfg.pinDin with
  | none => !cfg.hasMiso
  | some d => cfg.hasMiso && decide (d ≠ cfg.pinClk ∧ d ≠ cfg.pinDout ∧ d ≠ cfg.pinCs)

/-- R6: `W_VAL` is 10 or more. -/
def Config.wValOk (cfg : Config) : Bool := decide (10 ≤ cfg.wVal)

/-- R6: the clock numbers are positive and the default is strictly below the maximum. -/
def Config.clockOk (cfg : Config) : Bool :=
  decide (0 < cfg.spiClockDefaultHz ∧ cfg.spiClockDefaultHz < cfg.spiClockMaxHz)

/-- R6: `VOL_MIN` and `VOL_MAX` are fixed. -/
def Config.volumeOk (cfg : Config) : Bool := decide (cfg.volMin = -447 ∧ cfg.volMax = 0)

/-- 60_exceptions.md R200: a serial-peripheral reference is held exactly in `HW` mode. -/
def Config.peripheralOk (cfg : Config) : Bool :=
  match cfg.mode with
  | .hw => cfg.spiPeripheral.isSome
  | .sw => cfg.spiPeripheral.isNone

/-- A configuration a handle may be constructed with (R6, R37, R82, R96, R200, R220). That the checks R220 does not name
refuse too is the model's choice (log entry 16). -/
def Config.wf (cfg : Config) : Bool :=
  cfg.chipAddrOk && cfg.selAvoidsChip && cfg.selDistinct && cfg.selAvoidsPayload && cfg.mirrorsOk &&
    cfg.pinsOk && cfg.wValOk && cfg.clockOk && cfg.volumeOk && cfg.peripheralOk

/-- The integer `z` is one an argument port of `n` bits can carry (R6, R8 `sext_N`). -/
def fitsPort (n : Nat) (z : Int) : Bool := decide (-(2 ^ (n - 1) : Int) ≤ z ∧ z < 2 ^ (n - 1))

/-- The instructions whose operands the command port can carry. Every other operand is legal by its type: an
out-of-range volume is no ill-formed instruction, it raises ValueError (R162). -/
def Instr.wf (cfg : Config) : Instr → Bool
  | .setVolume left right => fitsPort cfg.wVal left && fitsPort cfg.wVal right
  | .setGain value => fitsPort cfg.wVal value
  | .attL _ _ | .attR _ _ | .gain _ _ | .states _ _ => true
  | .beginOp | .mute | .getStatus => true
  | .setZeroCrossing _ | .setExternalClock _ | .setLinkChannels _ => true
  | .volumeValid _ | .atten _ | .gainCode _ | .gainValid _ => true
  | .assemble _ _ | .flagBit _ _ => true
  | .shiftByteSw _ | .shiftByteHw _ | .sendWordSw _ | .sendWordHw _ | .sendWord _ => true

end Sys2Proof
end

