-- ==== Sys2Proof/Decode.lean ====
section
/-! DEFINITION. The decoder of both encoded formats, CMD (30_encoding.md R98, D1) and CW (R81, R100), and the encoder
after it. A primitive has no binary encoding (R98): nothing decodes to one. -/

namespace Sys2Proof

open Sys2Proof.Machine

/-- Why the decoder refuses. -/
inductive DecodeError
  | portTooWide      -- an argument port pattern has more than W_VAL bits (R6)
  | malformedBracket -- a chip-select bracket without exactly two frames (20_memory.md R55, 41_transport.md R141)
  | unknownSelect    -- no register-select constant equals bits [3:2]; impossible under a well-formed configuration (R82)
deriving DecidableEq, Repr

/-- The signed argument port `v` (R8: `sext_W_VAL` of the port bits). -/
def readPort (cfg : Config) (v : Nat) : Except DecodeError Int :=
  if v < 2 ^ cfg.wVal then .ok (sext cfg.wVal v) else .error .portTooWide

/-- The operation on the command port, by its code (R98). -/
def decodeCommand (cfg : Config) (p : CommandPort) : Except DecodeError Instr :=
  match p.code.toNat with
  | 0 => .ok .beginOp
  | 1 =>
    match readPort cfg p.left, readPort cfg p.right with
    | .ok l, .ok r => .ok (.setVolume l r)
    | .error e, _ => .error e
    | _, .error e => .error e
  | 2 =>
    match readPort cfg p.value with
    | .ok g => .ok (.setGain g)
    | .error e => .error e
  | 3 => .ok .mute
  | 4 => .ok (.setZeroCrossing p.enabled)
  | 5 => .ok (.setExternalClock p.enabled)
  | 6 => .ok (.setLinkChannels p.enabled)
  | _ => .ok .getStatus

/-- The control word `w`, by its select field (R100). -/
def decodeWord (cfg : Config) (w : Word) : Except DecodeError Instr :=
  match selectedReg cfg w with
  | some .attL => .ok (.attL (payloadField w) (chipBits w))
  | some .attR => .ok (.attR (payloadField w) (chipBits w))
  | some .gain => .ok (.gain (payloadField w) (chipBits w))
  | some .states => .ok (.states (payloadField w) (chipBits w))
  | none => .error .unknownSelect

/-- The frames of one chip-select bracket: exactly two, the high byte first (R53, R55, R97). -/
def decodeFrames (cfg : Config) (fs : List Byte) : Except DecodeError Instr :=
  match fs with
  | [f1, f2] => decodeWord cfg (joinFrames f1 f2)
  | _ => .error .malformedBracket

/-- The decoder: total, refusing by name. -/
def decode (cfg : Config) : Issue → Except DecodeError Instr
  | .command p => decodeCommand cfg p
  | .frames fs => decodeFrames cfg fs

/-- The command port with the given code and every argument port at 0. -/
def bareCommand (code : BitVec 3) : CommandPort :=
  { code := code, left := 0, right := 0, value := 0, enabled := false }

/-- The two frames of a control word, high byte first (R53, R88). -/
def framesOf (w : Word) : Issue := .frames [hi8 w, lo8 w]

/-- The encoder, from R98 for an operation and R81 for a control word; `none` for a primitive, which has no encoding. -/
def encode (cfg : Config) : Instr → Option Issue
  | .attL p c => some (framesOf (controlWord cfg .attL p c))
  | .attR p c => some (framesOf (controlWord cfg .attR p c))
  | .gain p c => some (framesOf (controlWord cfg .gain p c))
  | .states p c => some (framesOf (controlWord cfg .states p c))
  | .beginOp => some (.command (bareCommand 0))
  | .setVolume l r =>
    some (.command { bareCommand 1 with left := portPattern cfg.wVal l, right := portPattern cfg.wVal r })
  | .setGain g => some (.command { bareCommand 2 with value := portPattern cfg.wVal g })
  | .mute => some (.command (bareCommand 3))
  | .setZeroCrossing e => some (.command { bareCommand 4 with enabled := e })
  | .setExternalClock e => some (.command { bareCommand 5 with enabled := e })
  | .setLinkChannels e => some (.command { bareCommand 6 with enabled := e })
  | .getStatus => some (.command (bareCommand 7))
  | .volumeValid _ | .atten _ | .gainCode _ | .gainValid _ => none
  | .assemble _ _ | .flagBit _ _ => none
  | .shiftByteSw _ | .shiftByteHw _ | .sendWordSw _ | .sendWordHw _ | .sendWord _ => none

/-- The encoded instruction whose bits, as spec/opcode_table.json numbers them, are `w`: a row of at most 8 bits is a
command code with every argument port at 0, a row of 9 to 16 bits a control word. -/
def tableIssue (nbits w : Nat) : Option Issue :=
  if 0 < nbits ∧ nbits ≤ 8 then some (.command (bareCommand (BitVec.ofNat 3 w)))
  else if 8 < nbits ∧ nbits ≤ 16 then some (framesOf (BitVec.ofNat 16 w))
  else none

/-- What the decoder reads from the bits `w` of a table row, under the reference configuration (the table's match
values are `REF`'s). -/
def decodeTableWord (nbits w : Nat) : Option Instr :=
  match tableIssue nbits w with
  | some x =>
    match decode Config.ref x with
    | .ok i => some i
    | .error _ => none
  | none => none

end Sys2Proof
end

