-- ==== Sys2Proof/Machine/Memory.lean ====
section
/-! DEFINITION. The device register space (20_memory.md R50, R51) as bytes: two addresses a register, the high byte of
its content at the lower one. All sixteen registers hold a value from power-on; no other address exists (log entry 3). -/

namespace Sys2Proof.Machine

/-- The byte at address `a`, or `none` where no register lies. -/
def readByte : List Host.Cell → Nat → Option Byte
  | [], _ => none
  | (b, x) :: m, a => if a = b then some x else readByte m a

/-- The memory with the byte `v` at address `a`; the addresses stay strictly rising. -/
def writeByte : List Host.Cell → Nat → Byte → List Host.Cell
  | [], a, v => [(a, v)]
  | (b, x) :: m, a, v =>
    if a < b then (a, v) :: (b, x) :: m
    else if a = b then (a, v) :: m
    else (b, x) :: writeByte m a v

/-- The register space at power-on: all sixteen registers, each with a free payload (R50, log entry 3). -/
def powerOnMem : List Host.Cell :=
  (List.range 16).flatMap fun k =>
    [(2 * k, hi8 (Config.powerOnContent k &&& 0xFFF0#16)), (2 * k + 1, lo8 (Config.powerOnContent k &&& 0xFFF0#16))]

/-- The canonical form: addresses strictly rising. -/
def memWf : List Host.Cell → Bool
  | [] => true
  | [_] => true
  | (a, _) :: (b, y) :: m => decide (a < b) && memWf ((b, y) :: m)

/-- Where register `r` of the handle's chip lies: its (chip address, register select) pair (R51), two bytes a
register. -/
def regAddress (cfg : Config) (r : Reg) : Nat := 2 * (selConst cfg r ||| chipField cfg).toNat

/-- The memory with a register's 16-bit content replaced, high byte first (R53). -/
def writeRegister (m : List Host.Cell) (cfg : Config) (r : Reg) (content : Word) : List Host.Cell :=
  writeByte (writeByte m (regAddress cfg r) (hi8 content)) (regAddress cfg r + 1) (lo8 content)

/-- A register's content. The block itself never reads one (20_memory.md R52). -/
def readRegister (m : List Host.Cell) (cfg : Config) (r : Reg) : Option Word :=
  match readByte m (regAddress cfg r), readByte m (regAddress cfg r + 1) with
  | some h, some l => some (joinFrames h l)
  | _, _ => none

/-- The receiver takes the word `w` (20_memory.md R56, 30_encoding.md R100): a word for another chip is ignored, a
word for this chip replaces the selected register's content by its payload `w & 0xFFF0`. -/
def latchWord (cfg : Config) (w : Word) (m : List Host.Cell) : List Host.Cell :=
  if w &&& 0x0003#16 = chipField cfg then
    match selectedReg cfg w with
    | some r => writeRegister m cfg r (w &&& 0xFFF0#16)
    | none => m
  else m

/-- The chip's four registers after an event whose reception nothing is known of, or after its own power loss: each a
free value with a payload's shape (log entry 2). -/
def upsetMem (cfg : Config) (n : Nat) (m : List Host.Cell) : List Host.Cell :=
  let m1 := writeRegister m cfg .attL (Config.upsetContent n 0 &&& 0xFFF0#16)
  let m2 := writeRegister m1 cfg .attR (Config.upsetContent n 1 &&& 0xFFF0#16)
  let m3 := writeRegister m2 cfg .gain (Config.upsetContent n 2 &&& 0xFFF0#16)
  writeRegister m3 cfg .states (Config.upsetContent n 3 &&& 0xFFF0#16)

end Sys2Proof.Machine
end

