-- ==== Sys2Proof/Machine/State.lean ====
section
/-! DEFINITION. The state of one handle, of the wire it drives and of the chip at its other end, as plain data; the
reasons a step can stop; the state after reset. -/

namespace Sys2Proof.Machine

/-- What an output-pin register holds (10_state.md R32). -/
inductive Level
  | undriven
  | low
  | high
deriving DecidableEq, Repr

/-- The three output pins (41_transport.md R130). -/
inductive Pin
  | csN
  | sclk
  | mosi
deriving DecidableEq, Repr

/-- The sticky error register (10_state.md R28). -/
inductive ErrCode
  | ok
  | valueError
deriving DecidableEq, Repr

/-- The events of the wire trace (41_transport.md R135). A level is `true` for 1. -/
inductive Event
  | cs (level : Bool)
  | sclk (level : Bool)
  | mosi (level : Bool)
  | sample (bit : Bool)
  | txnBegin
  | txnEnd
deriving DecidableEq, Repr

/-- The six phases of the framer (10_state.md R33). -/
inductive Phase
  | assert
  | setup
  | rise
  | sample
  | fall
  | release
deriving DecidableEq, Repr

/-- The framer's position `seq` (10_state.md R33): idle, or the word being sent, the index of its bit, and the phase. -/
inductive Seq
  | idle
  | sending (w : Word) (k : Fin 16) (phase : Phase)
deriving DecidableEq, Repr

/-- What the receiver latches at the end of one chip-select bracket (41_transport.md R141). -/
inductive Latched
  | word (w : Word)
  | malformed
deriving DecidableEq, Repr

/-- The receiver of 41_transport.md R141: the levels it sees, its shift register (oldest bit first) and the words it
has latched (oldest first), which are the device view. -/
structure Receiver where
  cs   : Bool
  clk  : Bool
  mosi : Bool
  sr   : List Bool
  out  : List Latched
deriving DecidableEq, Repr

/-- The start of R141's fold. -/
def Receiver.start : Receiver :=
  { cs := true, clk := false, mosi := false, sr := [], out := [] }

/-- What an operation or a primitive hands back when it completes (10_state.md R29). -/
inductive Result
  | none
  | bool (b : Bool)
  | status (code : Nat)
  | word (w : Word)
  | flag (index : Nat) (value : Bool)
deriving DecidableEq, Repr

/-- What the outside world does next (INVENTORY.md, Host interface). -/
inductive Input
  | issue (x : Issue)        -- an operation on the command port, or a word the receiver gets from elsewhere on the bus
  | construct (cfg : Config) -- a new handle is constructed (70_reset_and_hazards.md R220)
  | powerLoss                -- the block loses power, which is a reset (60_exceptions.md R203)
  | chipPowerLoss            -- the chip alone loses power (10_state.md R35)
  | stall (n : Option Nat)   -- `some n`: the next `n` calls return and no later one; `none`: every call returns (R226)
  | link (sound : Bool)      -- the premise of 20_memory.md R64 on the bus ceases to hold, or holds again
deriving DecidableEq, Repr

/-- The whole state. The fields down to `seq` are the tuple of 10_state.md R20 and the configuration registers of R31,
`trace` is the wire trace (R35, 41_transport.md R135), `rx` and `mem` the receiver and the device register space (R35,
20_memory.md R50), and the rest are the model's own (log entries 1, 2, 4, 5, 8, 9). -/
structure State where
  cfg          : Config
  gainMirror   : Word           -- x[GAIN], R21
  statesMirror : Word           -- x[STATES], R22
  err          : ErrCode        -- R28
  init         : Bool           -- R30
  csN          : Level          -- pin[CS_N], R32
  sclk         : Level          -- pin[SCLK], R32
  mosi         : Level          -- pin[MOSI], R32
  seq          : Seq            -- R33
  trace        : List Event     -- oldest first
  rx           : Receiver
  mem          : List Host.Cell -- rising addresses; an unlisted address does not exist
  result       : Result         -- handed back by the last operation
  inputs       : List Input     -- what the outside world does next
  draws        : Nat            -- index of the next free data-in level
  upsets       : Nat            -- index of the next free chip content
  returns      : Option Nat     -- how many more calls of the capability interface return; `none`: all (R226)
  blocked      : Bool           -- a call has not returned: the operation under way never does
  linkSound    : Bool           -- the premises of R64 and R197 hold
deriving DecidableEq, Repr

/-- Why the machine stops for good: for no reason the spec knows. Its one error is a next state (60_exceptions.md R193),
and an operation that never returns is a state it stays in until power is lost (70_reset_and_hazards.md R226). -/
inductive Fault
deriving DecidableEq, Repr

/-- Why the model gives a step no meaning. -/
inductive Refusal
  /-- Raised by no meaning: the mark of an instruction without one. Safe. -/
  | notModelled (mnemonic : String)
  /-- Raised by an operation other than BEGIN and GET_STATUS, or a transport primitive, before BEGIN
  (42_device_operations.md R160, 93_implementation_defined.md U5). Safe. -/
  | notBegun
  /-- Raised by an operation, a transport primitive or a word from elsewhere on the bus while a transfer is under way,
  and by an operation or construction after an operation that never returns (R160, R226, 20_memory.md R64,
  93_implementation_defined.md U18). Safe. -/
  | transferInProgress
  /-- Raised by the hardware strategy's primitives where there is no serial peripheral: they are "used only when
  `TRANSPORT_MODE = HW`" (41_transport.md R133, R134). Safe. -/
  | noPeripheral
  /-- Raised by the software strategy's primitives where clock and data-out belong to the peripheral (10_state.md R32).
  Safe. -/
  | peripheralOwnsPins
  /-- Raised by the framer at a position 41_transport.md R145 gives no step for. Safe. -/
  | noFramerStep
  /-- Raised at construction, and by a step, where the configuration is ill formed (00_scope.md R8 `refuse`, R82, R96,
  R220). Safe. -/
  | illFormedConfig
  /-- Raised by a step whose input does not decode. Safe. -/
  | undecodable (e : DecodeError)
deriving DecidableEq, Repr

/-- The state right after reset (10_state.md R37) of a handle with the reference configuration. -/
def State.reset : State where
  cfg := Config.ref
  gainMirror := 0x0000#16
  statesMirror := 0x0000#16
  err := .ok
  init := false
  csN := .undriven
  sclk := .undriven
  mosi := .undriven
  seq := .idle
  trace := []
  rx := Receiver.start
  mem := powerOnMem
  result := .none
  inputs := []
  draws := 0
  upsets := 0
  returns := none
  blocked := false
  linkSound := true

end Sys2Proof.Machine
end

