-- ==== Sys2Proof/Machine/Ops.lean ====
section
/-! DEFINITION. The named operations on the state: the receiver, the wire trace, the pin and peripheral primitives
(41_transport.md R130 to R134) and calls of them that do not return (70_reset_and_hazards.md R226), raising ValueError
(60_exceptions.md R193), construction (70_reset_and_hazards.md R220), and the guards and the end the operations share
(42_device_operations.md R160). -/

namespace Sys2Proof.Machine

/-- A step's outcome on this machine. -/
abbrev Out := Host.Outcome State Fault Refusal

/-- What the receiver latches on an event: something exactly at a rising edge of chip-select (R141, `on CS(1)`). -/
def Receiver.latches (r : Receiver) : Event → Option Latched
  | .cs true =>
    if r.cs then none
    else if r.sr.length = 16 then some (.word (wordOfBits r.sr))
    else some .malformed
  | _ => none

/-- One event of R141's fold. Events that are no pin events change nothing. -/
def Receiver.step (r : Receiver) (e : Event) : Receiver :=
  match e with
  | .cs false => { r with cs := false, sr := if r.cs then [] else r.sr }
  | .cs true => { r with cs := true, out := r.out ++ (r.latches e).toList }
  | .sclk true => { r with clk := true, sr := if r.clk || r.cs then r.sr else r.sr ++ [r.mosi] }
  | .sclk false => { r with clk := false }
  | .mosi l => { r with mosi := l }
  | .sample _ => r
  | .txnBegin => r
  | .txnEnd => r

/-- Whether an event belongs to the pin trace (R135). -/
def Event.isPin : Event → Bool
  | .cs _ => true
  | .sclk _ => true
  | .mosi _ => true
  | .sample _ => false
  | .txnBegin => false
  | .txnEnd => false

/-- The pin trace of a wire trace (R135). -/
def pinTrace (t : List Event) : List Event := t.filter Event.isPin

/-- `DeviceView(trace)` (R141). -/
def deviceView (t : List Event) : List Latched := ((pinTrace t).foldl Receiver.step Receiver.start).out

/-- Whether nothing is known of how the chip took an event: the link is unsound (60_exceptions.md R197, R225), or a
malformed bracket has just ended (93_implementation_defined.md U13). -/
def receptionUnknown (s : State) (e : Event) : Bool := !s.linkSound || decide (s.rx.latches e = some .malformed)

/-- The chip's registers after an event on the wire. -/
def chipAfter (s : State) (e : Event) : List Host.Cell :=
  if receptionUnknown s e then upsetMem s.cfg s.upsets s.mem
  else
    match s.rx.latches e with
    | some (.word w) => latchWord s.cfg w s.mem
    | _ => s.mem

/-- `emit e` (00_scope.md R8): the event is appended to the wire trace, and the receiver and the chip take it. -/
def State.emit (e : Event) (s : State) : State :=
  { s with
    trace := s.trace ++ [e]
    rx := s.rx.step e
    mem := chipAfter s e
    upsets := s.upsets + (if receptionUnknown s e then 1 else 0) }

/-- The chip's registers after an event nothing is known of its taking: free values (log entry 2). -/
def State.upset (s : State) : State := { s with mem := upsetMem s.cfg s.upsets s.mem, upsets := s.upsets + 1 }

/-- A call whose effect is `f`. Where calls have ceased to return it has no effect and never returns, and nor has any later
one (R226). That any call of the interface can be the one, not a pin write alone, is the model's choice (log entry 8). -/
def State.call (f : State → State) (s : State) : State :=
  if s.blocked then s
  else
    match s.returns with
    | none => f s
    | some 0 => { s with blocked := true }
    | some (n + 1) => { f s with returns := some n }

/-- The level register of a pin driven to a level. -/
def levelOf (level : Bool) : Level := if level then .high else .low

/-- The event of a pin driven to a level (R130). -/
def pinEvent (p : Pin) (level : Bool) : Event :=
  match p with
  | .csN => .cs level
  | .sclk => .sclk level
  | .mosi => .mosi level

/-- The pin register write of R130, without its event. -/
def State.setPin (p : Pin) (level : Bool) (s : State) : State :=
  match p with
  | .csN => { s with csN := levelOf level }
  | .sclk => { s with sclk := levelOf level }
  | .mosi => { s with mosi := levelOf level }

/-- The effect of `DigitalWrite(pin, level)` (R130); the event is emitted also when the level does not change. -/
def State.drive (p : Pin) (level : Bool) (s : State) : State :=
  (s.setPin p level).emit (pinEvent p level)

/-- `DigitalWrite(pin, level)` (R130). -/
def State.digitalWrite (p : Pin) (level : Bool) (s : State) : State := s.call (State.drive p level)

/-- An event of the serial peripheral (R133, R134). -/
def State.peripheral (e : Event) (s : State) : State := s.call (State.emit e)

/-- `PinMode(pin, direction)` for an output and for the data-in pin (R131): it appends nothing, and 10_state.md R20
gives the block no direction register (log entry 17). -/
def State.pinMode (s : State) : State := s.call id

/-- `SpiInit()` (R133): it appends nothing (log entry 17). -/
def State.spiInit (s : State) : State := s.call id

/-- The effect of `DigitalRead(MISO)` (R132): a draw, appended to the trace and discarded (R143). -/
def State.sample (s : State) : State :=
  let drawn := { s with draws := s.draws + 1 }
  drawn.emit (.sample (Config.dataIn s.draws))

/-- `DigitalRead(MISO)` (R132). -/
def State.digitalRead (s : State) : State := s.call State.sample

/-- `if HAS_MISO: DigitalRead(MISO)` (R136). -/
def State.readDataIn (s : State) : State := if s.cfg.hasMiso then s.digitalRead else s

/-- `SpiBeginTransaction(cfg)` (R133). -/
def State.spiBeginTransaction (_ : SpiSettings) (s : State) : State := s.peripheral .txnBegin

/-- `SpiEndTransaction()` (R133). -/
def State.spiEndTransaction (s : State) : State := s.peripheral .txnEnd

/-- The value handed back when an operation completes (10_state.md R29). -/
def State.handBack (r : Result) (s : State) : State := { s with result := r }

/-- The end of an operation: `f` if it returns; with a call of it that never returns, nothing is handed back (R226). -/
def State.complete (f : State → State) (s : State) : State := if s.blocked then s.handBack .none else f s

/-- The code of the error register: `OK` is 0, `VALUE_ERROR` is 1 (10_state.md R28, 60_exceptions.md R192, D10). -/
def ErrCode.code : ErrCode → Nat
  | .ok => 0
  | .valueError => 1

/-- `raise ValueError` (60_exceptions.md R193): `err <- VALUE_ERROR`, nothing is sent, the operation returns `false`.
There is no handler and no return from one (R196). -/
def State.raiseValueError (s : State) : State := { s with err := .valueError, result := .bool false }

/-- The state of a newly constructed handle (10_state.md R37, R220). The chip, and what belongs to the outside world,
stay as they were (70_reset_and_hazards.md R221). -/
def State.freshHandle (cfg : Config) (s : State) : State :=
  { s with
    cfg := cfg
    gainMirror := cfg.mirrorResetGain
    statesMirror := cfg.mirrorResetStates
    err := .ok
    init := false
    csN := .undriven
    sclk := .undriven
    mosi := .undriven
    seq := .idle
    blocked := false
    trace := []
    rx := Receiver.start
    result := .none }

/-- Construction, which is the reset: an ill-formed configuration is refused (R220). -/
def construct (cfg : Config) (s : State) : Out :=
  if cfg.wf then .next (s.freshHandle cfg) else .refused .illFormedConfig

/-- The loss of power of the block: a reset (60_exceptions.md R203), at any time. That the handle comes back with the
configuration it had is the model's choice, and so is what a chip holds whose bracket was open (log entry 18). -/
def losePower (s : State) : Out := construct s.cfg (if s.rx.cs then s else s.upset)

/-- No operation starts while a transfer is under way, or after one that never returns (R160, R226,
93_implementation_defined.md U18). -/
def whenIdle (k : State → Out) (s : State) : Out :=
  if s.seq = .idle ∧ s.blocked = false then k s else .refused .transferInProgress

/-- No other word reaches the receiver while a transfer is under way (20_memory.md R64). -/
def whenBusFree (k : State → Out) (s : State) : Out :=
  if s.seq = .idle then k s else .refused .transferInProgress

/-- A sending operation needs BEGIN first (R160). -/
def whenBegun (k : State → Out) (s : State) : Out :=
  whenIdle (fun s => if s.init then k s else .refused .notBegun) s

end Sys2Proof.Machine
end

