-- ==== Sys2Proof/Machine/Transport.lean ====
section
/-! DEFINITION. The Transport (41_transport.md R134, R136 to R140): serializing a byte and sending a word by either
strategy, and `MemWrite`, the one store. -/

namespace Sys2Proof.Machine

/-- One bit of `SHIFT_BYTE_SW` (R136). -/
def State.shiftBitSw (s : State) (b : Bool) : State :=
  (((s.digitalWrite .mosi b).digitalWrite .sclk true).readDataIn).digitalWrite .sclk false

/-- `SHIFT_BYTE_SW(b)` (R136). -/
def State.shiftByteSw (b : Byte) (s : State) : State := (msbBits b).foldl State.shiftBitSw s

/-- One bit of `SpiTransfer`: the same events, the peripheral driving clock and data-out (R134). -/
def State.shiftBitHw (s : State) (b : Bool) : State :=
  (((s.peripheral (.mosi b)).peripheral (.sclk true)).readDataIn).peripheral (.sclk false)

/-- The byte `SpiTransfer` reads meanwhile (R134); a free value where no data-in line is wired (R137). -/
def State.spiReads (s : State) : Byte :=
  if s.cfg.hasMiso then byteOfBits ((List.range 8).map fun i => Config.dataIn (s.draws + i))
  else Config.floatingByte s.draws

/-- `SpiTransfer(b)` (R134): the byte read, and the state after. -/
def State.spiTransfer (b : Byte) (s : State) : Byte × State :=
  (s.spiReads, (msbBits b).foldl State.shiftBitHw s)

/-- `SHIFT_BYTE_HW(b)` (R137): the byte read is discarded (R143). -/
def State.shiftByteHw (b : Byte) (s : State) : State := (s.spiTransfer b).2

/-- The events of one bit: 4 with a data-in line, 3 without (R136). -/
def bitEvents (cfg : Config) : Nat := if cfg.hasMiso then 4 else 3

/-- The framer's position inside the transfer of `w` when `n` of its events have been emitted (R145's table). -/
def framerPosition (cfg : Config) (w : Word) (n : Nat) : Seq :=
  if n = 0 then .sending w 15 .assert
  else if (n - 1) / bitEvents cfg ≥ 16 then .sending w 0 .release
  else
    .sending w (Fin.ofNat 16 (15 - (n - 1) / bitEvents cfg))
      (match (n - 1) % bitEvents cfg with
        | 0 => .setup
        | 1 => .rise
        | 2 => if cfg.hasMiso then .sample else .fall
        | _ => .fall)

/-- A transfer of `w`: `body`, and where a call of it does not return, the framer stays where it was (R226). The first
`extra` events of the body are not the framer's. -/
def State.transfer (body : State → State) (w : Word) (extra : Nat) (s : State) : State :=
  if s.blocked then s
  else
    let t := body s
    if t.blocked then { t with seq := framerPosition s.cfg w (t.trace.length - s.trace.length - extra) } else t

/-- The calls of `SEND_WORD_SW(w)` (R138). -/
def State.bracketSw (w : Word) (s : State) : State :=
  (((s.digitalWrite .csN false).shiftByteSw (hi8 w)).shiftByteSw (lo8 w)).digitalWrite .csN true

/-- The calls of `SEND_WORD_HW(w)` (R139). -/
def State.bracketHw (w : Word) (s : State) : State :=
  (((((s.spiBeginTransaction s.cfg.spiSettings).digitalWrite .csN false).shiftByteHw (hi8 w)).shiftByteHw
    (lo8 w)).digitalWrite .csN true).spiEndTransaction

/-- `SEND_WORD_SW(w)` (R138). -/
def State.sendWordSw (w : Word) (s : State) : State := s.transfer (State.bracketSw w) w 0

/-- `SEND_WORD_HW(w)` (R139). The position it is held at is the one of the same event of the other strategy (log entry
15). -/
def State.sendWordHw (w : Word) (s : State) : State := s.transfer (State.bracketHw w) w 1

/-- `SEND_WORD(w)` (R140). -/
def State.sendWord (w : Word) (s : State) : State :=
  match s.cfg.mode with
  | .hw => s.sendWordHw w
  | .sw => s.sendWordSw w

/-- `MemWrite(sel, 2, payload) = SEND_WORD(ASSEMBLE(sel, payload))` (R140). -/
def State.memWrite (sel : Reg) (payload : Word) (s : State) : State :=
  s.sendWord (assemble s.cfg sel payload)

end Sys2Proof.Machine
end

