-- ==== Sys2Proof/Machine/ControlWords.lean ====
section
/-! DEFINITION. The control words as the receiver's instructions (20_memory.md R56, 30_encoding.md R84 to R87, R100):
each is one word latched whole. Nothing else of the state changes: the block never learns of it (60_exceptions.md
R197). -/

namespace Sys2Proof.Machine

/-- The receiver takes a word that is not part of a transfer of this block; over a link that cannot be trusted nothing is
known of what it takes (93_implementation_defined.md U8, log entry 9). -/
def State.latch (w : Word) (s : State) : State :=
  if s.linkSound then { s with mem := latchWord s.cfg w s.mem } else s.upset

/-- `ATT_L` (R84). -/
def execAttL (payload : BitVec 12) (chip : BitVec 2) (s : State) : Out :=
  whenBusFree (fun s => .next (s.latch (controlWord s.cfg .attL payload chip))) s

/-- `ATT_R` (R85). -/
def execAttR (payload : BitVec 12) (chip : BitVec 2) (s : State) : Out :=
  whenBusFree (fun s => .next (s.latch (controlWord s.cfg .attR payload chip))) s

/-- `GAIN` (R86). -/
def execGain (payload : BitVec 12) (chip : BitVec 2) (s : State) : Out :=
  whenBusFree (fun s => .next (s.latch (controlWord s.cfg .gain payload chip))) s

/-- `STATES` (R87). -/
def execStates (payload : BitVec 12) (chip : BitVec 2) (s : State) : Out :=
  whenBusFree (fun s => .next (s.latch (controlWord s.cfg .states payload chip))) s

end Sys2Proof.Machine
end

