-- ==== Sys2Proof/Machine/EncoderPrims.lean ====
section
/-! DEFINITION. The Encoder's primitives as instructions (40_encoder.md R110 to R115): pure functions that hand their
value back and change nothing else. -/

namespace Sys2Proof.Machine

/-- `VOLUME_VALID(v)` (R110). -/
def execVolumeValid (v : Int) (s : State) : Out := .next (s.handBack (.bool (volumeValid s.cfg v)))

/-- `ATTEN(v)` (R111). -/
def execAtten (v : Int) (s : State) : Out := .next (s.handBack (.word (atten v)))

/-- `GAINCODE(g)` (R112). -/
def execGainCode (g : Int) (s : State) : Out := .next (s.handBack (.word (gainCode g)))

/-- `GAIN_VALID(g)` (R113). -/
def execGainValid (g : Int) (s : State) : Out := .next (s.handBack (.bool (gainValid s.cfg g)))

/-- `ASSEMBLE(sel, payload)` (R114). -/
def execAssemble (sel : Reg) (payload : Word) (s : State) : Out :=
  .next (s.handBack (.word (assemble s.cfg sel payload)))

/-- `FLAG_BIT(feature, enabled)` (R115). -/
def execFlagBit (feature : Feature) (enabled : Bool) (s : State) : Out :=
  .next (s.handBack (.flag (flagBit feature enabled).1 (flagBit feature enabled).2))

end Sys2Proof.Machine
end

