-- ==== Sys2Proof/Machine/Operations.lean ====
section
/-! DEFINITION. The eight host operations (42_device_operations.md R161 to R168). -/

namespace Sys2Proof.Machine

/-- The pins of BEGIN (R161). -/
def State.beginPins (s : State) : State :=
  let selected := s.pinMode.digitalWrite .csN true
  match s.cfg.mode with
  | .sw =>
    let outputs := selected.pinMode.pinMode
    ((if s.cfg.hasMiso then outputs.pinMode else outputs).digitalWrite .sclk false).digitalWrite .mosi false
  | .hw => selected.spiInit

/-- `BEGIN` (R161). -/
def execBegin (s : State) : Out :=
  whenIdle (fun s => .next (s.beginPins.complete fun t => { t with init := true }.handBack (.bool true))) s

/-- `SET_VOLUME(left, right)` (R162): both arguments are tested before anything is sent (R194). -/
def execSetVolume (left right : Int) (s : State) : Out :=
  whenBegun (fun s =>
    if volumeValid s.cfg left && volumeValid s.cfg right then
      .next (((s.memWrite .attL (atten left)).memWrite .attR (atten right)).complete (State.handBack (.bool true)))
    else .next s.raiseValueError) s

/-- `SET_GAIN(value)` (R163): the whole mirror is assigned. -/
def execSetGain (value : Int) (s : State) : Out :=
  whenBegun (fun s =>
    if gainValid s.cfg value then
      .next (({ s with gainMirror := gainCode value }.memWrite .gain (gainCode value)).complete
        (State.handBack (.bool true)))
    else .next s.raiseValueError) s

/-- `MUTE` (R164). -/
def execMute (s : State) : Out :=
  whenBegun (fun s => .next (((s.memWrite .attL 0x0000#16).memWrite .attR 0x0000#16).handBack .none)) s

/-- A feature of the gain register: set the bit in the mirror, then send the whole register (section 3). -/
def State.gainFeature (f : Feature) (enabled : Bool) (s : State) : State :=
  let mirror := setFeature f enabled s.gainMirror
  ({ s with gainMirror := mirror }.memWrite .gain mirror).handBack .none

/-- A feature of the states register: set the bit in the mirror, then send the whole register (section 3). -/
def State.statesFeature (f : Feature) (enabled : Bool) (s : State) : State :=
  let mirror := setFeature f enabled s.statesMirror
  ({ s with statesMirror := mirror }.memWrite .states mirror).handBack .none

/-- `SET_ZERO_CROSSING(enabled)` (R165). -/
def execSetZeroCrossing (enabled : Bool) (s : State) : Out :=
  whenBegun (fun s => .next (s.gainFeature .zeroCrossing enabled)) s

/-- `SET_EXTERNAL_CLOCK(enabled)` (R166). -/
def execSetExternalClock (enabled : Bool) (s : State) : Out :=
  whenBegun (fun s => .next (s.statesFeature .externalClock enabled)) s

/-- `SET_LINK_CHANNELS(enabled)` (R167). -/
def execSetLinkChannels (enabled : Bool) (s : State) : Out :=
  whenBegun (fun s => .next (s.gainFeature .link enabled)) s

/-- `GET_STATUS` (R168): allowed before BEGIN; nothing is cleared. -/
def execGetStatus (s : State) : Out :=
  whenIdle (fun s => .next (s.handBack (.status s.err.code))) s

end Sys2Proof.Machine
end

