-- ==== Sys2Proof/Machine/TransportPrims.lean ====
section
/-! DEFINITION. The Transport's primitives as instructions (41_transport.md R136 to R140). They need BEGIN (R138's
precondition; before it the pins are not configured, 93_implementation_defined.md U5), and each strategy's own primitives
need that strategy (10_state.md R32, R133, R134). -/

namespace Sys2Proof.Machine

/-- A primitive of the software strategy. -/
def whenSw (k : State → Out) (s : State) : Out :=
  whenBegun (fun s => if s.cfg.mode = .sw then k s else .refused .peripheralOwnsPins) s

/-- A primitive of the hardware strategy. -/
def whenHw (k : State → Out) (s : State) : Out :=
  whenBegun (fun s => if s.cfg.mode = .hw then k s else .refused .noPeripheral) s

/-- `SHIFT_BYTE_SW(b)` (R136). -/
def execShiftByteSw (b : Byte) (s : State) : Out :=
  whenSw (fun s => .next ((s.shiftByteSw b).handBack .none)) s

/-- `SHIFT_BYTE_HW(b)` (R137). -/
def execShiftByteHw (b : Byte) (s : State) : Out :=
  whenHw (fun s => .next ((s.shiftByteHw b).handBack .none)) s

/-- `SEND_WORD_SW(w)` (R138). -/
def execSendWordSw (w : Word) (s : State) : Out :=
  whenSw (fun s => .next ((s.sendWordSw w).handBack .none)) s

/-- `SEND_WORD_HW(w)` (R139). -/
def execSendWordHw (w : Word) (s : State) : Out :=
  whenHw (fun s => .next ((s.sendWordHw w).handBack .none)) s

/-- `SEND_WORD(w)` (R140). -/
def execSendWord (w : Word) (s : State) : Out :=
  whenBegun (fun s => .next ((s.sendWord w).handBack .none)) s

end Sys2Proof.Machine
end

