-- ==== Sys2Proof/Machine/Dispatch.lean ====
section
/-! DEFINITION. One arm per instruction. -/

namespace Sys2Proof.Machine

def exec (i : Instr) (s : State) : Host.Outcome State Fault Refusal :=
  match i with
  | .attL payload chip => Sys2Proof.Machine.execAttL payload chip s
  | .attR payload chip => Sys2Proof.Machine.execAttR payload chip s
  | .gain payload chip => Sys2Proof.Machine.execGain payload chip s
  | .states payload chip => Sys2Proof.Machine.execStates payload chip s
  | .beginOp => Sys2Proof.Machine.execBegin s
  | .setVolume left right => Sys2Proof.Machine.execSetVolume left right s
  | .setGain value => Sys2Proof.Machine.execSetGain value s
  | .mute => Sys2Proof.Machine.execMute s
  | .setZeroCrossing enabled => Sys2Proof.Machine.execSetZeroCrossing enabled s
  | .setExternalClock enabled => Sys2Proof.Machine.execSetExternalClock enabled s
  | .setLinkChannels enabled => Sys2Proof.Machine.execSetLinkChannels enabled s
  | .getStatus => Sys2Proof.Machine.execGetStatus s
  | .volumeValid v => Sys2Proof.Machine.execVolumeValid v s
  | .atten v => Sys2Proof.Machine.execAtten v s
  | .gainCode g => Sys2Proof.Machine.execGainCode g s
  | .gainValid g => Sys2Proof.Machine.execGainValid g s
  | .assemble sel payload => Sys2Proof.Machine.execAssemble sel payload s
  | .flagBit feature enabled => Sys2Proof.Machine.execFlagBit feature enabled s
  | .shiftByteSw b => Sys2Proof.Machine.execShiftByteSw b s
  | .shiftByteHw b => Sys2Proof.Machine.execShiftByteHw b s
  | .sendWordSw w => Sys2Proof.Machine.execSendWordSw w s
  | .sendWordHw w => Sys2Proof.Machine.execSendWordHw w s
  | .sendWord w => Sys2Proof.Machine.execSendWord w s

end Sys2Proof.Machine
end

