-- ==== Sys2Proof/Machine/Framer.lean ====
section
/-! DEFINITION. The framer's small steps inside one transfer of the software strategy (41_transport.md R145). -/

namespace Sys2Proof.Machine

/-- The start line of R145: from idle to `(w, 15, ASSERT)`, no event. -/
def State.startTransfer (w : Word) (s : State) : State := { s with seq := .sending w 15 .assert }

/-- The state with the framer at another position. -/
def State.moveTo (p : Seq) (s : State) : State := { s with seq := p }

/-- The framer at its next position, unless the call of the line has not returned (R226). -/
def State.advance (p : Seq) (s : State) : State := if s.blocked then s else s.moveTo p

/-- One line of R145, or `none` where it gives no step: the table is `SEND_WORD_SW`'s, `ASSERT` occurs only at bit 15
and `RELEASE` only at bit 0. -/
def framerStep (s : State) : Option State :=
  match s.cfg.mode, s.seq with
  | .hw, _ => none
  | .sw, .idle => none
  | .sw, .sending w k .assert =>
    if k = 15 then some ((s.digitalWrite .csN false).advance (.sending w 15 .setup)) else none
  | .sw, .sending w k .setup => some ((s.digitalWrite .mosi (w.getLsbD k)).advance (.sending w k .rise))
  | .sw, .sending w k .rise =>
    some ((s.digitalWrite .sclk true).advance (.sending w k (if s.cfg.hasMiso then .sample else .fall)))
  | .sw, .sending w k .sample => some (s.digitalRead.advance (.sending w k .fall))
  | .sw, .sending w k .fall =>
    some ((s.digitalWrite .sclk false).advance (if k = 0 then .sending w 0 .release else .sending w (k - 1) .setup))
  | .sw, .sending _ k .release =>
    if k = 0 then some ((s.digitalWrite .csN true).advance .idle) else none

/-- A step of the machine while a transfer is under way: the framer goes on. -/
def continueTransfer (s : State) : Out :=
  match framerStep s with
  | some t => .next t
  | none => .refused .noFramerStep

end Sys2Proof.Machine
end

