-- ==== Sys2Proof/Machine/Inputs.lean ====
section
/-! DEFINITION. What one input of the outside world does (INVENTORY.md, Host interface): an encoded instruction is
decoded and executed, every other input acts on the state directly. -/

namespace Sys2Proof.Machine

/-- An encoded instruction is decoded under the handle's configuration and executed. -/
def runIssue (x : Issue) (s : State) : Out :=
  match decode s.cfg x with
  | .ok i => exec i s
  | .error e => .refused (.undecodable e)

/-- The input's effect, once it has been taken off the list. -/
def runInput (x : Input) (s : State) : Out :=
  match x with
  | .issue y => runIssue y s
  | .construct cfg => whenIdle (construct cfg) s
  | .powerLoss => losePower s
  | .chipPowerLoss => .next s.upset
  | .stall n => .next { s with returns := n }
  | .link b => .next { s with linkSound := b }

/-- The first input is taken and acts; with none, the block waits (42_device_operations.md R160: it does nothing unless an
operation is issued). -/
def takeInput (s : State) : Out :=
  match s.inputs with
  | [] => .next s
  | x :: rest => runInput x { s with inputs := rest }

/-- The inputs that do not wait for the end of a transfer: power is lost, or calls cease to return, at any time
(60_exceptions.md R203, 70_reset_and_hazards.md R226). The others come between operations (log entry 5). -/
def Input.cutsIn : Input → Bool
  | .powerLoss | .stall _ => true
  | .issue _ | .construct _ | .chipPowerLoss | .link _ => false

/-- Whether the next input is one that does not wait. -/
def State.interrupted (s : State) : Bool :=
  match s.inputs with
  | [] => false
  | x :: _ => x.cutsIn

/-- The encoded instruction put first in line, with the framer idle and no call hanging so that it is taken next. -/
def State.placeFirst (x : Issue) (s : State) : State :=
  { s with seq := .idle, blocked := false, inputs := .issue x :: s.inputs }

end Sys2Proof.Machine
end

