-- ==== Sys2Proof/Machine/Step.lean ====
section
/-! DEFINITION. One step: a transfer under way goes on by one event of the wire, unless a call of it hangs or power is
lost; else the next input is taken. -/

namespace Sys2Proof.Machine

/-- One step of the machine. An ill-formed configuration has no meaning (00_scope.md R8 `refuse`). -/
def step (s : State) : Host.Outcome State Fault Refusal :=
  if s.cfg.wf then
    if s.seq = .idle ∨ s.blocked = true ∨ s.interrupted = true then takeInput s else continueTransfer s
  else .refused .illFormedConfig

/-- The table's instruction `w` of `nbits` bits as the next input, the framer idle. -/
def State.withFetchWord (s : State) (nbits w : Nat) : State :=
  match tableIssue nbits w with
  | some x => s.placeFirst x
  | none => s

end Sys2Proof.Machine
end

