-- ==== Sys2Proof/Safety.lean ====
section
/-! DEFINITION. What the statements about the machine are written in: when an operation may run, what a transfer puts
on the wire and in the chip, what stays unchanged, and the invariant of a machine that has been run only by its
steps. -/

namespace Sys2Proof.Machine

/-- Every call of the capability interface returns (70_reset_and_hazards.md R226's premise). -/
structure Free (s : State) : Prop where
  returns : s.returns = none
  running : s.blocked = false

/-- A sending operation runs to completion here: no transfer is under way, BEGIN has run, and every call returns
(42_device_operations.md R160, 70_reset_and_hazards.md R226). -/
structure Ready (s : State) : Prop where
  idle  : s.seq = .idle
  begun : s.init = true
  free  : Free s

/-- The receiver is between brackets and sees the clock low (41_transport.md R141's start, R146). -/
structure WireIdle (s : State) : Prop where
  cs  : s.rx.cs = true
  clk : s.rx.clk = false

/-- The pin levels between transfers (R146), which are R138's precondition. -/
structure PinsIdle (s : State) : Prop where
  cs  : s.csN = .high
  clk : s.cfg.mode = .sw → s.sclk = .low

/-- Everything is unchanged but the wire, the pins, the chip, the result and the two counters of free values. -/
structure SameCore (s t : State) : Prop where
  cfg          : t.cfg = s.cfg
  gainMirror   : t.gainMirror = s.gainMirror
  statesMirror : t.statesMirror = s.statesMirror
  err          : t.err = s.err
  init         : t.init = s.init
  seq          : t.seq = s.seq
  inputs       : t.inputs = s.inputs
  returns      : t.returns = s.returns
  blocked      : t.blocked = s.blocked
  linkSound    : t.linkSound = s.linkSound

/-- The pin events of one bit (41_transport.md R134, R136). -/
def bitPinEvents (b : Bool) : List Event := [.mosi b, .sclk true, .sclk false]

/-- The events of one bit, with the data-in level `d` read where there is a data-in line (R136). -/
def bitWireEvents (hasMiso : Bool) (b d : Bool) : List Event :=
  [.mosi b, .sclk true] ++ (if hasMiso then [.sample d] else []) ++ [.sclk false]

/-- The events of one byte, most significant bit first, with the eight data-in levels `ds` (R136). -/
def byteWireEvents (hasMiso : Bool) (b : Byte) (ds : List Bool) : List Event :=
  (List.zip [b.getLsbD 7, b.getLsbD 6, b.getLsbD 5, b.getLsbD 4, b.getLsbD 3, b.getLsbD 2, b.getLsbD 1, b.getLsbD 0]
    ds).flatMap fun p => bitWireEvents hasMiso p.1 p.2

/-- The pin events of one byte, most significant bit first (R136). -/
def bytePinEvents (b : Byte) : List Event :=
  [b.getLsbD 7, b.getLsbD 6, b.getLsbD 5, b.getLsbD 4, b.getLsbD 3, b.getLsbD 2, b.getLsbD 1, b.getLsbD 0].flatMap
    bitPinEvents

/-- The pin events of one word: chip-select low, the high byte, the low byte, chip-select high (R138). -/
def wordPinEvents (w : Word) : List Event :=
  [.cs false] ++ bytePinEvents (w.extractLsb' 8 8) ++ bytePinEvents (w.extractLsb' 0 8) ++ [.cs true]

/-- The words `ws` went out between the two states, in that order, as the wire, the pins and the receiver show. -/
structure Transmitted (s t : State) (ws : List Word) : Prop where
  grows : s.trace <+: t.trace
  pins  : pinTrace t.trace = pinTrace s.trace ++ ws.flatMap wordPinEvents
  view  : WireIdle s → t.rx.out = s.rx.out ++ ws.map Latched.word
  idle  : WireIdle s → WireIdle t
  csN   : ∀ w, ws.getLast? = some w → t.csN = .high
  sw    : s.cfg.mode = .sw → ∀ w, ws.getLast? = some w → t.sclk = .low ∧ t.mosi = levelOf (w.getLsbD 0)
  hw    : s.cfg.mode = .hw → t.sclk = s.sclk ∧ t.mosi = s.mosi

/-- The address `a` is one of the two bytes of register `r` of the handle's chip. -/
def inRegister (cfg : Config) (r : Reg) (a : Nat) : Prop := a = regAddress cfg r ∨ a = regAddress cfg r + 1

/-- The chip's registers hold what is listed, and every other byte of the register space is as it was. -/
structure ChipHolds (s t : State) (written : List (Reg × Word)) : Prop where
  holds : ∀ p ∈ written, readRegister t.mem s.cfg p.1 = some p.2
  frame : ∀ a, (∀ p ∈ written, ¬ inRegister s.cfg p.1 a) → readByte t.mem a = readByte s.mem a

/-- What the chip of a sound, idle link does with a word (20_memory.md R56, 30_encoding.md R100): a word for another chip
changes nothing, a word for this chip replaces the register it selects by its payload. -/
structure ChipTook (s t : State) (w : Word) : Prop where
  other : w &&& 0x0003#16 ≠ chipField s.cfg → ∀ a, readByte t.mem a = readByte s.mem a
  this  : w &&& 0x0003#16 = chipField s.cfg → ∀ r, w &&& 0x000C#16 = selConst s.cfg r →
    ChipHolds s t [(r, w &&& 0xFFF0#16)]

/-- The last word in a device view (oldest first) that carries register `r`'s select constant, if any. -/
def lastSent (cfg : Config) (r : Reg) (out : List Latched) : Option Word :=
  out.foldl (fun found l =>
    match l with
    | .word w => if w &&& 0x000C#16 = selConst cfg r then some w else found
    | .malformed => found) none

/-- 10_state.md R27: each mirror is the payload of the last word sent with its register's select constant, once there
is one. -/
structure MirrorsShown (s : State) : Prop where
  gain   : ∀ w, lastSent s.cfg .gain s.rx.out = some w → w &&& 0xFFF0#16 = s.gainMirror
  states : ∀ w, lastSent s.cfg .states s.rx.out = some w → w &&& 0xFFF0#16 = s.statesMirror

/-- The mirrors with every bit clear that no operation sets (42_device_operations.md R171 e). -/
structure MirrorsTame (s : State) : Prop where
  gain   : s.gainMirror &&& 0x00FF#16 = 0#16
  states : s.statesMirror &&& 0xFDFF#16 = 0#16

/-- The control word of a kind, as an instruction of the receiver. -/
def wordInstr (r : Reg) (payload : BitVec 12) (chip : BitVec 2) : Instr :=
  match r with
  | .attL => .attL payload chip
  | .attR => .attR payload chip
  | .gain => .gain payload chip
  | .states => .states payload chip

/-- The payloads an operation sends, each with its register, in order: the attenuation codes of SET_VOLUME, 0 twice for MUTE,
and the mirror as the operation leaves it for the others (42_device_operations.md R162 to R167). -/
def payloads (t : State) : Instr → List (Reg × Word)
  | .setVolume l r => [(.attL, BitVec.ofInt 16 (4096 - 128 * l)), (.attR, BitVec.ofInt 16 (4096 - 128 * r))]
  | .mute => [(.attL, 0x0000#16), (.attR, 0x0000#16)]
  | .setGain _ | .setZeroCrossing _ | .setLinkChannels _ => [(.gain, t.gainMirror)]
  | .setExternalClock _ => [(.states, t.statesMirror)]
  | .beginOp | .getStatus => []
  | .attL _ _ | .attR _ _ | .gain _ _ | .states _ _ => []
  | .volumeValid _ | .atten _ | .gainCode _ | .gainValid _ | .assemble _ _ | .flagBit _ _ => []
  | .shiftByteSw _ | .shiftByteHw _ | .sendWordSw _ | .sendWordHw _ | .sendWord _ => []

/-- A wire trace without the data-in levels read (41_transport.md R143). -/
def withoutSamples (t : List Event) : List Event :=
  t.filter fun e =>
    match e with
    | .sample _ => false
    | .cs _ | .sclk _ | .mosi _ | .txnBegin | .txnEnd => true

/-- The operations of the host surface (30_encoding.md R98). -/
def isOperation : Instr → Bool
  | .beginOp | .setVolume _ _ | .setGain _ | .mute => true
  | .setZeroCrossing _ | .setExternalClock _ | .setLinkChannels _ | .getStatus => true
  | .attL _ _ | .attR _ _ | .gain _ _ | .states _ _ => false
  | .volumeValid _ | .atten _ | .gainCode _ | .gainValid _ | .assemble _ _ | .flagBit _ _ => false
  | .shiftByteSw _ | .shiftByteHw _ | .sendWordSw _ | .sendWordHw _ | .sendWord _ => false

/-- The operations that need BEGIN first: all but BEGIN and GET_STATUS (42_device_operations.md R160). -/
def needsBegin : Instr → Bool
  | .setVolume _ _ | .setGain _ | .mute => true
  | .setZeroCrossing _ | .setExternalClock _ | .setLinkChannels _ => true
  | .beginOp | .getStatus => false
  | .attL _ _ | .attR _ _ | .gain _ _ | .states _ _ => false
  | .volumeValid _ | .atten _ | .gainCode _ | .gainValid _ | .assemble _ _ | .flagBit _ _ => false
  | .shiftByteSw _ | .shiftByteHw _ | .sendWordSw _ | .sendWordHw _ | .sendWord _ => false

/-- A command reads only the ports of its own operation, and those it reads fit `W_VAL` bits (30_encoding.md R98, 00_scope.md
R6). -/
def portsFit (cfg : Config) (p : CommandPort) : Prop :=
  (p.code = 1 → p.left < 2 ^ cfg.wVal ∧ p.right < 2 ^ cfg.wVal) ∧ (p.code = 2 → p.value < 2 ^ cfg.wVal)

/-- The invariant of a machine run only by its steps. While a call hangs the block is held inside an operation, and what
holds between operations is not asked. -/
structure Invariant (s : State) : Prop where
  config      : s.cfg.wf = true
  quiet       : s.blocked = false → s.seq = .idle               -- every operation is one step (R160)
  gainClear   : s.gainMirror &&& 0x000F#16 = 0#16               -- 40_encoder.md R119
  statesClear : s.statesMirror &&& 0x000F#16 = 0#16             -- R119
  canonical   : memWf s.mem = true
  mapped      : ∀ c ∈ s.mem, c.1 < 32                           -- sixteen registers (20_memory.md R51)
  total       : ∀ a < 32, (readByte s.mem a).isSome = true      -- each with a value (93_implementation_defined.md U11)
  receiver    : s.rx = (pinTrace s.trace).foldl Receiver.step Receiver.start -- 41_transport.md R141
  wire        : s.blocked = false → WireIdle s
  wordsOnly   : ∀ l ∈ s.rx.out, l ≠ .malformed                  -- R141: no rule produces one
  begun       : s.blocked = false → s.init = true → PinsIdle s  -- R146
  fresh       : s.blocked = false → s.init = false →            -- 10_state.md R37
    s.csN = .undriven ∧ s.sclk = .undriven ∧ s.mosi = .undriven ∧ s.trace = []
  peripheral  : s.cfg.mode = .hw → s.sclk = .undriven ∧ s.mosi = .undriven -- 10_state.md R32

end Sys2Proof.Machine
end

