-- ==== Sys2Proof/Certificates/Slice0/Obligations.lean ====
section
/-! DEFINITION. The statements for the provers. Each docstring names the rule or decision of spec/ it rests on; "the
spec's own choice" marks a decision of 92_eei_decisions.md, and a log entry is one of notes/assumptions/. -/

open Sys2Proof Sys2Proof.Machine

/-! ## The Encoder -/

/-- 40_encoder.md R110: the test against `VOL_MIN` and `VOL_MAX`, which a legal configuration fixes (00_scope.md R6). -/
def Obligations.VolumeValidAnswersTheRangeTest : Prop :=
  ∀ (s : State) (v : Int),
    exec (.volumeValid v) s = .next { s with result := .bool (decide (s.cfg.volMin ≤ v ∧ v ≤ s.cfg.volMax)) } ∧
    (s.cfg.wf = true → exec (.volumeValid v) s = .next { s with result := .bool (decide (-447 ≤ v ∧ v ≤ 0)) })

/-- 40_encoder.md R111, with its corner cases; a value outside the range has a code that no operation sends. -/
def Obligations.AttenAnswersTheTruncatedCode : Prop :=
  ∀ (s : State) (v : Int), ∃ w : Word,
    exec (.atten v) s = .next { s with result := .word w } ∧
    (w.toNat : Int) = (4096 + (-v * 128)) % 65536 ∧
    (-447 ≤ v → v ≤ 0 → (w.toNat : Int) = 4096 + (-v * 128) ∧ 4096 ≤ w.toNat ∧ w.toNat ≤ 61312) ∧
    (v = 0 → w = 0x1000#16) ∧ (v = -447 → w = 0xEF80#16) ∧ (v = 1 → w = 0x0F80#16) ∧
    (v = -448 → w = 0xF000#16) ∧ (v = -480 → w = 0x0000#16) ∧ (v = -481 → w = 0x0080#16) ∧
    (s.cfg.wf = true → (v < -447 ∨ 0 < v) → ∀ (u : Int) (t : State),
      (exec (.setVolume v u) s = .next t ∨ exec (.setVolume u v) s = .next t) → t.trace = s.trace)

/-- 40_encoder.md R117, laws (a) to (f); the spec marks them as derived. -/
def Obligations.AttenLawsOnTheLegalRange : Prop :=
  ∀ v u : Int, -447 ≤ v → v ≤ 0 → -447 ≤ u → u ≤ 0 →
    ((atten v).toNat : Int) = 4096 - 128 * v ∧
    atten v &&& 0x007F#16 = 0#16 ∧ atten v &&& 0x000F#16 = 0#16 ∧
    ((attField (atten v)).toNat : Int) = 32 - v ∧
    (v < u → (atten u).toNat < (atten v).toNat) ∧ (atten v = atten u → v = u) ∧
    (v < 0 → (atten v).toNat = (atten (v + 1)).toNat + 128) ∧
    atten v ≠ 0#16

/-- 40_encoder.md R112 with its corner cases (a) to (d) and its example. The reading of negative values is the spec's
own choice (92_eei_decisions.md D7). Bit 15 is set by bit 3 of the value through one copy and by bit 6 through the other
(log entry 12). -/
def Obligations.GainCodeAnswersTwoShiftedCopies : Prop :=
  ∀ (s : State) (g : Int), ∃ w : Word,
    exec (.gainCode g) s = .next { s with result := .word w } ∧
    w.toNat = (((g % 16).toNat <<< 12) ||| ((g % 128).toNat <<< 9)) % 65536 ∧
    w &&& 0x01FF#16 = 0#16 ∧
    (0 ≤ g → g ≤ 7 → (w.toNat : Int) = g * 4608 ∧ linkField w = false) ∧
    linkField w = decide (8 ≤ g % 16 ∨ 64 ≤ g % 128) ∧
    (∀ h : Int, h % 128 = g % 128 → exec (.gainCode h) s = exec (.gainCode g) s) ∧
    (g = 3 → w = 0x3600#16)

/-- 40_encoder.md R113. Which values are accepted in the reference configuration is the spec's own choice (D5); the
statement holds for both. -/
def Obligations.GainValidAnswersByConfiguration : Prop :=
  ∀ (s : State) (g : Int),
    exec (.gainValid g) s =
      .next { s with result := .bool (decide (s.cfg.gainRejectPositive = false ∨ g ≤ 0)) }

/-- 40_encoder.md R114, for each of the four select constants; the chip-address field is `CHIP_ADDR` in bits [1:0]. -/
def Obligations.AssembleOrsTheThreeParts : Prop :=
  ∀ (s : State) (payload : Word),
    exec (.assemble .attL payload) s =
      .next { s with result := .word (s.cfg.selAttL ||| BitVec.ofNat 16 s.cfg.chipAddr ||| payload) } ∧
    exec (.assemble .attR payload) s =
      .next { s with result := .word (s.cfg.selAttR ||| BitVec.ofNat 16 s.cfg.chipAddr ||| payload) } ∧
    exec (.assemble .gain payload) s =
      .next { s with result := .word (s.cfg.selGain ||| BitVec.ofNat 16 s.cfg.chipAddr ||| payload) } ∧
    exec (.assemble .states payload) s =
      .next { s with result := .word (s.cfg.selStates ||| BitVec.ofNat 16 s.cfg.chipAddr ||| payload) }

/-- 40_encoder.md R115. -/
def Obligations.FlagBitAnswersIndexAndPolarity : Prop :=
  ∀ (s : State) (e : Bool),
    exec (.flagBit .zeroCrossing e) s = .next { s with result := .flag 8 (if e then false else true) } ∧
    exec (.flagBit .externalClock e) s = .next { s with result := .flag 9 (if e then false else true) } ∧
    exec (.flagBit .link e) s = .next { s with result := .flag 15 (if e then true else false) }

/-! ## The Transport -/

/-- 41_transport.md R136. The data-in levels `ds` are free (R143). -/
def Obligations.ShiftByteSwEmitsItsBitsAndClocks : Prop :=
  ∀ (s : State) (b : Byte), Ready s → s.cfg.mode = .sw →
    ∃ (t : State) (ds : List Bool),
      exec (.shiftByteSw b) s = .next t ∧ ds.length = 8 ∧
      t.trace = s.trace ++ byteWireEvents s.cfg.hasMiso b ds ∧
      t.trace.length = s.trace.length + (if s.cfg.hasMiso then 32 else 24) ∧
      t.sclk = .low ∧ t.mosi = levelOf (b.getLsbD 0) ∧ t.csN = s.csN ∧
      SameCore s t ∧ t.result = .none ∧
      (s.linkSound = true → ∀ a, readByte t.mem a = readByte s.mem a)

/-- 41_transport.md R134 and R137: the events of `SHIFT_BYTE_SW`, no pin register written, the byte read discarded. -/
def Obligations.ShiftByteHwEmitsTheSameEvents : Prop :=
  ∀ (s : State) (b : Byte), Ready s → s.cfg.mode = .hw →
    ∃ (t : State) (ds : List Bool),
      exec (.shiftByteHw b) s = .next t ∧ ds.length = 8 ∧
      t.trace = s.trace ++ byteWireEvents s.cfg.hasMiso b ds ∧
      t.sclk = s.sclk ∧ t.mosi = s.mosi ∧ t.csN = s.csN ∧
      SameCore s t ∧ t.result = .none ∧
      (s.linkSound = true → ∀ a, readByte t.mem a = readByte s.mem a)

/-- 41_transport.md R138 and R146, and the chip by R56 and R100 (the receiver is the spec's own rendering, D19). -/
def Obligations.SendWordSwTransmitsTheWord : Prop :=
  ∀ (s : State) (w : Word), Ready s → s.cfg.mode = .sw →
    ∃ (t : State) (ds es : List Bool),
      exec (.sendWordSw w) s = .next t ∧ ds.length = 8 ∧ es.length = 8 ∧
      t.trace = s.trace ++ ([.cs false] ++ byteWireEvents s.cfg.hasMiso (w.extractLsb' 8 8) ds ++
        byteWireEvents s.cfg.hasMiso (w.extractLsb' 0 8) es ++ [.cs true]) ∧
      t.trace.length = s.trace.length + (if s.cfg.hasMiso then 66 else 50) ∧
      Transmitted s t [w] ∧ SameCore s t ∧ t.result = .none ∧
      (s.cfg.wf = true → WireIdle s → s.linkSound = true → ChipTook s t w)

/-- 41_transport.md R139. The order of the transaction and chip-select events is the spec's own choice (D14). -/
def Obligations.SendWordHwTransmitsInsideATransaction : Prop :=
  ∀ (s : State) (w : Word), Ready s → s.cfg.mode = .hw →
    ∃ (t : State) (ds es : List Bool),
      exec (.sendWordHw w) s = .next t ∧ ds.length = 8 ∧ es.length = 8 ∧
      t.trace = s.trace ++ ([.txnBegin, .cs false] ++ byteWireEvents s.cfg.hasMiso (w.extractLsb' 8 8) ds ++
        byteWireEvents s.cfg.hasMiso (w.extractLsb' 0 8) es ++ [.cs true, .txnEnd]) ∧
      Transmitted s t [w] ∧ SameCore s t ∧ t.result = .none ∧
      (s.cfg.wf = true → WireIdle s → s.linkSound = true → ChipTook s t w)

/-- 41_transport.md R140: the strategy is the one fixed at construction, and the word goes out either way. -/
def Obligations.SendWordFollowsTheTransportMode : Prop :=
  ∀ (s : State) (w : Word),
    (s.cfg.mode = .hw → exec (.sendWord w) s = exec (.sendWordHw w) s) ∧
    (s.cfg.mode = .sw → exec (.sendWord w) s = exec (.sendWordSw w) s) ∧
    (Ready s → ∃ t, exec (.sendWord w) s = .next t ∧ Transmitted s t [w] ∧ SameCore s t ∧ t.result = .none ∧
      (s.cfg.wf = true → WireIdle s → s.linkSound = true → ChipTook s t w))

/-- 41_transport.md R142 (a), (b) and (c): two handles that differ only in their strategy, and in the
peripheral reference that goes with it (60_exceptions.md R200), put the same pin events on the
wire for a word; from an idle wire the receiver latches exactly it, having seen its bits most significant first. -/
def Obligations.BothStrategiesPutTheSameWordOnTheWire : Prop :=
  ∀ (s : State) (w : Word) (p : Nat), Ready s →
    ∃ t u : State,
      exec (.sendWordSw w) { s with cfg := { s.cfg with mode := .sw, spiPeripheral := none } } = .next t ∧
      exec (.sendWordHw w) { s with cfg := { s.cfg with mode := .hw, spiPeripheral := some p } } = .next u ∧
      pinTrace t.trace = pinTrace u.trace ∧ t.rx = u.rx ∧
      (WireIdle s → t.rx.out = s.rx.out ++ [.word w] ∧
        t.rx.sr = [w.getLsbD 15, w.getLsbD 14, w.getLsbD 13, w.getLsbD 12, w.getLsbD 11, w.getLsbD 10, w.getLsbD 9,
          w.getLsbD 8, w.getLsbD 7, w.getLsbD 6, w.getLsbD 5, w.getLsbD 4, w.getLsbD 3, w.getLsbD 2, w.getLsbD 1,
          w.getLsbD 0]) ∧
      (WireIdle s → s.linkSound = true → t.mem = u.mem)

/-- 41_transport.md R145: from the start of a transfer, the machine's small steps leave the state that `State.sendWordSw`
(R138) leaves at once, in 50 or 66 steps; the instruction SEND_WORD_SW hands back no result besides. The position register
is the spec's own choice (D16). -/
def Obligations.FramerStepsMakeUpOneWord : Prop :=
  ∀ (s : State) (w : Word), s.cfg.wf = true → s.cfg.mode = .sw → s.seq = .idle → Free s → s.interrupted = false →
    Sys2Proof.core.run (if s.cfg.hasMiso then 66 else 50) (s.startTransfer w) = .next (s.sendWordSw w)

/-! ## Calls that do not return -/

/-- 70_reset_and_hazards.md R226, 93_implementation_defined.md U6: with `n` calls of the interface to return, SEND_WORD_SW
makes the first `n` of its events and then hangs: chip-select stays low, no word is latched, nothing is handed back; with
calls enough it completes. Which calls can hang is the model's choice (log entry 8). -/
def Obligations.AHangingCallCutsTheWordShort : Prop :=
  ∀ (s : State) (w : Word) (n : Nat), s.seq = .idle → s.blocked = false → s.init = true → s.cfg.mode = .sw →
    s.returns = some n →
    ∃ t u : State, exec (.sendWordSw w) s = .next t ∧ exec (.sendWordSw w) { s with returns := none } = .next u ∧
      (n < (if s.cfg.hasMiso then 66 else 50) →
        t.blocked = true ∧ t.returns = some 0 ∧ t.seq ≠ .idle ∧
        t.trace = u.trace.take (s.trace.length + n) ∧ t.trace.length = s.trace.length + n ∧
        (0 < n → t.csN = .low) ∧ t.rx.out = s.rx.out ∧
        t.cfg = s.cfg ∧ t.gainMirror = s.gainMirror ∧ t.statesMirror = s.statesMirror ∧ t.err = s.err ∧
        t.init = s.init ∧ t.result = .none ∧ t.inputs = s.inputs ∧
        (s.linkSound = true → ∀ a, readByte t.mem a = readByte s.mem a)) ∧
      ((if s.cfg.hasMiso then 66 else 50) ≤ n →
        t = { u with returns := some (n - (if s.cfg.hasMiso then 66 else 50)) })

/-- 70_reset_and_hazards.md R226 with 41_transport.md R145: where the word's `n`-th call is the last to return, the small
steps come after `n + 1` steps to the state, the framer's position included, in which `State.sendWordSw` is held (log entry
8). -/
def Obligations.TheFramerStopsWhereTheWordDoes : Prop :=
  ∀ (s : State) (w : Word) (n : Nat), s.cfg.wf = true → s.cfg.mode = .sw → s.seq = .idle → s.blocked = false →
    s.interrupted = false → s.returns = some n → n < (if s.cfg.hasMiso then 66 else 50) →
    Sys2Proof.core.run (n + 1) (s.startTransfer w) = .next (s.sendWordSw w)

/-- 70_reset_and_hazards.md R226: what an operation that does return leaves is what it leaves where every call returns. -/
def Obligations.WhatReturnsIsAsIfEveryCallDid : Prop :=
  ∀ (i : Instr) (s t : State), exec i s = .next t → t.blocked = false →
    exec i { s with returns := none } = .next { t with returns := none }

/-- 70_reset_and_hazards.md R226, 93_implementation_defined.md U6 ("not a final state"): once an operation hangs, the block
waits for good; no operation and no construction starts, and only its loss of power, which is a reset (60_exceptions.md
R203), ends the wait (log entries 5 and 18). -/
def Obligations.AHangingOperationEndsOnlyWithPower : Prop :=
  ∀ s : State, s.cfg.wf = true → s.blocked = true →
    (s.inputs = [] → step s = .next s) ∧
    (∀ i, isOperation i = true → exec i s = .refused .transferInProgress) ∧
    (∀ c rest, s.inputs = .construct c :: rest → step s = .refused .transferInProgress) ∧
    (∀ rest, s.inputs = .powerLoss :: rest → ∃ t, step s = .next t ∧ t.blocked = false ∧ t.seq = .idle) ∧
    (∀ t, step s = .next t → t.blocked = false → s.inputs.head? = some .powerLoss)

/-! ## The control words at the receiver -/

/-- 20_memory.md R56, 30_encoding.md R84 to R87 and R100 (the receiver is the spec's own rendering, D19): a word for this
chip replaces its register's content by its payload and changes nothing else. The link is one that can be trusted (20_memory.md
R64). -/
def Obligations.ControlWordReplacesItsRegister : Prop :=
  ∀ (s : State) (r : Reg) (payload : BitVec 12) (chip : BitVec 2),
    s.cfg.wf = true → s.seq = .idle → s.linkSound = true → chip.toNat = s.cfg.chipAddr →
    ∃ t, exec (wordInstr r payload chip) s = .next t ∧ t = { s with mem := t.mem } ∧
      ChipHolds s t [(r, payload.setWidth 16 <<< 4)]

/-- 20_memory.md R56, 30_encoding.md R100: a word for another chip is ignored. -/
def Obligations.ControlWordForAnotherChipIsIgnored : Prop :=
  ∀ (s : State) (r : Reg) (payload : BitVec 12) (chip : BitVec 2),
    s.cfg.wf = true → s.seq = .idle → s.linkSound = true → chip.toNat ≠ s.cfg.chipAddr →
    exec (wordInstr r payload chip) s = .next s

/-- The model's choice (log entry 9), where 60_exceptions.md R197 and 93_implementation_defined.md U8 claim nothing: over a
link that cannot be trusted a control word from elsewhere leaves each of the chip's four registers with some payload, and
changes nothing else but the counter of such free values. -/
def Obligations.ControlWordOverAnUnsoundLinkLeavesAnyPayload : Prop :=
  ∀ (s : State) (r : Reg) (payload : BitVec 12) (chip : BitVec 2),
    s.cfg.wf = true → s.seq = .idle → s.linkSound = false →
    ∃ t, exec (wordInstr r payload chip) s = .next t ∧ t = { s with mem := t.mem, upsets := s.upsets + 1 } ∧
      (∀ q, ∃ v, readRegister t.mem s.cfg q = some v ∧ v &&& 0x000F#16 = 0#16) ∧
      (∀ a, (∀ q, ¬ inRegister s.cfg q a) → readByte t.mem a = readByte s.mem a)

/-- The wire carries instructions: sending a control word over an idle, sound link leaves the chip as executing that word
at the receiver does (20_memory.md R52, R56; 41_transport.md R140, R141). That a control word is an instruction of the
receiver, beside the block's own, is the model's choice (log entry 13). -/
def Obligations.SendingAWordExecutesItAtTheReceiver : Prop :=
  ∀ (s : State) (r : Reg) (payload : BitVec 12) (chip : BitVec 2),
    Ready s → s.cfg.wf = true → WireIdle s → s.linkSound = true →
    ∃ t u : State,
      exec (.sendWord (controlWord s.cfg r payload chip)) s = .next t ∧
      exec (wordInstr r payload chip) s = .next u ∧ t.mem = u.mem

/-! ## The host operations -/

/-- 42_device_operations.md R161. The pin order and that chip-select is driven high are the spec's own choice (D12,
D13). -/
def Obligations.BeginDrivesTheIdleLevels : Prop :=
  ∀ s : State, s.seq = .idle → Free s →
    ∃ t, exec .beginOp s = .next t ∧ t.result = .bool true ∧ SameCore { s with init := true } t ∧ t.csN = .high ∧
      (s.cfg.mode = .sw → t.trace = s.trace ++ [.cs true, .sclk false, .mosi false] ∧ t.sclk = .low ∧ t.mosi = .low) ∧
      (s.cfg.mode = .hw → t.trace = s.trace ++ [.cs true] ∧ t.sclk = s.sclk ∧ t.mosi = s.mosi) ∧
      (WireIdle s → WireIdle t ∧ t.rx.out = s.rx.out ∧
        (s.linkSound = true → ∀ a, readByte t.mem a = readByte s.mem a))

/-- 42_device_operations.md R162, the accepted case. That the left word goes first is the spec's own choice (D11). -/
def Obligations.SetVolumeSendsTheTwoAttenuations : Prop :=
  ∀ (s : State) (l r : Int), s.cfg.wf = true → Ready s → -447 ≤ l → l ≤ 0 → -447 ≤ r → r ≤ 0 →
    ∃ t, exec (.setVolume l r) s = .next t ∧ t.result = .bool true ∧ SameCore s t ∧
      Transmitted s t
        [s.cfg.selAttL ||| chipField s.cfg ||| BitVec.ofInt 16 (4096 - 128 * l),
         s.cfg.selAttR ||| chipField s.cfg ||| BitVec.ofInt 16 (4096 - 128 * r)] ∧
      (WireIdle s → s.linkSound = true →
        ChipHolds s t [(.attL, BitVec.ofInt 16 (4096 - 128 * l)), (.attR, BitVec.ofInt 16 (4096 - 128 * r))])

/-- 42_device_operations.md R163, the accepted case. That the whole mirror is assigned is the spec's own choice (D6), and
the reading of negative values too (D7); for the `LINK` bit see log entry 12. -/
def Obligations.SetGainAssignsAndSendsTheMirror : Prop :=
  ∀ (s : State) (g : Int), Ready s → (s.cfg.gainRejectPositive = false ∨ g ≤ 0) →
    ∃ (t : State) (m : Word), m = BitVec.ofInt 16 (g * 4096) ||| BitVec.ofInt 16 (g * 512) ∧
      exec (.setGain g) s = .next t ∧ t.result = .bool true ∧ SameCore { s with gainMirror := m } t ∧
      zcNField t.gainMirror = false ∧ linkField t.gainMirror = decide (8 ≤ g % 16 ∨ 64 ≤ g % 128) ∧
      Transmitted s t [s.cfg.selGain ||| chipField s.cfg ||| m] ∧
      (s.cfg.wf = true → WireIdle s → s.linkSound = true → ChipHolds s t [(.gain, m)])

/-- 42_device_operations.md R164. That the left word goes first is the spec's own choice (D11). -/
def Obligations.MuteSendsPayloadZeroTwice : Prop :=
  ∀ s : State, Ready s →
    ∃ t, exec .mute s = .next t ∧ t.result = .none ∧ SameCore s t ∧
      Transmitted s t [s.cfg.selAttL ||| chipField s.cfg, s.cfg.selAttR ||| chipField s.cfg] ∧
      (s.cfg.wf = true → WireIdle s → s.linkSound = true →
        ChipHolds s t [(.attL, 0x0000#16), (.attR, 0x0000#16)])

/-- 42_device_operations.md R165. That the bit is set from the operand is the spec's own choice (D8). -/
def Obligations.SetZeroCrossingWritesBitEight : Prop :=
  ∀ (s : State) (e : Bool), Ready s →
    ∃ (t : State) (m : Word),
      (∀ j < 16, m.getLsbD j = if j = 8 then (if e then false else true) else s.gainMirror.getLsbD j) ∧
      exec (.setZeroCrossing e) s = .next t ∧ t.result = .none ∧ SameCore { s with gainMirror := m } t ∧
      Transmitted s t [s.cfg.selGain ||| chipField s.cfg ||| m] ∧
      (s.cfg.wf = true → WireIdle s → s.linkSound = true → s.gainMirror &&& 0x000F#16 = 0#16 →
        ChipHolds s t [(.gain, m)])

/-- 42_device_operations.md R166. That the bit is set from the operand is the spec's own choice (D8). -/
def Obligations.SetExternalClockWritesBitNine : Prop :=
  ∀ (s : State) (e : Bool), Ready s →
    ∃ (t : State) (m : Word),
      (∀ j < 16, m.getLsbD j = if j = 9 then (if e then false else true) else s.statesMirror.getLsbD j) ∧
      exec (.setExternalClock e) s = .next t ∧ t.result = .none ∧ SameCore { s with statesMirror := m } t ∧
      Transmitted s t [s.cfg.selStates ||| chipField s.cfg ||| m] ∧
      (s.cfg.wf = true → WireIdle s → s.linkSound = true → s.statesMirror &&& 0x000F#16 = 0#16 →
        ChipHolds s t [(.states, m)])

/-- 42_device_operations.md R167. That the bit is set from the operand is the spec's own choice (D8). -/
def Obligations.SetLinkChannelsWritesBitFifteen : Prop :=
  ∀ (s : State) (e : Bool), Ready s →
    ∃ (t : State) (m : Word),
      (∀ j < 16, m.getLsbD j = if j = 15 then (if e then true else false) else s.gainMirror.getLsbD j) ∧
      exec (.setLinkChannels e) s = .next t ∧ t.result = .none ∧ SameCore { s with gainMirror := m } t ∧
      Transmitted s t [s.cfg.selGain ||| chipField s.cfg ||| m] ∧
      (s.cfg.wf = true → WireIdle s → s.linkSound = true → s.gainMirror &&& 0x000F#16 = 0#16 →
        ChipHolds s t [(.gain, m)])

/-- 42_device_operations.md R168 with the codes of 10_state.md R28 and 60_exceptions.md R192: before BEGIN too, and where calls
have ceased to return; the query clears nothing (the codes and that are the spec's own choice, D10). -/
def Obligations.GetStatusHandsBackTheStickyError : Prop :=
  ∀ s : State, s.seq = .idle → s.blocked = false →
    exec .getStatus s = .next { s with result := .status (if s.err = .ok then 0 else 1) }

/-- 60_exceptions.md R193, for both causes of R191: the error register is set, nothing is sent, the mirror is unchanged,
the result is `false`. -/
def Obligations.RaisingValueErrorHasThreeEffects : Prop :=
  ∀ s : State, s.cfg.wf = true → s.seq = .idle → s.blocked = false → s.init = true →
    (∀ l r : Int, (l < -447 ∨ 0 < l ∨ r < -447 ∨ 0 < r) →
      exec (.setVolume l r) s = .next { s with err := .valueError, result := .bool false }) ∧
    (∀ g : Int, s.cfg.gainRejectPositive = true → 0 < g →
      exec (.setGain g) s = .next { s with err := .valueError, result := .bool false })

/-- 60_exceptions.md R191: an operation that completes answers `false` exactly on one of the two causes, and then the error
register is set; nothing else changes the error register. -/
def Obligations.ErrorCausesAreExactlyTwo : Prop :=
  ∀ (i : Instr) (s t : State), s.cfg.wf = true → exec i s = .next t →
    ((isOperation i = true ∧ t.result = .bool false) ↔
      ((∃ l r : Int, i = .setVolume l r ∧ (l < -447 ∨ 0 < l ∨ r < -447 ∨ 0 < r)) ∨
       (∃ g : Int, i = .setGain g ∧ 0 < g ∧ s.cfg.gainRejectPositive = true))) ∧
    ((isOperation i = true ∧ t.result = .bool false) → t.err = .valueError) ∧
    (t.err ≠ s.err → isOperation i = true ∧ t.result = .bool false)

/-- 10_state.md R21, R22, R28, R30 and R38: who may write the mirrors, the error register and the initialised flag; the
error is sticky and the flag is never cleared (the spec's own choices, D10 and D13). -/
def Obligations.EachRegisterHasOnlyItsWriters : Prop :=
  ∀ (i : Instr) (s t : State), exec i s = .next t →
    (t.gainMirror ≠ s.gainMirror →
      (∃ g, i = .setGain g) ∨ (∃ e, i = .setZeroCrossing e) ∨ (∃ e, i = .setLinkChannels e)) ∧
    (t.statesMirror ≠ s.statesMirror → ∃ e, i = .setExternalClock e) ∧
    (t.err ≠ s.err → (∃ l r, i = .setVolume l r) ∨ (∃ g, i = .setGain g)) ∧
    (s.err = .valueError → t.err = .valueError) ∧
    (t.init ≠ s.init → i = .beginOp ∧ t.init = true)

/-- 10_state.md R31 and R35: no instruction changes the configuration, and the wire trace and the device view only grow; no
instruction touches the pending inputs or the link, and the framer's position moves only where a call hangs (R226). -/
def Obligations.ConfigurationIsFixedAndTheTraceGrows : Prop :=
  ∀ (i : Instr) (s t : State), exec i s = .next t →
    t.cfg = s.cfg ∧ s.trace <+: t.trace ∧ s.rx.out <+: t.rx.out ∧ t.inputs = s.inputs ∧ t.linkSound = s.linkSound ∧
    (t.blocked = false → t.seq = s.seq)

/-- 20_memory.md R50, R51: whatever the instruction and the link, no byte changes outside the four registers of the
handle's chip. For an untrusted link, where R64, R225 and U8 claim nothing of any chip, that the other chips' registers stay
is the model's choice (log entries 2 and 3). -/
def Obligations.OnlyTheChipsFourRegistersChange : Prop :=
  ∀ (i : Instr) (s t : State), exec i s = .next t →
    ∀ a, (∀ r, ¬ inRegister s.cfg r a) → readByte t.mem a = readByte s.mem a

/-! ## Whole-machine rules -/

/-- 40_encoder.md R119 (the spec marks it as derived): every word an operation sends carries the chip address, the select
constant of a register the operation sends to, and the payload it sends there, and no two parts share a bit. -/
def Obligations.EveryWordSentHasDisjointParts : Prop :=
  ∀ (i : Instr) (s t : State), Invariant s → isOperation i = true → exec i s = .next t →
    ∀ w, Latched.word w ∈ t.rx.out.drop s.rx.out.length →
      w &&& 0x0003#16 = chipField s.cfg ∧
      ∃ p ∈ payloads t i, w &&& 0x000C#16 = selConst s.cfg p.1 ∧ w &&& 0xFFF0#16 = p.2 ∧
        w = selConst s.cfg p.1 ||| chipField s.cfg ||| p.2

/-- 30_encoding.md R84 to R88 and R95 (the mirrors' reset values are the spec's own choice, D9, hence the premise on them):
the zero fields of the four formats are zero in every word an operation sends. -/
def Obligations.WordsSentKeepTheFormatsZeroFields : Prop :=
  ∀ (i : Instr) (s t : State), Invariant s → MirrorsTame s → isOperation i = true → exec i s = .next t →
    ∀ w, Latched.word w ∈ t.rx.out.drop s.rx.out.length →
      (w &&& 0x000C#16 = s.cfg.selAttL → w &&& 0x0070#16 = 0#16) ∧
      (w &&& 0x000C#16 = s.cfg.selAttR → w &&& 0x0070#16 = 0#16) ∧
      (w &&& 0x000C#16 = s.cfg.selGain → w &&& 0x00F0#16 = 0#16) ∧
      (w &&& 0x000C#16 = s.cfg.selStates → w &&& 0xFDF0#16 = 0#16)

/-- 10_state.md R27, as an invariant of the operations: each mirror is the payload of the last word sent with its
register's select constant, once there is one. It is asked of operations that return (70_reset_and_hazards.md R226). -/
def Obligations.MirrorsShowTheLastWordSent : Prop :=
  ∀ (i : Instr) (s t : State), Invariant s → MirrorsShown s → isOperation i = true → exec i s = .next t →
    t.blocked = false → MirrorsShown t

/-- 42_device_operations.md R171 (e) (the spec marks it as derived). -/
def Obligations.UnusedMirrorBitsStayClear : Prop :=
  ∀ (i : Instr) (s t : State), MirrorsTame s → exec i s = .next t → MirrorsTame t

/-- 42_device_operations.md R171 (d) (the spec marks the laws as derived): how many words each operation that
returns sends. -/
def Obligations.TransfersPerOperationAreFixed : Prop :=
  ∀ (i : Instr) (s t : State), WireIdle s → exec i s = .next t → t.blocked = false →
    (i = .beginOp → t.rx.out.length = s.rx.out.length) ∧
    ((∃ l r, i = .setVolume l r) →
      (t.result = .bool true ∧ t.rx.out.length = s.rx.out.length + 2) ∨
      (t.result = .bool false ∧ t.rx.out.length = s.rx.out.length)) ∧
    ((∃ g, i = .setGain g) →
      (t.result = .bool true ∧ t.rx.out.length = s.rx.out.length + 1) ∨
      (t.result = .bool false ∧ t.rx.out.length = s.rx.out.length)) ∧
    (i = .mute → t.rx.out.length = s.rx.out.length + 2) ∧
    ((∃ e, i = .setZeroCrossing e ∨ i = .setExternalClock e ∨ i = .setLinkChannels e) →
      t.rx.out.length = s.rx.out.length + 1) ∧
    (i = .getStatus → t.rx.out.length = s.rx.out.length)

/-- 42_device_operations.md R171 (b) (the spec marks the laws as derived; the set semantics is its own choice, D8): for each
feature operation, `F(e); F(not e); F(e)` leaves the mirrors as `F(e)` alone does, and `F(true); F(false)` restores them
exactly when the flag was disabled before. `x.2` says, by R115's polarities, when it is: `ZC_N` = 1, `CLK_INT` = 1,
`LINK` = 0. -/
def Obligations.FeatureTogglesRestoreTheMirrors : Prop :=
  ∀ x ∈ [((Instr.setZeroCrossing, fun s => s.gainMirror.getLsbD 8) : (Bool → Instr) × (State → Bool)),
      (Instr.setExternalClock, fun s => s.statesMirror.getLsbD 9),
      (Instr.setLinkChannels, fun s => !s.gainMirror.getLsbD 15)],
    (∀ (e : Bool) (s t u v : State), exec (x.1 e) s = .next t → exec (x.1 !e) t = .next u → exec (x.1 e) u = .next v →
      v.gainMirror = t.gainMirror ∧ v.statesMirror = t.statesMirror) ∧
    (∀ s t u : State, exec (x.1 true) s = .next t → exec (x.1 false) t = .next u →
      ((u.gainMirror = s.gainMirror ∧ u.statesMirror = s.statesMirror) ↔ x.2 s = true))

/-- The invariant at reset (10_state.md R37). -/
def Obligations.ResetStateHasTheInvariant : Prop :=
  Invariant State.reset ∧ MirrorsTame State.reset ∧ MirrorsShown State.reset

/-- The headline: whatever the host and the environment do next, a step keeps the invariant: the configuration legal, the
mirrors clear of the address bits (40_encoder.md R119), memory canonical and exactly the sixteen registers, the receiver
equal to R141's fold over the wire trace, no malformed bracket ever, and the peripheral's pins never driven by the block
(10_state.md R32); and, unless a call hangs (70_reset_and_hazards.md R226), the receiver idle, the pins idle after BEGIN
(41_transport.md R146) and undriven before. -/
def Obligations.EveryStepKeepsTheInvariant : Prop :=
  ∀ s t : State, Invariant s → step s = .next t → Invariant t

/-- 60_exceptions.md R197: the block cannot tell a broken link from a sound one: everything but the chip comes out
the same. -/
def Obligations.LinkFaultsDoNotReachTheBlock : Prop :=
  ∀ (i : Instr) (s t : State) (sound : Bool), exec i s = .next t →
    ∃ u, exec i { s with linkSound := sound } = .next u ∧
      u = { t with linkSound := sound, mem := u.mem, upsets := u.upsets }

/-- 41_transport.md R143: the data-in levels influence nothing: with other draws, the two runs differ at most in the
recorded samples and the draw counter; every other event, of the pins and of the transaction, is the same. -/
def Obligations.DataInLevelsInfluenceNothing : Prop :=
  ∀ (i : Instr) (s t : State) (n : Nat), exec i s = .next t →
    ∃ u, exec i { s with draws := n } = .next u ∧ withoutSamples u.trace = withoutSamples t.trace ∧
      u = { t with draws := u.draws, trace := u.trace }

/-! ## Where an instruction stops -/

/-- 42_device_operations.md R160: a sending operation, or a transport primitive, before BEGIN is refused (the spec's own
choice, D13; for the primitives log entry 11). -/
def Obligations.SendingBeforeBeginIsRefused : Prop :=
  ∀ s : State, s.seq = .idle → s.blocked = false → s.init = false →
    (∀ i, needsBegin i = true → exec i s = .refused .notBegun) ∧
    (∀ b : Byte, exec (.shiftByteSw b) s = .refused .notBegun ∧ exec (.shiftByteHw b) s = .refused .notBegun) ∧
    (∀ w : Word, exec (.sendWordSw w) s = .refused .notBegun ∧ exec (.sendWordHw w) s = .refused .notBegun ∧
      exec (.sendWord w) s = .refused .notBegun)

/-- 42_device_operations.md R160 and 93_implementation_defined.md U18: no operation or transport primitive starts inside a
transfer, nor after an operation that has not returned (70_reset_and_hazards.md R226; for the primitives log entry 11), and
no other word reaches the receiver inside a transfer (20_memory.md R64). -/
def Obligations.NothingStartsInsideATransfer : Prop :=
  ∀ s : State,
    ((s.seq ≠ .idle ∨ s.blocked = true) →
      (∀ i, isOperation i = true → exec i s = .refused .transferInProgress) ∧
      (∀ b : Byte, exec (.shiftByteSw b) s = .refused .transferInProgress ∧
        exec (.shiftByteHw b) s = .refused .transferInProgress) ∧
      (∀ w : Word, exec (.sendWordSw w) s = .refused .transferInProgress ∧
        exec (.sendWordHw w) s = .refused .transferInProgress ∧
        exec (.sendWord w) s = .refused .transferInProgress)) ∧
    (s.seq ≠ .idle → ∀ r p c, exec (wordInstr r p c) s = .refused .transferInProgress)

/-- 70_reset_and_hazards.md R226: where no call returns any more, an operation hangs at its first call, before any event; a
word to send holds the framer at its start (41_transport.md R145; the position register is the spec's own choice, D16); a
mirror is written before its word is sent (42_device_operations.md section 3); nothing is handed back. What makes no call
completes (R162, R168). The model's choices: that every call of the interface can hang, not a pin write alone (log entry 8);
and, since R145's table is the software strategy's, that a word of the hardware strategy, whose first call begins the
transaction, is held at that same start (log entry 15). -/
def Obligations.WithNoCallReturningOnlyCallersHang : Prop :=
  ∀ s : State, s.cfg.wf = true → s.seq = .idle → s.blocked = false → s.returns = some 0 →
    exec .beginOp s = .next { s with blocked := true, result := .none } ∧
    exec .getStatus s = .next { s with result := .status (if s.err = .ok then 0 else 1) } ∧
    (s.init = true →
      (∀ l r : Int, (l < -447 ∨ 0 < l ∨ r < -447 ∨ 0 < r) →
        exec (.setVolume l r) s = .next { s with err := .valueError, result := .bool false }) ∧
      (∀ l r : Int, -447 ≤ l → l ≤ 0 → -447 ≤ r → r ≤ 0 →
        exec (.setVolume l r) s = .next { s with
          blocked := true, result := .none,
          seq := .sending (s.cfg.selAttL ||| chipField s.cfg ||| BitVec.ofInt 16 (4096 - 128 * l)) 15 .assert }) ∧
      exec .mute s = .next { s with
        blocked := true, result := .none, seq := .sending (s.cfg.selAttL ||| chipField s.cfg) 15 .assert } ∧
      (∀ g : Int, (s.cfg.gainRejectPositive = false ∨ g ≤ 0) → ∀ m, m = gainCode g →
        exec (.setGain g) s = .next { s with
          gainMirror := m, blocked := true, result := .none,
          seq := .sending (s.cfg.selGain ||| chipField s.cfg ||| m) 15 .assert }) ∧
      (∀ (e : Bool) (m : Word),
        (m = setFeature .zeroCrossing e s.gainMirror → exec (.setZeroCrossing e) s = .next { s with
          gainMirror := m, blocked := true, result := .none,
          seq := .sending (s.cfg.selGain ||| chipField s.cfg ||| m) 15 .assert }) ∧
        (m = setFeature .link e s.gainMirror → exec (.setLinkChannels e) s = .next { s with
          gainMirror := m, blocked := true, result := .none,
          seq := .sending (s.cfg.selGain ||| chipField s.cfg ||| m) 15 .assert }) ∧
        (m = setFeature .externalClock e s.statesMirror → exec (.setExternalClock e) s = .next { s with
          statesMirror := m, blocked := true, result := .none,
          seq := .sending (s.cfg.selStates ||| chipField s.cfg ||| m) 15 .assert })) ∧
      (∀ w : Word, exec (.sendWord w) s = .next { s with
        blocked := true, result := .none, seq := .sending w 15 .assert }) ∧
      (∀ b : Byte, (s.cfg.mode = .sw → exec (.shiftByteSw b) s = .next { s with blocked := true, result := .none }) ∧
        (s.cfg.mode = .hw → exec (.shiftByteHw b) s = .next { s with blocked := true, result := .none })))

/-- 41_transport.md R133, R134 and 10_state.md R32: each strategy's own primitives need that strategy (log entry 11). -/
def Obligations.StrategyPrimitivesNeedTheirStrategy : Prop :=
  ∀ s : State, s.seq = .idle → s.blocked = false → s.init = true →
    (s.cfg.mode = .sw →
      (∀ b : Byte, exec (.shiftByteHw b) s = .refused .noPeripheral) ∧
      (∀ w : Word, exec (.sendWordHw w) s = .refused .noPeripheral)) ∧
    (s.cfg.mode = .hw →
      (∀ b : Byte, exec (.shiftByteSw b) s = .refused .peripheralOwnsPins) ∧
      (∀ w : Word, exec (.sendWordSw w) s = .refused .peripheralOwnsPins))

/-! ## Steps and encodings -/

/-- A step runs the decoded instruction: the next input, an encoded instruction, is taken off the list and executed, where no
transfer is going on (42_device_operations.md R160; the list is the model's, log entry 5). -/
def Obligations.StepRunsTheDecodedInstruction : Prop :=
  ∀ (s : State) (x : Issue) (rest : List Input) (i : Instr),
    s.cfg.wf = true → (s.seq = .idle ∨ s.blocked = true) → s.inputs = .issue x :: rest → decode s.cfg x = .ok i →
    step s = exec i { s with inputs := rest }

/-- With nothing to do the block waits (R160), and a transfer under way goes on by one line of 41_transport.md R145, unless
a call of it hangs (R226) or power is lost or calls cease to return now (log entry 5). -/
def Obligations.StepWaitsOrContinuesATransfer : Prop :=
  ∀ s : State, s.cfg.wf = true →
    ((s.seq = .idle ∨ s.blocked = true) → s.inputs = [] → step s = .next s) ∧
    (s.seq ≠ .idle → s.blocked = false → s.interrupted = false →
      (∀ t, framerStep s = some t → step s = .next t) ∧ (framerStep s = none → step s = .refused .noFramerStep))

/-- 70_reset_and_hazards.md R220, R221 and 10_state.md R37 (the reset values are the spec's own choice, D9, D10, D12, D13):
constructing a handle. `Config.wf` refuses also pin names, a `W_VAL`, clock numbers, a volume range and a peripheral
reference that R6 and R200 exclude and R220 does not name (log entry 16); that the receiver starts afresh is the model's
choice too (log entry 18). -/
def Obligations.ConstructionIsTheReset : Prop :=
  ∀ (s : State) (c : Config) (rest : List Input),
    s.cfg.wf = true → s.seq = .idle → s.blocked = false → s.inputs = .construct c :: rest →
    (c.wf = false → step s = .refused .illFormedConfig) ∧
    (c.wf = true → ∃ t, step s = .next t ∧ t.cfg = c ∧ t.gainMirror = c.mirrorResetGain ∧
      t.statesMirror = c.mirrorResetStates ∧ t.err = .ok ∧ t.init = false ∧ t.csN = .undriven ∧ t.sclk = .undriven ∧
      t.mosi = .undriven ∧ t.seq = .idle ∧ t.trace = [] ∧ t.rx = Receiver.start ∧ t.mem = s.mem ∧ t.inputs = rest)

/-- 60_exceptions.md R203 and 10_state.md R35: the block's power loss is a reset, at any time, inside a transfer and after an
operation that hangs too; a chip whose bracket was not open keeps its registers (70_reset_and_hazards.md R221). The chip's own
power loss, between operations, leaves the block alone and nothing known of the chip. The model's choices: the same
configuration again, the receiver afresh, any payload in a chip whose bracket was open (log entry 18), when the chip's loss is
taken (log entry 5), and that a register always has some payload (log entry 3). -/
def Obligations.PowerLossOfBlockAndOfChip : Prop :=
  ∀ (s : State) (rest : List Input), s.cfg.wf = true →
    (s.inputs = .powerLoss :: rest →
      ∃ t, step s = .next t ∧ t.cfg = s.cfg ∧ t.err = .ok ∧ t.init = false ∧ t.trace = [] ∧
        t.gainMirror = s.cfg.mirrorResetGain ∧ t.statesMirror = s.cfg.mirrorResetStates ∧ t.csN = .undriven ∧
        t.sclk = .undriven ∧ t.mosi = .undriven ∧ t.seq = .idle ∧ t.blocked = false ∧ t.rx = Receiver.start ∧
        t.inputs = rest ∧ (s.rx.cs = true → t.mem = s.mem) ∧
        (∀ a, (∀ r, ¬ inRegister s.cfg r a) → readByte t.mem a = readByte s.mem a)) ∧
    ((s.seq = .idle ∨ s.blocked = true) → s.inputs = .chipPowerLoss :: rest →
      ∃ t, step s = .next t ∧ t = { s with inputs := rest, mem := t.mem, upsets := s.upsets + 1 } ∧
        (∀ r, ∃ v, readRegister t.mem s.cfg r = some v ∧ v &&& 0x000F#16 = 0#16) ∧
        (∀ a, (∀ r, ¬ inRegister s.cfg r a) → readByte t.mem a = readByte s.mem a))

/-- Decode and encode agree, for every instruction that has an encoding (30_encoding.md R81, R98, R100; the command codes
are the spec's own choice, D1). -/
def Obligations.DecodeUndoesEncode : Prop :=
  ∀ (cfg : Config) (i : Instr) (x : Issue), cfg.wf = true → i.wf cfg = true → encode cfg i = some x →
    decode cfg x = .ok i

/-- The other direction, for control words: any two frames are exactly one control word, with no bit dropped
(30_encoding.md R80, R81, R100). -/
def Obligations.EveryTwoFramesAreOneControlWord : Prop :=
  ∀ (cfg : Config) (f1 f2 : Byte), cfg.wf = true →
    ∃ (r : Reg) (p : BitVec 12) (c : BitVec 2),
      decode cfg (.frames [f1, f2]) = .ok (wordInstr r p c) ∧
      encode cfg (wordInstr r p c) = some (.frames [f1, f2])

/-- What the decoder refuses: a bracket without exactly two frames (20_memory.md R55, 93_implementation_defined.md U13), and,
by the model's choice (log entry 10), a command one of whose ports that its operation reads has a pattern wider than `W_VAL`;
and nothing else. -/
def Obligations.DecoderRefusesExactlyMalformedInput : Prop :=
  ∀ cfg : Config, cfg.wf = true →
    (∀ fs : List Byte, decode cfg (.frames fs) = .error .malformedBracket ↔ fs.length ≠ 2) ∧
    (∀ fs : List Byte, fs.length = 2 → ∃ i, decode cfg (.frames fs) = .ok i) ∧
    (∀ p : CommandPort, portsFit cfg p → ∃ i, decode cfg (.command p) = .ok i ∧ i.wf cfg = true) ∧
    (∀ p : CommandPort, ¬ portsFit cfg p → decode cfg (.command p) = .error .portTooWide)

/-- Words written out from 30_encoding.md R84 to R87 and R98 and from 95_test_vectors.md (V-AS-2, V-AS-4, V-AS-5) decode to
what they stand for under `REF` (the spec's own choice, D3). -/
def Obligations.SampleWordsDecodeAsTheSpecPrints : Prop :=
  decodeTableWord 16 0x1000 = some (.attL 0x100#12 0#2) ∧
  decodeTableWord 16 0xEF84 = some (.attR 0xEF8#12 0#2) ∧
  decodeTableWord 16 0x7E0B = some (.gain 0x7E0#12 3#2) ∧
  decodeTableWord 16 0x020F = some (.states 0x020#12 3#2) ∧
  decodeTableWord 8 0 = some .beginOp ∧ decodeTableWord 8 3 = some .mute ∧ decodeTableWord 8 7 = some .getStatus
end

