-- ==== Sys2Proof/Laws/Words.lean ====
section
/-! SUPPORT. The bits of words: set_bit, frames, bit order on the wire, and the three disjoint parts of a control
word. -/

namespace Sys2Proof.Machine

/-- Two words agree when each of their sixteen bits does. -/
theorem word_ext {v w : Word} (h : ∀ i < 16, v.getLsbD i = w.getLsbD i) : v = w :=
  BitVec.eq_of_getLsbD_eq fun i hi => h i hi

theorem getLsbD_setBit (w : Word) (i j : Nat) (b : Bool) (hj : j < 16) :
    (setBit w i b).getLsbD j = if j = i then b else w.getLsbD j := by
  unfold setBit
  rcases Nat.lt_trichotomy j i with h | h | h
  · have : j ≠ i := by omega
    cases b <;> simp [hj, h, this]
  · subst h
    cases b <;> simp [hj]
  · have h1 : j ≠ i := by omega
    have h2 : ¬ j < i := by omega
    have h3 : j - i ≠ 0 := by omega
    cases b <;> simp [hj, h1, h2, h3]

theorem joinFrames_hi_lo (w : Word) : joinFrames (hi8 w) (lo8 w) = w := by
  apply word_ext
  intro i hi
  simp only [joinFrames, hi8, lo8, BitVec.getLsbD_append, BitVec.getLsbD_extractLsb']
  split
  · rename_i h; simp [h]
  · rename_i h
    have : i - 8 < 8 := by omega
    have h2 : 8 + (i - 8) = i := by omega
    simp [this, h2]

theorem hi8_joinFrames (h l : Byte) : hi8 (joinFrames h l) = h := by
  apply BitVec.eq_of_getLsbD_eq
  intro i hi
  simp only [joinFrames, hi8, BitVec.getLsbD_extractLsb', BitVec.getLsbD_append]
  simp [hi]

theorem lo8_joinFrames (h l : Byte) : lo8 (joinFrames h l) = l := by
  apply BitVec.eq_of_getLsbD_eq
  intro i hi
  simp only [joinFrames, lo8, BitVec.getLsbD_extractLsb', BitVec.getLsbD_append]
  simp [hi]

/-- The bits on the wire, written out. -/
theorem msbBits_byte (b : Byte) :
    msbBits b = [b.getLsbD 7, b.getLsbD 6, b.getLsbD 5, b.getLsbD 4, b.getLsbD 3, b.getLsbD 2, b.getLsbD 1,
      b.getLsbD 0] := by
  simp [msbBits, List.range, List.range.loop, BitVec.getMsbD]

theorem bytePinEvents_eq (b : Byte) : bytePinEvents b = (msbBits b).flatMap bitPinEvents := by
  rw [msbBits_byte]; rfl

theorem msbBits_length (b : Byte) : (msbBits b).length = 8 := by simp [msbBits]

/-- The receiver's word is the one sent: `word(sr)` undoes the order of the wire (41_transport.md R141, R142 c). -/
theorem wordOfBits_msbBits (w : Word) : wordOfBits (msbBits (hi8 w) ++ msbBits (lo8 w)) = w := by
  apply word_ext
  intro i hi
  rw [msbBits_byte, msbBits_byte]
  simp only [wordOfBits, hi8, lo8, BitVec.getLsbD_extractLsb', List.cons_append, List.nil_append, List.foldl]
  have hb : ∀ b : Bool, ∀ k, (if b then 1#16 else 0#16).getLsbD k = (decide (k = 0) && b) := by
    intro b k; cases b <;> simp [BitVec.getLsbD_one]
  simp only [BitVec.getLsbD_or, BitVec.getLsbD_shiftLeft, hb]
  interval_cases i <;> simp

theorem lo8_getLsbD_zero (w : Word) : (lo8 w).getLsbD 0 = w.getLsbD 0 := by
  simp [lo8]

/-! The parts of a control word under a well-formed configuration (30_encoding.md R82). -/

theorem wf_chipAddr {cfg : Config} (h : cfg.wf = true) : cfg.chipAddr ≤ 3 := by
  simp only [Config.wf, Bool.and_eq_true, Config.chipAddrOk, decide_eq_true_eq] at h
  omega

/-- The volume range is the fixed one (00_scope.md R6). -/
theorem wf_volume {cfg : Config} (h : cfg.wf = true) : cfg.volMin = -447 ∧ cfg.volMax = 0 := by
  simp only [Config.wf, Bool.and_eq_true, Config.volumeOk, decide_eq_true_eq] at h
  exact h.1.2

/-- A word with no bit outside [3:2] is one of four. -/
theorem select_cases (c : Word) (h1 : c &&& 0x0003#16 = 0#16) (h2 : c &&& 0xFFF0#16 = 0#16) :
    c = 0x0000#16 ∨ c = 0x0004#16 ∨ c = 0x0008#16 ∨ c = 0x000C#16 := by
  have hc : c = (if c.getLsbD 2 then 4#16 else 0#16) ||| (if c.getLsbD 3 then 8#16 else 0#16) := by
    apply word_ext
    intro i hi
    have e1 := congrArg (fun v : Word => v.getLsbD i) h1
    have e2 := congrArg (fun v : Word => v.getLsbD i) h2
    simp only [BitVec.getLsbD_and, BitVec.getLsbD_zero] at e1 e2
    rw [BitVec.getLsbD_or]
    interval_cases i <;> simp_all <;> (split <;> split <;> simp_all)
  rw [hc]
  split <;> split <;> simp

theorem selConst_cases {cfg : Config} (h : cfg.wf = true) (r : Reg) :
    selConst cfg r = 0x0000#16 ∨ selConst cfg r = 0x0004#16 ∨ selConst cfg r = 0x0008#16 ∨
      selConst cfg r = 0x000C#16 := by
  simp only [Config.wf, Bool.and_eq_true, Config.selAvoidsChip, Config.selAvoidsPayload, List.all_cons, List.all_nil,
    decide_eq_true_eq] at h
  obtain ⟨⟨⟨⟨⟨⟨⟨⟨⟨-, a1, a2, a3, a4, -⟩, -⟩, b1, b2, b3, b4, -⟩, -⟩, -⟩, -⟩, -⟩, -⟩, -⟩ := h
  cases r
  · exact select_cases _ a1 b1
  · exact select_cases _ a2 b2
  · exact select_cases _ a3 b3
  · exact select_cases _ a4 b4

theorem selConst_injective {cfg : Config} (h : cfg.wf = true) {r q : Reg} (e : selConst cfg r = selConst cfg q) :
    r = q := by
  simp only [Config.wf, Bool.and_eq_true, Config.selDistinct, decide_eq_true_eq] at h
  obtain ⟨⟨⟨⟨⟨⟨⟨⟨-, d⟩, -⟩, -⟩, -⟩, -⟩, -⟩, -⟩, -⟩ := h
  obtain ⟨d1, d2, d3, d4, d5, d6⟩ := d
  cases r <;> cases q <;> simp_all [selConst]

theorem chipField_cases {cfg : Config} (h : cfg.wf = true) :
    chipField cfg = 0#16 ∨ chipField cfg = 1#16 ∨ chipField cfg = 2#16 ∨ chipField cfg = 3#16 := by
  have := wf_chipAddr h
  have : cfg.chipAddr = 0 ∨ cfg.chipAddr = 1 ∨ cfg.chipAddr = 2 ∨ cfg.chipAddr = 3 := by omega
  unfold chipField
  rcases this with e | e | e | e <;> simp [e]

/-- A payload has its low four bits clear (40_encoder.md R119). -/
theorem payload_bits {p : Word} (hp : p &&& 0x000F#16 = 0#16) :
    p &&& 0x0003#16 = 0#16 ∧ p &&& 0x000C#16 = 0#16 ∧ p &&& 0xFFF0#16 = p := by
  have hb : ∀ i < 4, p.getLsbD i = false := by
    intro i hi
    have e := congrArg (fun v : Word => v.getLsbD i) hp
    simp only [BitVec.getLsbD_and, BitVec.getLsbD_zero] at e
    interval_cases i <;> simpa using e
  refine ⟨?_, ?_, ?_⟩ <;> apply word_ext <;> intro i hi <;> simp only [BitVec.getLsbD_and, BitVec.getLsbD_zero]
  · have := hb i
    interval_cases i <;> simp_all
  · have := hb i
    interval_cases i <;> simp_all
  · have := hb i
    interval_cases i <;> simp_all

/-- The three parts of an assembled word can be read back (R119). -/
theorem assemble_parts {cfg : Config} (h : cfg.wf = true) (r : Reg) {p : Word} (hp : p &&& 0x000F#16 = 0#16) :
    assemble cfg r p &&& 0x0003#16 = chipField cfg ∧ assemble cfg r p &&& 0x000C#16 = selConst cfg r ∧
      assemble cfg r p &&& 0xFFF0#16 = p := by
  obtain ⟨p1, p2, p3⟩ := payload_bits hp
  unfold assemble
  simp only [BitVec.and_comm _ (BitVec.ofNat _ _)] at *
  simp only [BitVec.and_or_distrib_left, p1, p2, p3]
  rcases selConst_cases h r with e | e | e | e <;> rcases chipField_cases h with f | f | f | f <;>
    simp [e, f]

theorem selectedReg_of_select {cfg : Config} (h : cfg.wf = true) {r : Reg} {w : Word}
    (e : w &&& 0x000C#16 = selConst cfg r) : selectedReg cfg w = some r := by
  have inj := @selConst_injective cfg h
  have n1 := @inj .attR .attL
  have n2 := @inj .gain .attL
  have n3 := @inj .gain .attR
  have n4 := @inj .states .attL
  have n5 := @inj .states .attR
  have n6 := @inj .states .gain
  unfold selectedReg
  rw [e]
  cases r <;> simp_all [selConst]

theorem selectedReg_assemble {cfg : Config} (h : cfg.wf = true) (r : Reg) {p : Word} (hp : p &&& 0x000F#16 = 0#16) :
    selectedReg cfg (assemble cfg r p) = some r :=
  selectedReg_of_select h (assemble_parts h r hp).2.1

/-- A control word is the or of its parts with the payload in bits [15:4] (30_encoding.md R80). -/
theorem payload_shift_clear (p : BitVec 12) : (p.setWidth 16 <<< 4 : Word) &&& 0x000F#16 = 0#16 := by
  apply word_ext
  intro i hi
  simp only [BitVec.getLsbD_and, BitVec.getLsbD_shiftLeft, BitVec.getLsbD_zero]
  interval_cases i <;> simp

/-- The three parts of a control word can be read back. -/
theorem controlWord_parts {cfg : Config} (h : cfg.wf = true) (r : Reg) (p : BitVec 12) (c : BitVec 2) :
    controlWord cfg r p c &&& 0x0003#16 = c.setWidth 16 ∧ controlWord cfg r p c &&& 0x000C#16 = selConst cfg r ∧
      controlWord cfg r p c &&& 0xFFF0#16 = p.setWidth 16 <<< 4 := by
  obtain ⟨p1, p2, p3⟩ := payload_bits (payload_shift_clear p)
  have hc : ∀ c : BitVec 2, (c.setWidth 16 : Word) &&& 3#16 = c.setWidth 16 ∧ (c.setWidth 16 : Word) &&& 0xC#16 = 0#16
      ∧ (c.setWidth 16 : Word) &&& 0xFFF0#16 = 0#16 := by decide
  obtain ⟨c1, c2, c3⟩ := hc c
  unfold controlWord
  simp only [BitVec.and_comm _ (BitVec.ofNat _ _)] at *
  simp only [BitVec.and_or_distrib_left, p1, p2, p3, c1, c2, c3]
  rcases selConst_cases h r with e | e | e | e <;> simp [e]

theorem chipBits_eq (w : Word) : (chipBits w).setWidth 16 = w &&& 0x0003#16 := by
  apply word_ext
  intro i hi
  simp only [chipBits, BitVec.getLsbD_setWidth, BitVec.getLsbD_extractLsb', BitVec.getLsbD_and]
  interval_cases i <;> simp

theorem payloadField_eq (w : Word) : ((payloadField w).setWidth 16 <<< 4 : Word) = w &&& 0xFFF0#16 := by
  apply word_ext
  intro i hi
  simp only [payloadField, BitVec.getLsbD_shiftLeft, BitVec.getLsbD_setWidth, BitVec.getLsbD_extractLsb',
    BitVec.getLsbD_and]
  interval_cases i <;> simp

end Sys2Proof.Machine
end

