-- ==== Sys2Proof/Laws/Memory.lean ====
section
/-! SUPPORT. The device register space: read after write, the canonical form and the mapped range, kept by every memory
operation, and where the four registers of a chip lie. -/

namespace Sys2Proof.Machine

theorem readByte_writeByte (m : List Host.Cell) (a : Nat) (v : Byte) (b : Nat) :
    readByte (writeByte m a v) b = if b = a then some v else readByte m b := by
  induction m with
  | nil => simp [writeByte, readByte]
  | cons c m ih =>
    obtain ⟨k, x⟩ := c
    simp only [writeByte]
    split
    · simp [readByte]
    · split
      · rename_i h; subst h
        simp only [readByte]; split <;> simp_all
      · rename_i h1 h2
        simp only [readByte, ih]
        split
        · rename_i h; subst h; simp [Ne.symm h2]
        · rfl

/-- Writing a byte keeps the canonical form. -/
theorem memWf_writeByte (m : List Host.Cell) (a : Nat) (v : Byte) (h : memWf m = true) :
    memWf (writeByte m a v) = true := by
  induction m with
  | nil => rfl
  | cons c m ih =>
    obtain ⟨k, x⟩ := c
    simp only [writeByte]
    split
    · rename_i hlt; simp [memWf, hlt, h]
    · split
      · rename_i h2; subst h2
        cases m with
        | nil => rfl
        | cons d m => simpa [memWf] using h
      · rename_i h1 h2
        have hk : k < a := by omega
        cases m with
        | nil => simp [writeByte, memWf, hk]
        | cons d m =>
          obtain ⟨k2, y⟩ := d
          simp only [memWf, Bool.and_eq_true, decide_eq_true_eq] at h
          have ih' := ih h.2
          simp only [writeByte] at ih' ⊢
          split <;> rename_i h3
          · simp_all [memWf]
          · rw [if_neg h3] at ih'
            split <;> rename_i h4
            · simp_all [memWf]
            · simp_all [memWf]

/-- Writing a byte inside the mapped range stays inside it. -/
theorem mapped_writeByte {m : List Host.Cell} {a : Nat} (v : Byte) {n : Nat} (ha : a < n) (h : ∀ c ∈ m, c.1 < n) :
    ∀ c ∈ writeByte m a v, c.1 < n := by
  induction m with
  | nil => simpa [writeByte] using ha
  | cons d m ih =>
    obtain ⟨k, x⟩ := d
    simp only [List.mem_cons, forall_eq_or_imp] at h
    simp only [writeByte]
    split
    · simp only [List.mem_cons, forall_eq_or_imp]; exact ⟨ha, h.1, h.2⟩
    · split
      · simp only [List.mem_cons, forall_eq_or_imp]; exact ⟨ha, h.2⟩
      · simp only [List.mem_cons, forall_eq_or_imp]; exact ⟨h.1, ih h.2⟩

/-- A byte that holds a value still holds one after a write. -/
theorem isSome_readByte_writeByte (m : List Host.Cell) (a : Nat) (v : Byte) {b : Nat}
    (h : (readByte m b).isSome = true) : (readByte (writeByte m a v) b).isSome = true := by
  rw [readByte_writeByte]; split <;> simp [h]

/-! The register space at power-on. -/

theorem powerOnMem_wf : memWf powerOnMem = true := rfl

theorem powerOnMem_mapped : ∀ c ∈ powerOnMem, c.1 < 32 := by
  intro c hc
  simp only [powerOnMem, List.mem_flatMap, List.mem_range, List.mem_cons, List.not_mem_nil, or_false] at hc
  obtain ⟨k, hk, rfl | rfl⟩ := hc <;> simp only <;> omega

theorem powerOnMem_total : ∀ a < 32, (readByte powerOnMem a).isSome = true := by
  intro a ha
  interval_cases a <;> rfl

/-! Registers. -/

theorem regAddress_lt {cfg : Config} (h : cfg.wf = true) (r : Reg) : regAddress cfg r + 1 < 32 := by
  unfold regAddress
  rcases selConst_cases h r with e | e | e | e <;> rcases chipField_cases h with f | f | f | f <;> simp [e, f]

/-- Two registers have a byte in common only if they are one register. -/
theorem regAddress_separate {cfg : Config} (h : cfg.wf = true) {r q : Reg} {a : Nat} (hr : inRegister cfg r a)
    (hq : inRegister cfg q a) : r = q := by
  apply selConst_injective h
  unfold inRegister regAddress at hr hq
  rcases selConst_cases h r with e | e | e | e <;> rcases selConst_cases h q with e' | e' | e' | e' <;>
    rcases chipField_cases h with f | f | f | f <;> rw [e, f] at hr <;> rw [e', f] at hq <;>
    simp at hr hq <;> simp [e, e'] <;> omega

theorem readByte_writeRegister (m : List Host.Cell) (cfg : Config) (r : Reg) (w : Word) (a : Nat)
    (ha : ¬ inRegister cfg r a) : readByte (writeRegister m cfg r w) a = readByte m a := by
  simp only [inRegister, not_or] at ha
  simp [writeRegister, readByte_writeByte, ha.1, ha.2]

/-- A register reads as what was written to it. -/
theorem readRegister_writeRegister (m : List Host.Cell) (cfg : Config) (r : Reg) (w : Word) :
    readRegister (writeRegister m cfg r w) cfg r = some w := by
  simp [readRegister, writeRegister, readByte_writeByte, joinFrames_hi_lo]

theorem readRegister_congr {m n : List Host.Cell} {cfg : Config} {r : Reg}
    (h : ∀ a, inRegister cfg r a → readByte m a = readByte n a) : readRegister m cfg r = readRegister n cfg r := by
  simp [readRegister, h _ (Or.inl rfl), h _ (Or.inr rfl)]

/-- Writing one register leaves the others as they were. -/
theorem readRegister_writeRegister_ne {cfg : Config} (h : cfg.wf = true) (m : List Host.Cell) {r q : Reg} (w : Word)
    (hne : q ≠ r) : readRegister (writeRegister m cfg r w) cfg q = readRegister m cfg q :=
  readRegister_congr fun a ha => readByte_writeRegister m cfg r w a fun hr => hne (regAddress_separate h ha hr)

theorem memWf_writeRegister {m : List Host.Cell} (cfg : Config) (r : Reg) (w : Word) (h : memWf m = true) :
    memWf (writeRegister m cfg r w) = true :=
  memWf_writeByte _ _ _ (memWf_writeByte _ _ _ h)

theorem mapped_writeRegister {cfg : Config} (hc : cfg.wf = true) {m : List Host.Cell} (r : Reg) (w : Word)
    (h : ∀ c ∈ m, c.1 < 32) : ∀ c ∈ writeRegister m cfg r w, c.1 < 32 :=
  mapped_writeByte _ (regAddress_lt hc r) (mapped_writeByte _ (Nat.lt_of_succ_lt (regAddress_lt hc r)) h)

theorem total_writeRegister {m : List Host.Cell} (cfg : Config) (r : Reg) (w : Word) {a : Nat}
    (h : (readByte m a).isSome = true) : (readByte (writeRegister m cfg r w) a).isSome = true :=
  isSome_readByte_writeByte _ _ _ (isSome_readByte_writeByte _ _ _ h)

/-- All that a latched word can do to the register space. -/
theorem latchWord_cases (cfg : Config) (w : Word) (m : List Host.Cell) :
    latchWord cfg w m = m ∨ ∃ r, latchWord cfg w m = writeRegister m cfg r (w &&& 0xFFF0#16) := by
  unfold latchWord
  split
  · split
    · exact .inr ⟨_, rfl⟩
    · exact .inl rfl
  · exact .inl rfl

/-- A word for this chip replaces the register it selects. -/
theorem latchWord_hit {cfg : Config} (h : cfg.wf = true) {r : Reg} {w : Word} (m : List Host.Cell)
    (hc : w &&& 0x0003#16 = chipField cfg) (hs : w &&& 0x000C#16 = selConst cfg r) :
    latchWord cfg w m = writeRegister m cfg r (w &&& 0xFFF0#16) := by
  simp [latchWord, hc, selectedReg_of_select h hs]

/-- The word of a store replaces the content of its register by the payload. -/
theorem latchWord_assemble {cfg : Config} (h : cfg.wf = true) (r : Reg) {p : Word} (hp : p &&& 0x000F#16 = 0#16)
    (m : List Host.Cell) : latchWord cfg (assemble cfg r p) m = writeRegister m cfg r p := by
  obtain ⟨h1, h2, h3⟩ := assemble_parts h r hp
  rw [latchWord_hit h m h1 h2, h3]

theorem memWf_latchWord {m : List Host.Cell} (cfg : Config) (w : Word) (h : memWf m = true) :
    memWf (latchWord cfg w m) = true := by
  rcases latchWord_cases cfg w m with e | ⟨r, e⟩ <;> rw [e]
  · exact h
  · exact memWf_writeRegister cfg r _ h

theorem mapped_latchWord {cfg : Config} (hc : cfg.wf = true) (w : Word) {m : List Host.Cell}
    (h : ∀ c ∈ m, c.1 < 32) : ∀ c ∈ latchWord cfg w m, c.1 < 32 := by
  rcases latchWord_cases cfg w m with e | ⟨r, e⟩ <;> rw [e]
  · exact h
  · exact mapped_writeRegister hc r _ h

theorem total_latchWord (cfg : Config) (w : Word) {m : List Host.Cell} {a : Nat}
    (h : (readByte m a).isSome = true) : (readByte (latchWord cfg w m) a).isSome = true := by
  rcases latchWord_cases cfg w m with e | ⟨r, e⟩ <;> rw [e]
  · exact h
  · exact total_writeRegister cfg r _ h

theorem readByte_latchWord (cfg : Config) (w : Word) (m : List Host.Cell) (a : Nat)
    (ha : ∀ r, ¬ inRegister cfg r a) : readByte (latchWord cfg w m) a = readByte m a := by
  rcases latchWord_cases cfg w m with e | ⟨r, e⟩ <;> rw [e]
  exact readByte_writeRegister m cfg r _ a (ha r)

theorem memWf_upsetMem {m : List Host.Cell} (cfg : Config) (n : Nat) (h : memWf m = true) :
    memWf (upsetMem cfg n m) = true := by
  unfold upsetMem
  exact memWf_writeRegister _ _ _ (memWf_writeRegister _ _ _ (memWf_writeRegister _ _ _ (memWf_writeRegister _ _ _ h)))

theorem mapped_upsetMem {cfg : Config} (hc : cfg.wf = true) (n : Nat) {m : List Host.Cell}
    (h : ∀ c ∈ m, c.1 < 32) : ∀ c ∈ upsetMem cfg n m, c.1 < 32 := by
  unfold upsetMem
  exact mapped_writeRegister hc _ _ (mapped_writeRegister hc _ _ (mapped_writeRegister hc _ _
    (mapped_writeRegister hc _ _ h)))

theorem total_upsetMem (cfg : Config) (n : Nat) {m : List Host.Cell} {a : Nat}
    (h : (readByte m a).isSome = true) : (readByte (upsetMem cfg n m) a).isSome = true := by
  unfold upsetMem
  exact total_writeRegister _ _ _ (total_writeRegister _ _ _ (total_writeRegister _ _ _ (total_writeRegister _ _ _ h)))

theorem readByte_upsetMem (cfg : Config) (n : Nat) (m : List Host.Cell) (a : Nat) (ha : ∀ r, ¬ inRegister cfg r a) :
    readByte (upsetMem cfg n m) a = readByte m a := by
  unfold upsetMem
  simp only [readByte_writeRegister _ _ _ _ a (ha _)]

/-! The chip after one event. -/

theorem memWf_chipAfter (s : State) (e : Event) (h : memWf s.mem = true) : memWf (chipAfter s e) = true := by
  unfold chipAfter
  split
  · exact memWf_upsetMem _ _ h
  · split
    · exact memWf_latchWord _ _ h
    · exact h

theorem mapped_chipAfter (s : State) (e : Event) (hc : s.cfg.wf = true) (h : ∀ c ∈ s.mem, c.1 < 32) :
    ∀ c ∈ chipAfter s e, c.1 < 32 := by
  unfold chipAfter
  split
  · exact mapped_upsetMem hc _ h
  · split
    · exact mapped_latchWord hc _ h
    · exact h

theorem total_chipAfter (s : State) (e : Event) {a : Nat} (h : (readByte s.mem a).isSome = true) :
    (readByte (chipAfter s e) a).isSome = true := by
  unfold chipAfter
  split
  · exact total_upsetMem _ _ h
  · split
    · exact total_latchWord _ _ h
    · exact h

theorem readByte_chipAfter (s : State) (e : Event) (a : Nat) (ha : ∀ r, ¬ inRegister s.cfg r a) :
    readByte (chipAfter s e) a = readByte s.mem a := by
  unfold chipAfter
  split
  · exact readByte_upsetMem _ _ _ a ha
  · split
    · exact readByte_latchWord _ _ _ a ha
    · rfl

/-- An event that latches nothing leaves the chip of a sound link as it was. -/
theorem chipAfter_quiet (s : State) (e : Event) (hl : s.linkSound = true) (hn : s.rx.latches e = none) :
    chipAfter s e = s.mem := by
  simp [chipAfter, receptionUnknown, hl, hn]

/-- A latched word is all the chip of a sound link takes. -/
theorem chipAfter_word (s : State) (e : Event) {w : Word} (hl : s.linkSound = true)
    (hw : s.rx.latches e = some (.word w)) : chipAfter s e = latchWord s.cfg w s.mem := by
  simp [chipAfter, receptionUnknown, hl, hw]

end Sys2Proof.Machine
end

