-- ==== Sys2Proof/Laws/State.lean ====
section
/-! SUPPORT. Every field of the state after every update of Machine/Ops.lean, so that no later proof unfolds one. -/

namespace Sys2Proof.Machine.State

/-! `emit`, field by field. -/
@[simp] theorem emit_cfg (s : State) (e : Event) : (s.emit e).cfg = s.cfg := rfl
@[simp] theorem emit_gainMirror (s : State) (e : Event) : (s.emit e).gainMirror = s.gainMirror := rfl
@[simp] theorem emit_statesMirror (s : State) (e : Event) : (s.emit e).statesMirror = s.statesMirror := rfl
@[simp] theorem emit_err (s : State) (e : Event) : (s.emit e).err = s.err := rfl
@[simp] theorem emit_init (s : State) (e : Event) : (s.emit e).init = s.init := rfl
@[simp] theorem emit_csN (s : State) (e : Event) : (s.emit e).csN = s.csN := rfl
@[simp] theorem emit_sclk (s : State) (e : Event) : (s.emit e).sclk = s.sclk := rfl
@[simp] theorem emit_mosi (s : State) (e : Event) : (s.emit e).mosi = s.mosi := rfl
@[simp] theorem emit_seq (s : State) (e : Event) : (s.emit e).seq = s.seq := rfl
@[simp] theorem emit_trace (s : State) (e : Event) : (s.emit e).trace = s.trace ++ [e] := rfl
@[simp] theorem emit_rx (s : State) (e : Event) : (s.emit e).rx = s.rx.step e := rfl
@[simp] theorem emit_mem (s : State) (e : Event) : (s.emit e).mem = chipAfter s e := rfl
@[simp] theorem emit_result (s : State) (e : Event) : (s.emit e).result = s.result := rfl
@[simp] theorem emit_inputs (s : State) (e : Event) : (s.emit e).inputs = s.inputs := rfl
@[simp] theorem emit_draws (s : State) (e : Event) : (s.emit e).draws = s.draws := rfl
@[simp] theorem emit_upsets (s : State) (e : Event) : (s.emit e).upsets = s.upsets + (if receptionUnknown s e then 1 else 0) := rfl
@[simp] theorem emit_returns (s : State) (e : Event) : (s.emit e).returns = s.returns := rfl
@[simp] theorem emit_blocked (s : State) (e : Event) : (s.emit e).blocked = s.blocked := rfl
@[simp] theorem emit_linkSound (s : State) (e : Event) : (s.emit e).linkSound = s.linkSound := rfl


/-! `driveCs`, field by field. -/
@[simp] theorem driveCs_cfg (s : State) (l : Bool) : (s.drive .csN l).cfg = s.cfg := rfl
@[simp] theorem driveCs_gainMirror (s : State) (l : Bool) : (s.drive .csN l).gainMirror = s.gainMirror := rfl
@[simp] theorem driveCs_statesMirror (s : State) (l : Bool) : (s.drive .csN l).statesMirror = s.statesMirror := rfl
@[simp] theorem driveCs_err (s : State) (l : Bool) : (s.drive .csN l).err = s.err := rfl
@[simp] theorem driveCs_init (s : State) (l : Bool) : (s.drive .csN l).init = s.init := rfl
@[simp] theorem driveCs_csN (s : State) (l : Bool) : (s.drive .csN l).csN = levelOf l := rfl
@[simp] theorem driveCs_sclk (s : State) (l : Bool) : (s.drive .csN l).sclk = s.sclk := rfl
@[simp] theorem driveCs_mosi (s : State) (l : Bool) : (s.drive .csN l).mosi = s.mosi := rfl
@[simp] theorem driveCs_seq (s : State) (l : Bool) : (s.drive .csN l).seq = s.seq := rfl
@[simp] theorem driveCs_trace (s : State) (l : Bool) : (s.drive .csN l).trace = s.trace ++ [.cs l] := rfl
@[simp] theorem driveCs_rx (s : State) (l : Bool) : (s.drive .csN l).rx = s.rx.step (.cs l) := rfl
@[simp] theorem driveCs_mem (s : State) (l : Bool) : (s.drive .csN l).mem = chipAfter s (.cs l) := rfl
@[simp] theorem driveCs_result (s : State) (l : Bool) : (s.drive .csN l).result = s.result := rfl
@[simp] theorem driveCs_inputs (s : State) (l : Bool) : (s.drive .csN l).inputs = s.inputs := rfl
@[simp] theorem driveCs_draws (s : State) (l : Bool) : (s.drive .csN l).draws = s.draws := rfl
@[simp] theorem driveCs_upsets (s : State) (l : Bool) : (s.drive .csN l).upsets = s.upsets + (if receptionUnknown s (.cs l) then 1 else 0) := rfl
@[simp] theorem driveCs_returns (s : State) (l : Bool) : (s.drive .csN l).returns = s.returns := rfl
@[simp] theorem driveCs_blocked (s : State) (l : Bool) : (s.drive .csN l).blocked = s.blocked := rfl
@[simp] theorem driveCs_linkSound (s : State) (l : Bool) : (s.drive .csN l).linkSound = s.linkSound := rfl


/-! `driveClk`, field by field. -/
@[simp] theorem driveClk_cfg (s : State) (l : Bool) : (s.drive .sclk l).cfg = s.cfg := rfl
@[simp] theorem driveClk_gainMirror (s : State) (l : Bool) : (s.drive .sclk l).gainMirror = s.gainMirror := rfl
@[simp] theorem driveClk_statesMirror (s : State) (l : Bool) : (s.drive .sclk l).statesMirror = s.statesMirror := rfl
@[simp] theorem driveClk_err (s : State) (l : Bool) : (s.drive .sclk l).err = s.err := rfl
@[simp] theorem driveClk_init (s : State) (l : Bool) : (s.drive .sclk l).init = s.init := rfl
@[simp] theorem driveClk_csN (s : State) (l : Bool) : (s.drive .sclk l).csN = s.csN := rfl
@[simp] theorem driveClk_sclk (s : State) (l : Bool) : (s.drive .sclk l).sclk = levelOf l := rfl
@[simp] theorem driveClk_mosi (s : State) (l : Bool) : (s.drive .sclk l).mosi = s.mosi := rfl
@[simp] theorem driveClk_seq (s : State) (l : Bool) : (s.drive .sclk l).seq = s.seq := rfl
@[simp] theorem driveClk_trace (s : State) (l : Bool) : (s.drive .sclk l).trace = s.trace ++ [.sclk l] := rfl
@[simp] theorem driveClk_rx (s : State) (l : Bool) : (s.drive .sclk l).rx = s.rx.step (.sclk l) := rfl
@[simp] theorem driveClk_mem (s : State) (l : Bool) : (s.drive .sclk l).mem = chipAfter s (.sclk l) := rfl
@[simp] theorem driveClk_result (s : State) (l : Bool) : (s.drive .sclk l).result = s.result := rfl
@[simp] theorem driveClk_inputs (s : State) (l : Bool) : (s.drive .sclk l).inputs = s.inputs := rfl
@[simp] theorem driveClk_draws (s : State) (l : Bool) : (s.drive .sclk l).draws = s.draws := rfl
@[simp] theorem driveClk_upsets (s : State) (l : Bool) : (s.drive .sclk l).upsets = s.upsets + (if receptionUnknown s (.sclk l) then 1 else 0) := rfl
@[simp] theorem driveClk_returns (s : State) (l : Bool) : (s.drive .sclk l).returns = s.returns := rfl
@[simp] theorem driveClk_blocked (s : State) (l : Bool) : (s.drive .sclk l).blocked = s.blocked := rfl
@[simp] theorem driveClk_linkSound (s : State) (l : Bool) : (s.drive .sclk l).linkSound = s.linkSound := rfl


/-! `driveData`, field by field. -/
@[simp] theorem driveData_cfg (s : State) (l : Bool) : (s.drive .mosi l).cfg = s.cfg := rfl
@[simp] theorem driveData_gainMirror (s : State) (l : Bool) : (s.drive .mosi l).gainMirror = s.gainMirror := rfl
@[simp] theorem driveData_statesMirror (s : State) (l : Bool) : (s.drive .mosi l).statesMirror = s.statesMirror := rfl
@[simp] theorem driveData_err (s : State) (l : Bool) : (s.drive .mosi l).err = s.err := rfl
@[simp] theorem driveData_init (s : State) (l : Bool) : (s.drive .mosi l).init = s.init := rfl
@[simp] theorem driveData_csN (s : State) (l : Bool) : (s.drive .mosi l).csN = s.csN := rfl
@[simp] theorem driveData_sclk (s : State) (l : Bool) : (s.drive .mosi l).sclk = s.sclk := rfl
@[simp] theorem driveData_mosi (s : State) (l : Bool) : (s.drive .mosi l).mosi = levelOf l := rfl
@[simp] theorem driveData_seq (s : State) (l : Bool) : (s.drive .mosi l).seq = s.seq := rfl
@[simp] theorem driveData_trace (s : State) (l : Bool) : (s.drive .mosi l).trace = s.trace ++ [.mosi l] := rfl
@[simp] theorem driveData_rx (s : State) (l : Bool) : (s.drive .mosi l).rx = s.rx.step (.mosi l) := rfl
@[simp] theorem driveData_mem (s : State) (l : Bool) : (s.drive .mosi l).mem = chipAfter s (.mosi l) := rfl
@[simp] theorem driveData_result (s : State) (l : Bool) : (s.drive .mosi l).result = s.result := rfl
@[simp] theorem driveData_inputs (s : State) (l : Bool) : (s.drive .mosi l).inputs = s.inputs := rfl
@[simp] theorem driveData_draws (s : State) (l : Bool) : (s.drive .mosi l).draws = s.draws := rfl
@[simp] theorem driveData_upsets (s : State) (l : Bool) : (s.drive .mosi l).upsets = s.upsets + (if receptionUnknown s (.mosi l) then 1 else 0) := rfl
@[simp] theorem driveData_returns (s : State) (l : Bool) : (s.drive .mosi l).returns = s.returns := rfl
@[simp] theorem driveData_blocked (s : State) (l : Bool) : (s.drive .mosi l).blocked = s.blocked := rfl
@[simp] theorem driveData_linkSound (s : State) (l : Bool) : (s.drive .mosi l).linkSound = s.linkSound := rfl


/-! `sample`, field by field. -/
@[simp] theorem sample_cfg (s : State) : (s.sample).cfg = s.cfg := rfl
@[simp] theorem sample_gainMirror (s : State) : (s.sample).gainMirror = s.gainMirror := rfl
@[simp] theorem sample_statesMirror (s : State) : (s.sample).statesMirror = s.statesMirror := rfl
@[simp] theorem sample_err (s : State) : (s.sample).err = s.err := rfl
@[simp] theorem sample_init (s : State) : (s.sample).init = s.init := rfl
@[simp] theorem sample_csN (s : State) : (s.sample).csN = s.csN := rfl
@[simp] theorem sample_sclk (s : State) : (s.sample).sclk = s.sclk := rfl
@[simp] theorem sample_mosi (s : State) : (s.sample).mosi = s.mosi := rfl
@[simp] theorem sample_seq (s : State) : (s.sample).seq = s.seq := rfl
@[simp] theorem sample_trace (s : State) : (s.sample).trace = s.trace ++ [.sample (Config.dataIn s.draws)] := rfl
@[simp] theorem sample_rx (s : State) : (s.sample).rx = s.rx := rfl
@[simp] theorem sample_mem (s : State) : (s.sample).mem = chipAfter s (.sample (Config.dataIn s.draws)) := rfl
@[simp] theorem sample_result (s : State) : (s.sample).result = s.result := rfl
@[simp] theorem sample_inputs (s : State) : (s.sample).inputs = s.inputs := rfl
@[simp] theorem sample_draws (s : State) : (s.sample).draws = s.draws + 1 := rfl
@[simp] theorem sample_upsets (s : State) : (s.sample).upsets = s.upsets + (if receptionUnknown s (.sample (Config.dataIn s.draws)) then 1 else 0) := rfl
@[simp] theorem sample_returns (s : State) : (s.sample).returns = s.returns := rfl
@[simp] theorem sample_blocked (s : State) : (s.sample).blocked = s.blocked := rfl
@[simp] theorem sample_linkSound (s : State) : (s.sample).linkSound = s.linkSound := rfl


/-! `handBack`, field by field. -/
@[simp] theorem handBack_cfg (s : State) (r : Result) : (s.handBack r).cfg = s.cfg := rfl
@[simp] theorem handBack_gainMirror (s : State) (r : Result) : (s.handBack r).gainMirror = s.gainMirror := rfl
@[simp] theorem handBack_statesMirror (s : State) (r : Result) : (s.handBack r).statesMirror = s.statesMirror := rfl
@[simp] theorem handBack_err (s : State) (r : Result) : (s.handBack r).err = s.err := rfl
@[simp] theorem handBack_init (s : State) (r : Result) : (s.handBack r).init = s.init := rfl
@[simp] theorem handBack_csN (s : State) (r : Result) : (s.handBack r).csN = s.csN := rfl
@[simp] theorem handBack_sclk (s : State) (r : Result) : (s.handBack r).sclk = s.sclk := rfl
@[simp] theorem handBack_mosi (s : State) (r : Result) : (s.handBack r).mosi = s.mosi := rfl
@[simp] theorem handBack_seq (s : State) (r : Result) : (s.handBack r).seq = s.seq := rfl
@[simp] theorem handBack_trace (s : State) (r : Result) : (s.handBack r).trace = s.trace := rfl
@[simp] theorem handBack_rx (s : State) (r : Result) : (s.handBack r).rx = s.rx := rfl
@[simp] theorem handBack_mem (s : State) (r : Result) : (s.handBack r).mem = s.mem := rfl
@[simp] theorem handBack_result (s : State) (r : Result) : (s.handBack r).result = r := rfl
@[simp] theorem handBack_inputs (s : State) (r : Result) : (s.handBack r).inputs = s.inputs := rfl
@[simp] theorem handBack_draws (s : State) (r : Result) : (s.handBack r).draws = s.draws := rfl
@[simp] theorem handBack_upsets (s : State) (r : Result) : (s.handBack r).upsets = s.upsets := rfl
@[simp] theorem handBack_returns (s : State) (r : Result) : (s.handBack r).returns = s.returns := rfl
@[simp] theorem handBack_blocked (s : State) (r : Result) : (s.handBack r).blocked = s.blocked := rfl
@[simp] theorem handBack_linkSound (s : State) (r : Result) : (s.handBack r).linkSound = s.linkSound := rfl


/-! `raiseValueError`, field by field. -/
@[simp] theorem raiseValueError_cfg (s : State) : (s.raiseValueError).cfg = s.cfg := rfl
@[simp] theorem raiseValueError_gainMirror (s : State) : (s.raiseValueError).gainMirror = s.gainMirror := rfl
@[simp] theorem raiseValueError_statesMirror (s : State) : (s.raiseValueError).statesMirror = s.statesMirror := rfl
@[simp] theorem raiseValueError_err (s : State) : (s.raiseValueError).err = .valueError := rfl
@[simp] theorem raiseValueError_init (s : State) : (s.raiseValueError).init = s.init := rfl
@[simp] theorem raiseValueError_csN (s : State) : (s.raiseValueError).csN = s.csN := rfl
@[simp] theorem raiseValueError_sclk (s : State) : (s.raiseValueError).sclk = s.sclk := rfl
@[simp] theorem raiseValueError_mosi (s : State) : (s.raiseValueError).mosi = s.mosi := rfl
@[simp] theorem raiseValueError_seq (s : State) : (s.raiseValueError).seq = s.seq := rfl
@[simp] theorem raiseValueError_trace (s : State) : (s.raiseValueError).trace = s.trace := rfl
@[simp] theorem raiseValueError_rx (s : State) : (s.raiseValueError).rx = s.rx := rfl
@[simp] theorem raiseValueError_mem (s : State) : (s.raiseValueError).mem = s.mem := rfl
@[simp] theorem raiseValueError_result (s : State) : (s.raiseValueError).result = .bool false := rfl
@[simp] theorem raiseValueError_inputs (s : State) : (s.raiseValueError).inputs = s.inputs := rfl
@[simp] theorem raiseValueError_draws (s : State) : (s.raiseValueError).draws = s.draws := rfl
@[simp] theorem raiseValueError_upsets (s : State) : (s.raiseValueError).upsets = s.upsets := rfl
@[simp] theorem raiseValueError_returns (s : State) : (s.raiseValueError).returns = s.returns := rfl
@[simp] theorem raiseValueError_blocked (s : State) : (s.raiseValueError).blocked = s.blocked := rfl
@[simp] theorem raiseValueError_linkSound (s : State) : (s.raiseValueError).linkSound = s.linkSound := rfl


/-! `upset`, field by field. -/
@[simp] theorem upset_cfg (s : State) : (s.upset).cfg = s.cfg := rfl
@[simp] theorem upset_gainMirror (s : State) : (s.upset).gainMirror = s.gainMirror := rfl
@[simp] theorem upset_statesMirror (s : State) : (s.upset).statesMirror = s.statesMirror := rfl
@[simp] theorem upset_err (s : State) : (s.upset).err = s.err := rfl
@[simp] theorem upset_init (s : State) : (s.upset).init = s.init := rfl
@[simp] theorem upset_csN (s : State) : (s.upset).csN = s.csN := rfl
@[simp] theorem upset_sclk (s : State) : (s.upset).sclk = s.sclk := rfl
@[simp] theorem upset_mosi (s : State) : (s.upset).mosi = s.mosi := rfl
@[simp] theorem upset_seq (s : State) : (s.upset).seq = s.seq := rfl
@[simp] theorem upset_trace (s : State) : (s.upset).trace = s.trace := rfl
@[simp] theorem upset_rx (s : State) : (s.upset).rx = s.rx := rfl
@[simp] theorem upset_mem (s : State) : (s.upset).mem = upsetMem s.cfg s.upsets s.mem := rfl
@[simp] theorem upset_result (s : State) : (s.upset).result = s.result := rfl
@[simp] theorem upset_inputs (s : State) : (s.upset).inputs = s.inputs := rfl
@[simp] theorem upset_draws (s : State) : (s.upset).draws = s.draws := rfl
@[simp] theorem upset_upsets (s : State) : (s.upset).upsets = s.upsets + 1 := rfl
@[simp] theorem upset_returns (s : State) : (s.upset).returns = s.returns := rfl
@[simp] theorem upset_blocked (s : State) : (s.upset).blocked = s.blocked := rfl
@[simp] theorem upset_linkSound (s : State) : (s.upset).linkSound = s.linkSound := rfl


/-! `moveTo`, field by field. -/
@[simp] theorem moveTo_cfg (s : State) (p : Seq) : (s.moveTo p).cfg = s.cfg := rfl
@[simp] theorem moveTo_gainMirror (s : State) (p : Seq) : (s.moveTo p).gainMirror = s.gainMirror := rfl
@[simp] theorem moveTo_statesMirror (s : State) (p : Seq) : (s.moveTo p).statesMirror = s.statesMirror := rfl
@[simp] theorem moveTo_err (s : State) (p : Seq) : (s.moveTo p).err = s.err := rfl
@[simp] theorem moveTo_init (s : State) (p : Seq) : (s.moveTo p).init = s.init := rfl
@[simp] theorem moveTo_csN (s : State) (p : Seq) : (s.moveTo p).csN = s.csN := rfl
@[simp] theorem moveTo_sclk (s : State) (p : Seq) : (s.moveTo p).sclk = s.sclk := rfl
@[simp] theorem moveTo_mosi (s : State) (p : Seq) : (s.moveTo p).mosi = s.mosi := rfl
@[simp] theorem moveTo_seq (s : State) (p : Seq) : (s.moveTo p).seq = p := rfl
@[simp] theorem moveTo_trace (s : State) (p : Seq) : (s.moveTo p).trace = s.trace := rfl
@[simp] theorem moveTo_rx (s : State) (p : Seq) : (s.moveTo p).rx = s.rx := rfl
@[simp] theorem moveTo_mem (s : State) (p : Seq) : (s.moveTo p).mem = s.mem := rfl
@[simp] theorem moveTo_result (s : State) (p : Seq) : (s.moveTo p).result = s.result := rfl
@[simp] theorem moveTo_inputs (s : State) (p : Seq) : (s.moveTo p).inputs = s.inputs := rfl
@[simp] theorem moveTo_draws (s : State) (p : Seq) : (s.moveTo p).draws = s.draws := rfl
@[simp] theorem moveTo_upsets (s : State) (p : Seq) : (s.moveTo p).upsets = s.upsets := rfl
@[simp] theorem moveTo_returns (s : State) (p : Seq) : (s.moveTo p).returns = s.returns := rfl
@[simp] theorem moveTo_blocked (s : State) (p : Seq) : (s.moveTo p).blocked = s.blocked := rfl
@[simp] theorem moveTo_linkSound (s : State) (p : Seq) : (s.moveTo p).linkSound = s.linkSound := rfl


/-! `freshHandle`, field by field. -/
@[simp] theorem freshHandle_cfg (s : State) (c : Config) : (s.freshHandle c).cfg = c := rfl
@[simp] theorem freshHandle_gainMirror (s : State) (c : Config) : (s.freshHandle c).gainMirror = c.mirrorResetGain := rfl
@[simp] theorem freshHandle_statesMirror (s : State) (c : Config) : (s.freshHandle c).statesMirror = c.mirrorResetStates := rfl
@[simp] theorem freshHandle_err (s : State) (c : Config) : (s.freshHandle c).err = .ok := rfl
@[simp] theorem freshHandle_init (s : State) (c : Config) : (s.freshHandle c).init = false := rfl
@[simp] theorem freshHandle_csN (s : State) (c : Config) : (s.freshHandle c).csN = .undriven := rfl
@[simp] theorem freshHandle_sclk (s : State) (c : Config) : (s.freshHandle c).sclk = .undriven := rfl
@[simp] theorem freshHandle_mosi (s : State) (c : Config) : (s.freshHandle c).mosi = .undriven := rfl
@[simp] theorem freshHandle_seq (s : State) (c : Config) : (s.freshHandle c).seq = .idle := rfl
@[simp] theorem freshHandle_trace (s : State) (c : Config) : (s.freshHandle c).trace = [] := rfl
@[simp] theorem freshHandle_rx (s : State) (c : Config) : (s.freshHandle c).rx = Receiver.start := rfl
@[simp] theorem freshHandle_mem (s : State) (c : Config) : (s.freshHandle c).mem = s.mem := rfl
@[simp] theorem freshHandle_result (s : State) (c : Config) : (s.freshHandle c).result = .none := rfl
@[simp] theorem freshHandle_inputs (s : State) (c : Config) : (s.freshHandle c).inputs = s.inputs := rfl
@[simp] theorem freshHandle_draws (s : State) (c : Config) : (s.freshHandle c).draws = s.draws := rfl
@[simp] theorem freshHandle_upsets (s : State) (c : Config) : (s.freshHandle c).upsets = s.upsets := rfl
@[simp] theorem freshHandle_returns (s : State) (c : Config) : (s.freshHandle c).returns = s.returns := rfl
@[simp] theorem freshHandle_blocked (s : State) (c : Config) : (s.freshHandle c).blocked = false := rfl
@[simp] theorem freshHandle_linkSound (s : State) (c : Config) : (s.freshHandle c).linkSound = s.linkSound := rfl


end Sys2Proof.Machine.State
end

