-- ==== Sys2Proof/Laws/Calls.lean ====
section
/-! SUPPORT. The functions of the Transport as lists of calls of the capability interface (41_transport.md R130 to R134), and
what a list of calls does, said once: it is stuck, it runs, or it runs as far as calls return (70_reset_and_hazards.md
R226). -/

namespace Sys2Proof.Machine

/-- One call of the capability interface. -/
inductive Call
  | silent                         -- PinMode, SpiInit: no event
  | drive (p : Pin) (level : Bool) -- DigitalWrite
  | emit (e : Event)               -- an event of the peripheral
  | sample                         -- DigitalRead
deriving DecidableEq, Repr

/-- What the call does when it returns. -/
def Call.effect : Call → State → State
  | .silent => id
  | .drive p level => State.drive p level
  | .emit e => State.emit e
  | .sample => State.sample

/-- The pin events of the call. -/
def Call.pins : Call → List Event
  | .silent => []
  | .drive p level => [pinEvent p level]
  | .emit e => pinTrace [e]
  | .sample => []

/-- How many events the call appends. -/
def Call.events : Call → Nat
  | .silent => 0
  | .drive _ _ => 1
  | .emit _ => 1
  | .sample => 1

/-- Whether the call may end a bracket of chip-select. -/
def Call.releases : Call → Bool
  | .drive .csN true => true
  | .drive .csN false => false
  | .drive .sclk _ => false
  | .drive .mosi _ => false
  | .emit (.cs true) => true
  | .emit _ => false
  | .silent => false
  | .sample => false

/-- Whether the call writes a given pin register. -/
def Call.writes (q : Pin) : Call → Bool
  | .drive p _ => decide (p = q)
  | .silent => false
  | .emit _ => false
  | .sample => false

/-- The calls, each where calls return or not. -/
def State.calls (cs : List Call) (s : State) : State := cs.foldl (fun s c => s.call c.effect) s

/-- The effects of the calls, one after the other. -/
def State.effects (cs : List Call) (s : State) : State := cs.foldl (fun s c => c.effect s) s

/-- The state with another record of which calls return. -/
def State.hang (r : Option Nat) (b : Bool) (s : State) : State := { s with returns := r, blocked := b }

@[simp] theorem hang_hang (r q : Option Nat) (a b : Bool) (s : State) : (s.hang r a).hang q b = s.hang q b := rfl

@[simp] theorem hang_self (s : State) : s.hang s.returns s.blocked = s := rfl

@[simp] theorem calls_nil (s : State) : s.calls [] = s := rfl

@[simp] theorem effects_nil (s : State) : s.effects [] = s := rfl

theorem calls_cons (c : Call) (cs : List Call) (s : State) : s.calls (c :: cs) = (s.call c.effect).calls cs := rfl

theorem effects_cons (c : Call) (cs : List Call) (s : State) : s.effects (c :: cs) = (c.effect s).effects cs := rfl

theorem calls_append (cs ds : List Call) (s : State) : s.calls (cs ++ ds) = (s.calls cs).calls ds := by
  simp [State.calls, List.foldl_append]

theorem effects_append (cs ds : List Call) (s : State) : s.effects (cs ++ ds) = (s.effects cs).effects ds := by
  simp [State.effects, List.foldl_append]

/-! One call. -/

theorem call_blocked {f : State → State} {s : State} (h : s.blocked = true) : s.call f = s := by simp [State.call, h]

theorem call_free {f : State → State} {s : State} (h : Free s) : s.call f = f s := by
  simp [State.call, h.returns, h.running]

theorem call_zero {f : State → State} {s : State} (h : s.returns = some 0) (hb : s.blocked = false) :
    s.call f = s.hang (some 0) true := by
  unfold State.call State.hang
  simp [h, hb]

/-- An effect reads and writes neither how many calls return nor whether one hangs. -/
theorem effect_hang (c : Call) (s : State) (r : Option Nat) (b : Bool) :
    c.effect (s.hang r b) = (c.effect s).hang r b := by
  cases c with
  | silent => rfl
  | drive p l => cases p <;> rfl
  | emit e => rfl
  | sample => rfl

theorem effects_hang (cs : List Call) (s : State) (r : Option Nat) (b : Bool) :
    (s.hang r b).effects cs = (s.effects cs).hang r b := by
  induction cs generalizing s with
  | nil => rfl
  | cons c cs ih => rw [effects_cons, effect_hang, ih, effects_cons]

theorem effect_returns (c : Call) (s : State) : (c.effect s).returns = s.returns := by
  rw [show c.effect s = (c.effect s).hang s.returns s.blocked from effect_hang c s s.returns s.blocked]; rfl

theorem effect_running (c : Call) (s : State) : (c.effect s).blocked = s.blocked := by
  rw [show c.effect s = (c.effect s).hang s.returns s.blocked from effect_hang c s s.returns s.blocked]; rfl

theorem call_succ (c : Call) {s : State} {n : Nat} (h : s.returns = some (n + 1)) (hb : s.blocked = false) :
    s.call c.effect = (c.effect s).hang (some n) false := by
  have e : s.call c.effect = (c.effect s).hang (some n) (c.effect s).blocked := by simp [State.call, h, hb, State.hang]
  rw [e, effect_running, hb]

/-! A list of calls: the three things it can do. -/

theorem calls_blocked (cs : List Call) {s : State} (h : s.blocked = true) : s.calls cs = s := by
  induction cs with
  | nil => rfl
  | cons c cs ih => rw [calls_cons, call_blocked h, ih]

theorem effect_free (c : Call) {s : State} (h : Free s) : Free (c.effect s) :=
  ⟨(effect_returns c s).trans h.returns, (effect_running c s).trans h.running⟩

theorem calls_free (cs : List Call) {s : State} (h : Free s) : s.calls cs = s.effects cs := by
  induction cs generalizing s with
  | nil => rfl
  | cons c cs ih => rw [calls_cons, call_free h, ih (effect_free c h), effects_cons]

theorem effects_free (cs : List Call) {s : State} (h : Free s) : Free (s.effects cs) := by
  induction cs generalizing s with
  | nil => exact h
  | cons c cs ih => exact ih (effect_free c h)

/-- With `n` calls to return, the first `n` have their effect, and with a call more the block hangs. -/
theorem calls_count (cs : List Call) {s : State} {n : Nat} (h : s.returns = some n) (hb : s.blocked = false) :
    s.calls cs = if cs.length ≤ n then (s.effects cs).hang (some (n - cs.length)) false
      else (s.effects (cs.take n)).hang (some 0) true := by
  induction cs generalizing s n with
  | nil => simp [State.hang, ← h, ← hb]
  | cons c cs ih =>
    cases n with
    | zero => rw [if_neg (by simp), calls_cons, call_zero h hb, calls_blocked _ rfl]; rfl
    | succ n =>
      rw [calls_cons, call_succ c h hb, ih rfl rfl, List.length_cons, List.take_succ_cons, effects_cons]
      simp only [effects_hang, hang_hang, Nat.add_sub_add_right, Nat.add_le_add_iff_right, effects_cons]

/-- Where the calls have all returned, they have done what they do where every call returns. -/
theorem calls_returned {cs : List Call} {s : State} (h : (s.calls cs).blocked = false) :
    s.calls cs = (s.effects cs).hang (s.calls cs).returns false := by
  cases hb : s.blocked with
  | true => rw [calls_blocked cs hb, hb] at h; cases h
  | false =>
    cases hr : s.returns with
    | none =>
      have hf : Free s := ⟨hr, hb⟩
      have g := effects_free cs hf
      rw [calls_free cs hf]
      simp [State.hang, ← g.running]
    | some n =>
      have e := calls_count cs hr hb
      by_cases hl : cs.length ≤ n
      · rw [if_pos hl] at e; rw [e]; rfl
      · rw [if_neg hl] at e; rw [e] at h; cases h

/-- The calls that had an effect are the first ones. -/
theorem calls_prefix (cs : List Call) (s : State) :
    ∃ n, s.calls cs = (s.effects (cs.take n)).hang (s.calls cs).returns (s.calls cs).blocked := by
  cases hb : s.blocked with
  | true => exact ⟨0, by rw [calls_blocked cs hb]; rfl⟩
  | false =>
    cases hr : s.returns with
    | none => exact ⟨cs.length, by rw [calls_free cs ⟨hr, hb⟩, List.take_length]; rfl⟩
    | some n =>
      have e := calls_count cs hr hb
      by_cases hl : cs.length ≤ n
      · rw [if_pos hl] at e; exact ⟨cs.length, by rw [e, List.take_length]; rfl⟩
      · rw [if_neg hl] at e; exact ⟨n, by rw [e]; rfl⟩

/-! The Transport's functions as lists of calls. -/

/-- The read of one bit, where there is a data-in line. -/
def dataInCalls (cfg : Config) : List Call := if cfg.hasMiso then [.sample] else []

/-- One bit of the software strategy (R136). -/
def bitCallsSw (cfg : Config) (b : Bool) : List Call :=
  [.drive .mosi b, .drive .sclk true] ++ dataInCalls cfg ++ [.drive .sclk false]

/-- One bit of the peripheral (R134). -/
def bitCallsHw (cfg : Config) (b : Bool) : List Call :=
  [.emit (.mosi b), .emit (.sclk true)] ++ dataInCalls cfg ++ [.emit (.sclk false)]

/-- The sixteen bits of a word, in the order of the wire (20_memory.md R53, R54). -/
def wordBits (w : Word) : List Bool := msbBits (hi8 w) ++ msbBits (lo8 w)

/-- `SEND_WORD_SW(w)` (R138). -/
def wordCallsSw (cfg : Config) (w : Word) : List Call :=
  [.drive .csN false] ++ (wordBits w).flatMap (bitCallsSw cfg) ++ [.drive .csN true]

/-- `SEND_WORD_HW(w)` (R139). -/
def wordCallsHw (cfg : Config) (w : Word) : List Call :=
  [.emit .txnBegin, .drive .csN false] ++ (wordBits w).flatMap (bitCallsHw cfg) ++ [.drive .csN true, .emit .txnEnd]

/-- The pins of BEGIN (42_device_operations.md R161). -/
def beginCalls (cfg : Config) : List Call :=
  [.silent, .drive .csN true] ++
    match cfg.mode with
    | .sw => [.silent, .silent] ++ (if cfg.hasMiso then [.silent] else []) ++ [.drive .sclk false, .drive .mosi false]
    | .hw => [.silent]

theorem effect_cfg (c : Call) (s : State) : (c.effect s).cfg = s.cfg := by
  cases c with
  | silent => rfl
  | drive p l => cases p <;> rfl
  | emit e => rfl
  | sample => rfl

theorem call_cfg (c : Call) (s : State) : (s.call c.effect).cfg = s.cfg := by
  unfold State.call
  split
  · rfl
  · split
    · exact effect_cfg c s
    · rfl
    · exact effect_cfg c s

theorem calls_cfg (cs : List Call) (s : State) : (s.calls cs).cfg = s.cfg := by
  induction cs generalizing s with
  | nil => rfl
  | cons c cs ih => rw [calls_cons, ih, call_cfg]

theorem readDataIn_calls (s : State) : s.readDataIn = s.calls (dataInCalls s.cfg) := by
  unfold State.readDataIn dataInCalls
  split <;> rfl

theorem shiftBitSw_calls (s : State) (b : Bool) : s.shiftBitSw b = s.calls (bitCallsSw s.cfg b) := by
  have h := calls_cfg [.drive .mosi b, .drive .sclk true] s
  rw [bitCallsSw, calls_append, calls_append, ← h, ← readDataIn_calls]
  rfl

theorem shiftBitHw_calls (s : State) (b : Bool) : s.shiftBitHw b = s.calls (bitCallsHw s.cfg b) := by
  have h := calls_cfg [.emit (.mosi b), .emit (.sclk true)] s
  rw [bitCallsHw, calls_append, calls_append, ← h, ← readDataIn_calls]
  rfl

theorem foldl_calls {f : State → Bool → State} {g : Config → Bool → List Call}
    (hf : ∀ s b, f s b = s.calls (g s.cfg b)) (bs : List Bool) (s : State) :
    bs.foldl f s = s.calls (bs.flatMap (g s.cfg)) := by
  induction bs generalizing s with
  | nil => rfl
  | cons b bs ih => rw [List.foldl_cons, ih, hf, calls_cfg, List.flatMap_cons, calls_append]

theorem shiftByteSw_calls (s : State) (b : Byte) : s.shiftByteSw b = s.calls ((msbBits b).flatMap (bitCallsSw s.cfg)) :=
  foldl_calls shiftBitSw_calls _ s

theorem shiftByteHw_calls (s : State) (b : Byte) : s.shiftByteHw b = s.calls ((msbBits b).flatMap (bitCallsHw s.cfg)) :=
  foldl_calls shiftBitHw_calls _ s

theorem bracketSw_calls (s : State) (w : Word) : s.bracketSw w = s.calls (wordCallsSw s.cfg w) := by
  rw [State.bracketSw, shiftByteSw_calls, shiftByteSw_calls]
  have h := calls_cfg [.drive .csN false] s
  rw [calls_cfg, wordCallsSw, wordBits, List.flatMap_append, calls_append, calls_append, calls_append, ← h]
  rfl

theorem bracketHw_calls (s : State) (w : Word) : s.bracketHw w = s.calls (wordCallsHw s.cfg w) := by
  rw [State.bracketHw, shiftByteHw_calls, shiftByteHw_calls]
  have h := calls_cfg [.emit .txnBegin, .drive .csN false] s
  rw [calls_cfg, wordCallsHw, wordBits, List.flatMap_append, calls_append, calls_append, calls_append, ← h]
  rfl

theorem beginPins_calls (s : State) : s.beginPins = s.calls (beginCalls s.cfg) := by
  unfold State.beginPins beginCalls
  cases hm : s.cfg.mode
  · rfl
  · cases hi : s.cfg.hasMiso <;> simp <;> rfl

end Sys2Proof.Machine
end

