-- ==== Sys2Proof/Laws/Transport.lean ====
section
/-! SUPPORT. What the Transport can do, said once: `Emits` holds of every list of calls, `Sends` of every word sent, also of
one whose sending hangs, and `Transmitted` and the chip's content of a word sent whole are read off them. -/

namespace Sys2Proof.Machine

/-! The receiver over pin events (41_transport.md R141). -/

theorem pinTrace_append (t u : List Event) : pinTrace (t ++ u) = pinTrace t ++ pinTrace u := by
  simp [pinTrace]

/-- An event outside the pin trace changes nothing in the receiver. -/
theorem step_of_not_pin (r : Receiver) {e : Event} (h : e.isPin = false) : r.step e = r := by
  cases e <;> simp_all [Event.isPin, Receiver.step]

/-- One bit: shifted in while chip-select is low, ignored while it is high. -/
theorem receiver_bit (r : Receiver) (b : Bool) (h : r.clk = false) :
    (bitPinEvents b).foldl Receiver.step r =
      { r with mosi := b, sr := if r.cs then r.sr else r.sr ++ [b] } := by
  cases hc : r.cs <;> cases r <;> simp_all [bitPinEvents, Receiver.step]

/-- A run of bits. -/
theorem receiver_bits (bs : List Bool) (r : Receiver) (h : r.clk = false) :
    ∃ m, (bs.flatMap bitPinEvents).foldl Receiver.step r =
      { r with mosi := m, sr := if r.cs then r.sr else r.sr ++ bs } := by
  induction bs generalizing r with
  | nil => exact ⟨r.mosi, by cases r; simp⟩
  | cons b bs ih =>
    rw [List.flatMap_cons, List.foldl_append, receiver_bit r b h]
    obtain ⟨m, hm⟩ := ih { r with mosi := b, sr := if r.cs then r.sr else r.sr ++ [b] } h
    refine ⟨m, ?_⟩
    rw [hm]
    cases r.cs <;> simp

theorem receiver_byte (b : Byte) (r : Receiver) (h : r.clk = false) :
    ∃ m, (bytePinEvents b).foldl Receiver.step r =
      { r with mosi := m, sr := if r.cs then r.sr else r.sr ++ msbBits b } := by
  rw [bytePinEvents_eq]; exact receiver_bits _ r h

/-- The receiver just before chip-select rises at the end of a word: it has shifted in the word's sixteen bits. -/
theorem receiver_before_release (w : Word) (r : Receiver) (hcs : r.cs = true) (hclk : r.clk = false) :
    ∃ m, ([Event.cs false] ++ bytePinEvents (w.extractLsb' 8 8) ++ bytePinEvents (w.extractLsb' 0 8)).foldl
        Receiver.step r =
      { r with cs := false, mosi := m, sr := msbBits (hi8 w) ++ msbBits (lo8 w) } := by
  rw [List.foldl_append, List.foldl_append]
  obtain ⟨m1, h1⟩ := receiver_byte (w.extractLsb' 8 8) ([Event.cs false].foldl Receiver.step r)
    (by simp [Receiver.step, hclk])
  rw [h1]
  obtain ⟨m2, h2⟩ := receiver_byte (w.extractLsb' 0 8)
    { [Event.cs false].foldl Receiver.step r with
      mosi := m1
      sr := if ([Event.cs false].foldl Receiver.step r).cs then ([Event.cs false].foldl Receiver.step r).sr
        else ([Event.cs false].foldl Receiver.step r).sr ++ msbBits (w.extractLsb' 8 8) }
    (by simp [Receiver.step, hclk])
  rw [h2]
  exact ⟨m2, by simp [Receiver.step, hcs, hi8, lo8]⟩

/-- What is latched at the rise of chip-select: the word sent (R142 b). -/
theorem latches_word (w : Word) (r : Receiver) (hcs : r.cs = false)
    (hsr : r.sr = msbBits (hi8 w) ++ msbBits (lo8 w)) : r.latches (.cs true) = some (.word w) := by
  have hlen : r.sr.length = 16 := by simp [hsr, msbBits_length]
  simp only [Receiver.latches, hcs, hlen]
  simp [hsr, wordOfBits_msbBits]

/-- The receiver over a whole word. -/
theorem receiver_word (w : Word) (r : Receiver) (hcs : r.cs = true) (hclk : r.clk = false) :
    ∃ m, (wordPinEvents w).foldl Receiver.step r =
      { r with mosi := m, sr := msbBits (hi8 w) ++ msbBits (lo8 w), out := r.out ++ [.word w] } := by
  obtain ⟨m, hm⟩ := receiver_before_release w r hcs hclk
  unfold wordPinEvents
  rw [List.foldl_append, hm]
  refine ⟨m, ?_⟩
  simp only [List.foldl, Receiver.step]
  rw [latches_word w _ rfl rfl]
  simp [hcs]

/-- What is latched over a run of events with no rise of chip-select: nothing. -/
theorem receiver_out (ps : List Event) (h : ∀ e ∈ ps, e ≠ .cs true) (r : Receiver) :
    (ps.foldl Receiver.step r).out = r.out := by
  induction ps generalizing r with
  | nil => rfl
  | cons e ps ih =>
    rw [List.foldl_cons, ih fun x hx => h x (List.mem_cons_of_mem _ hx)]
    have he := h e List.mem_cons_self
    cases e with
    | cs l => cases l <;> simp_all [Receiver.step]
    | sclk l => cases l <;> rfl
    | mosi l => rfl
    | sample b => rfl
    | txnBegin => rfl
    | txnEnd => rfl

/-- Before its last event a word's bracket does not end. -/
theorem before_release (w : Word) : ∀ e ∈ [Event.cs false] ++ bytePinEvents (w.extractLsb' 8 8) ++
    bytePinEvents (w.extractLsb' 0 8), e ≠ .cs true := by
  intro e he
  simp only [bytePinEvents, bitPinEvents, List.mem_append, List.mem_flatMap, List.mem_cons, List.not_mem_nil,
    or_false] at he
  rintro rfl
  simp at he

/-- A part of the events of some words latches the first of them and nothing malformed. -/
theorem receiver_part {ws : List Word} {ps : List Event} (h : ps <+: ws.flatMap wordPinEvents) {r : Receiver}
    (hcs : r.cs = true) (hclk : r.clk = false) :
    ∃ vs, vs <+: ws ∧ (ps.foldl Receiver.step r).out = r.out ++ vs.map Latched.word := by
  induction ws generalizing ps r with
  | nil =>
    have : ps = [] := by simpa using h
    exact ⟨[], List.prefix_refl _, by simp [this]⟩
  | cons w ws ih =>
    rw [List.flatMap_cons] at h
    rcases List.prefix_or_prefix_of_prefix h (List.prefix_append _ _) with hp | ⟨qs, rfl⟩
    · rcases List.prefix_concat_iff.1 (show ps <+: _ ++ [Event.cs true] from hp) with e | e
      · obtain ⟨m, hm⟩ := receiver_word w r hcs hclk
        rw [show ps = wordPinEvents w from e, hm]
        exact ⟨[w], by simp, rfl⟩
      · refine ⟨[], List.nil_prefix, ?_⟩
        rw [receiver_out ps fun x hx => before_release w x (e.subset hx)]
        simp
    · obtain ⟨m, hm⟩ := receiver_word w r hcs hclk
      rw [List.foldl_append, hm]
      obtain ⟨vs, hv, ho⟩ := ih ((List.prefix_append_right_inj _).1 h)
        (r := { r with mosi := m, sr := msbBits (hi8 w) ++ msbBits (lo8 w), out := r.out ++ [.word w] }) hcs hclk
      exact ⟨w :: vs, (List.prefix_cons_inj w).2 hv, by rw [ho]; simp⟩

/-! What every list of calls can do. -/

/-- Between the two states the pin events `ps` went out, and nothing else of the core changed; whether a call hangs, and
where the framer stands, is not said. -/
structure Emits (s t : State) (ps : List Event) : Prop where
  cfg          : t.cfg = s.cfg
  gainMirror   : t.gainMirror = s.gainMirror
  statesMirror : t.statesMirror = s.statesMirror
  err          : t.err = s.err
  init         : t.init = s.init
  inputs       : t.inputs = s.inputs
  linkSound    : t.linkSound = s.linkSound
  result       : t.result = s.result
  trace        : ∃ es, t.trace = s.trace ++ es ∧ pinTrace es = ps
  rx           : t.rx = ps.foldl Receiver.step s.rx
  canonical    : memWf s.mem = true → memWf t.mem = true
  mapped       : s.cfg.wf = true → (∀ c ∈ s.mem, c.1 < 32) → ∀ c ∈ t.mem, c.1 < 32
  total        : ∀ a, (readByte s.mem a).isSome = true → (readByte t.mem a).isSome = true
  outside      : ∀ a, (∀ r, ¬ inRegister s.cfg r a) → readByte t.mem a = readByte s.mem a

theorem Emits.refl (s : State) : Emits s s [] :=
  ⟨rfl, rfl, rfl, rfl, rfl, rfl, rfl, rfl, ⟨[], by simp, rfl⟩, rfl, id, fun _ h => h, fun _ h => h, fun _ _ => rfl⟩

theorem Emits.trans {s t u : State} {ps qs : List Event} (h : Emits s t ps) (g : Emits t u qs) :
    Emits s u (ps ++ qs) where
  cfg := g.cfg.trans h.cfg
  gainMirror := g.gainMirror.trans h.gainMirror
  statesMirror := g.statesMirror.trans h.statesMirror
  err := g.err.trans h.err
  init := g.init.trans h.init
  inputs := g.inputs.trans h.inputs
  linkSound := g.linkSound.trans h.linkSound
  result := g.result.trans h.result
  trace := by
    obtain ⟨es, h1, h2⟩ := h.trace
    obtain ⟨fs, g1, g2⟩ := g.trace
    exact ⟨es ++ fs, by rw [g1, h1, List.append_assoc], by rw [pinTrace_append, h2, g2]⟩
  rx := by rw [g.rx, h.rx, List.foldl_append]
  canonical := fun x => g.canonical (h.canonical x)
  mapped := fun c x => g.mapped (by rw [h.cfg]; exact c) (h.mapped c x)
  total := fun a x => g.total a (h.total a x)
  outside := fun a x => by rw [g.outside a (by rw [h.cfg]; exact x), h.outside a x]

theorem Emits.hang {s t : State} {ps : List Event} (h : Emits s t ps) (r : Option Nat) (b : Bool) :
    Emits s (t.hang r b) ps :=
  ⟨h.cfg, h.gainMirror, h.statesMirror, h.err, h.init, h.inputs, h.linkSound, h.result, h.trace, h.rx, h.canonical,
    h.mapped, h.total, h.outside⟩

theorem Emits.moveTo {s t : State} {ps : List Event} (h : Emits s t ps) (p : Seq) : Emits s (t.moveTo p) ps :=
  ⟨h.cfg, h.gainMirror, h.statesMirror, h.err, h.init, h.inputs, h.linkSound, h.result, h.trace, h.rx, h.canonical,
    h.mapped, h.total, h.outside⟩

theorem emits_emit (s : State) (e : Event) : Emits s (s.emit e) (pinTrace [e]) where
  cfg := rfl
  gainMirror := rfl
  statesMirror := rfl
  err := rfl
  init := rfl
  inputs := rfl
  linkSound := rfl
  result := rfl
  trace := ⟨[e], rfl, rfl⟩
  rx := by
    cases h : e.isPin
    · simp [pinTrace, h, step_of_not_pin _ h]
    · simp [pinTrace, h]
  canonical := memWf_chipAfter s e
  mapped := mapped_chipAfter s e
  total := fun _ => total_chipAfter s e
  outside := readByte_chipAfter s e

theorem emits_effect (c : Call) (s : State) : Emits s (c.effect s) c.pins := by
  cases c with
  | silent => exact Emits.refl s
  | emit e => exact emits_emit s e
  | drive p l =>
    have h := emits_emit (s.setPin p l) (pinEvent p l)
    have hp : pinTrace [pinEvent p l] = [pinEvent p l] := by cases p <;> rfl
    rw [hp] at h
    cases p <;> exact ⟨rfl, rfl, rfl, rfl, rfl, rfl, rfl, rfl, h.trace, h.rx, h.canonical, h.mapped, h.total, h.outside⟩
  | sample =>
    have h := emits_emit { s with draws := s.draws + 1 } (.sample (Config.dataIn s.draws))
    exact ⟨rfl, rfl, rfl, rfl, rfl, rfl, rfl, rfl, h.trace, h.rx, h.canonical, h.mapped, h.total, h.outside⟩

theorem emits_effects (cs : List Call) (s : State) : Emits s (s.effects cs) (cs.flatMap Call.pins) := by
  induction cs generalizing s with
  | nil => exact Emits.refl s
  | cons c cs ih => rw [List.flatMap_cons]; exact (emits_effect c s).trans (ih (c.effect s))

/-- Calls emit the events of the first of them, and of all of them where all have returned. -/
theorem emits_calls (cs : List Call) (s : State) :
    ∃ ps, ps <+: cs.flatMap Call.pins ∧ Emits s (s.calls cs) ps ∧
      ((s.calls cs).blocked = false → ps = cs.flatMap Call.pins) := by
  cases hb : (s.calls cs).blocked with
  | false =>
    refine ⟨_, List.prefix_refl _, ?_, fun _ => rfl⟩
    rw [calls_returned hb]
    exact (emits_effects cs s).hang _ _
  | true =>
    obtain ⟨n, hn⟩ := calls_prefix cs s
    refine ⟨(cs.take n).flatMap Call.pins, ?_, ?_, fun h => by cases h⟩
    · obtain ⟨ds, hd⟩ := List.take_prefix n cs
      exact ⟨ds.flatMap Call.pins, by rw [← List.flatMap_append, hd]⟩
    · rw [hn]; exact (emits_effects _ s).hang _ _

/-- What no call of the list changes, the list leaves as it was. -/
theorem effects_keeps {α : Type} (g : State → α) {cs : List Call} (h : ∀ c ∈ cs, ∀ s, g (c.effect s) = g s)
    (s : State) : g (s.effects cs) = g s := by
  induction cs generalizing s with
  | nil => rfl
  | cons c cs ih =>
    rw [effects_cons, ih (fun x hx => h x (List.mem_cons_of_mem _ hx)), h c List.mem_cons_self]

theorem effects_seq (cs : List Call) (s : State) : (s.effects cs).seq = s.seq := by
  refine effects_keeps State.seq (fun c _ s => ?_) s
  cases c with
  | silent => rfl
  | drive p l => cases p <;> rfl
  | emit e => rfl
  | sample => rfl

theorem calls_seq (cs : List Call) (s : State) : (s.calls cs).seq = s.seq := by
  obtain ⟨n, hn⟩ := calls_prefix cs s
  rw [hn]; exact effects_seq _ s

/-- Where every call returns, only the wire, the pins and the chip change. -/
theorem effects_core (cs : List Call) {s : State} (h : Free s) : SameCore s (s.effects cs) :=
  have e := emits_effects cs s
  have f := effects_free cs h
  ⟨e.cfg, e.gainMirror, e.statesMirror, e.err, e.init, effects_seq cs s, e.inputs, f.returns.trans h.returns.symm,
    f.running.trans h.running.symm, e.linkSound⟩

theorem SameCore.refl (s : State) : SameCore s s := ⟨rfl, rfl, rfl, rfl, rfl, rfl, rfl, rfl, rfl, rfl⟩

theorem SameCore.trans {s t u : State} (h : SameCore s t) (g : SameCore t u) : SameCore s u :=
  ⟨g.cfg.trans h.cfg, g.gainMirror.trans h.gainMirror, g.statesMirror.trans h.statesMirror, g.err.trans h.err,
    g.init.trans h.init, g.seq.trans h.seq, g.inputs.trans h.inputs, g.returns.trans h.returns,
    g.blocked.trans h.blocked, g.linkSound.trans h.linkSound⟩

theorem SameCore.free {s t : State} (h : SameCore s t) (f : Free s) : Free t :=
  ⟨h.returns.trans f.returns, h.blocked.trans f.running⟩

/-! The pin registers, and the chip of a sound link. -/

theorem effects_csN {cs : List Call} (h : ∀ c ∈ cs, c.writes .csN = false) (s : State) :
    (s.effects cs).csN = s.csN := by
  refine effects_keeps State.csN (fun c hc s => ?_) s
  have := h c hc
  cases c with
  | silent => rfl
  | drive p l => cases p <;> first | rfl | cases this
  | emit e => rfl
  | sample => rfl

theorem effects_sclk {cs : List Call} (h : ∀ c ∈ cs, c.writes .sclk = false) (s : State) :
    (s.effects cs).sclk = s.sclk := by
  refine effects_keeps State.sclk (fun c hc s => ?_) s
  have := h c hc
  cases c with
  | silent => rfl
  | drive p l => cases p <;> first | rfl | cases this
  | emit e => rfl
  | sample => rfl

theorem effects_mosi {cs : List Call} (h : ∀ c ∈ cs, c.writes .mosi = false) (s : State) :
    (s.effects cs).mosi = s.mosi := by
  refine effects_keeps State.mosi (fun c hc s => ?_) s
  have := h c hc
  cases c with
  | silent => rfl
  | drive p l => cases p <;> first | rfl | cases this
  | emit e => rfl
  | sample => rfl

/-- Calls that end no bracket leave the chip of a sound link as it was. -/
theorem effects_mem {cs : List Call} (h : ∀ c ∈ cs, c.releases = false) {s : State} (hl : s.linkSound = true) :
    (s.effects cs).mem = s.mem := by
  induction cs generalizing s with
  | nil => rfl
  | cons c cs ih =>
    rw [effects_cons, ih (fun x hx => h x (List.mem_cons_of_mem _ hx)) ((emits_effect c s).linkSound.trans hl)]
    have hc := h c List.mem_cons_self
    cases c with
    | silent => rfl
    | drive p l =>
      cases p <;> (try cases l) <;> first | exact chipAfter_quiet _ _ hl rfl | cases hc
    | emit e =>
      cases e <;> (try (rename_i l; cases l)) <;> first | exact chipAfter_quiet _ _ hl rfl | cases hc
    | sample => exact chipAfter_quiet _ _ hl rfl

/-! The calls of one bit and of one word. -/

theorem mem_bitCallsSw {cfg : Config} {b : Bool} {c : Call} (h : c ∈ bitCallsSw cfg b) :
    c = .drive .mosi b ∨ c = .drive .sclk true ∨ c = .sample ∨ c = .drive .sclk false := by
  unfold bitCallsSw dataInCalls at h
  split at h <;> simp at h <;> tauto

theorem mem_bitCallsHw {cfg : Config} {b : Bool} {c : Call} (h : c ∈ bitCallsHw cfg b) :
    c = .emit (.mosi b) ∨ c = .emit (.sclk true) ∨ c = .sample ∨ c = .emit (.sclk false) := by
  unfold bitCallsHw dataInCalls at h
  split at h <;> simp at h <;> tauto

theorem bitCallsSw_pins (cfg : Config) (b : Bool) : (bitCallsSw cfg b).flatMap Call.pins = bitPinEvents b := by
  unfold bitCallsSw dataInCalls
  split <;> rfl

theorem bitCallsHw_pins (cfg : Config) (b : Bool) : (bitCallsHw cfg b).flatMap Call.pins = bitPinEvents b := by
  unfold bitCallsHw dataInCalls
  split <;> rfl

theorem bitsCalls_pins {g : Bool → List Call} (hg : ∀ b, (g b).flatMap Call.pins = bitPinEvents b) (bs : List Bool) :
    (bs.flatMap g).flatMap Call.pins = bs.flatMap bitPinEvents := by
  induction bs with
  | nil => rfl
  | cons b bs ih => simp [List.flatMap_append, hg, ih]

theorem wordBits_pins (w : Word) : (wordBits w).flatMap bitPinEvents =
    bytePinEvents (w.extractLsb' 8 8) ++ bytePinEvents (w.extractLsb' 0 8) := by
  rw [wordBits, List.flatMap_append, bytePinEvents_eq, bytePinEvents_eq]; rfl

theorem wordCallsSw_pins (cfg : Config) (w : Word) : (wordCallsSw cfg w).flatMap Call.pins = wordPinEvents w := by
  simp [wordCallsSw, wordPinEvents, List.flatMap_append, bitsCalls_pins (bitCallsSw_pins cfg), wordBits_pins,
    Call.pins, pinEvent]

/-- The same pin events (R142 a). -/
theorem wordCallsHw_pins (cfg : Config) (w : Word) : (wordCallsHw cfg w).flatMap Call.pins = wordPinEvents w := by
  simp [wordCallsHw, wordPinEvents, List.flatMap_append, bitsCalls_pins (bitCallsHw_pins cfg), wordBits_pins,
    Call.pins, pinEvent, pinTrace, Event.isPin]

/-- The last bit on the wire. -/
theorem wordBits_last (w : Word) : ∃ bs, wordBits w = bs ++ [w.getLsbD 0] := by
  refine ⟨msbBits (hi8 w) ++ [w.getLsbD 7, w.getLsbD 6, w.getLsbD 5, w.getLsbD 4, w.getLsbD 3, w.getLsbD 2,
    w.getLsbD 1], ?_⟩
  rw [wordBits, msbBits_byte (lo8 w)]
  simp [lo8]

/-- The calls of the strategy in force (R140). -/
def wordCalls (cfg : Config) (w : Word) : List Call :=
  match cfg.mode with
  | .hw => wordCallsHw cfg w
  | .sw => wordCallsSw cfg w

theorem wordCalls_pins (cfg : Config) (w : Word) : (wordCalls cfg w).flatMap Call.pins = wordPinEvents w := by
  unfold wordCalls
  split
  · exact wordCallsHw_pins cfg w
  · exact wordCallsSw_pins cfg w

/-! A word sent. -/

/-- Where every call returns, a word's calls have their effects. -/
theorem sendWordSw_free {s : State} (h : Free s) (w : Word) : s.sendWordSw w = s.effects (wordCallsSw s.cfg w) := by
  have e := bracketSw_calls s w
  rw [calls_free _ h] at e
  simp [State.sendWordSw, State.transfer, h.running, e, (effects_free (wordCallsSw s.cfg w) h).running]

theorem sendWordHw_free {s : State} (h : Free s) (w : Word) : s.sendWordHw w = s.effects (wordCallsHw s.cfg w) := by
  have e := bracketHw_calls s w
  rw [calls_free _ h] at e
  simp [State.sendWordHw, State.transfer, h.running, e, (effects_free (wordCallsHw s.cfg w) h).running]

theorem sendWord_free {s : State} (h : Free s) (w : Word) : s.sendWord w = s.effects (wordCalls s.cfg w) := by
  cases hm : s.cfg.mode <;> simp only [State.sendWord, wordCalls, hm]
  · exact sendWordHw_free h w
  · exact sendWordSw_free h w

/-- A transfer is its calls, and the framer is held where one of them hangs. -/
theorem transfer_calls {body : State → State} {cs : List Call} {s : State} (hb : body s = s.calls cs) (w : Word)
    (x : Nat) : ∃ p, s.transfer body w x = (s.calls cs).moveTo p ∧
      ((s.calls cs).blocked = false ∨ s.blocked = true → p = s.seq) := by
  unfold State.transfer
  rw [hb]
  cases hs : s.blocked with
  | true => exact ⟨s.seq, by rw [if_pos rfl, calls_blocked cs hs]; rfl, fun _ => rfl⟩
  | false =>
    rw [if_neg (by simp)]
    cases hc : (s.calls cs).blocked with
    | true => exact ⟨framerPosition s.cfg w ((s.calls cs).trace.length - s.trace.length - x), by simp [hc, State.moveTo],
        by simp⟩
    | false => exact ⟨s.seq, by rw [← calls_seq cs s]; simp only [hc]; rfl, fun _ => rfl⟩

theorem sendWord_calls (s : State) (w : Word) : ∃ p, s.sendWord w = (s.calls (wordCalls s.cfg w)).moveTo p ∧
    ((s.calls (wordCalls s.cfg w)).blocked = false ∨ s.blocked = true → p = s.seq) := by
  cases hm : s.cfg.mode <;> simp only [State.sendWord, wordCalls, hm]
  · exact transfer_calls (bracketHw_calls s w) w 1
  · exact transfer_calls (bracketSw_calls s w) w 0

/-- A word sent whole is sent as where every call returns. -/
theorem sendWord_returned {s : State} {w : Word} (h : (s.sendWord w).blocked = false) :
    s.sendWord w = (s.effects (wordCalls s.cfg w)).hang (s.sendWord w).returns false := by
  obtain ⟨p, hp, hq⟩ := sendWord_calls s w
  rw [hp] at h ⊢
  have hc : (s.calls (wordCalls s.cfg w)).blocked = false := h
  rw [hq (.inl hc), ← calls_seq (wordCalls s.cfg w) s]
  exact calls_returned hc

theorem Emits.pinTrace_eq {s t : State} {ps : List Event} (h : Emits s t ps) :
    pinTrace t.trace = pinTrace s.trace ++ ps := by
  obtain ⟨es, h1, h2⟩ := h.trace
  rw [h1, pinTrace_append, h2]

theorem Emits.grows {s t : State} {ps : List Event} (h : Emits s t ps) : s.trace <+: t.trace := by
  obtain ⟨es, h1, -⟩ := h.trace
  exact ⟨es, h1.symm⟩

theorem writes_bits (cfg : Config) (bs : List Bool) :
    (∀ c ∈ bs.flatMap (bitCallsSw cfg), c.writes .csN = false) ∧
    (∀ p, ∀ c ∈ bs.flatMap (bitCallsHw cfg), c.writes p = false) ∧
    (∀ c ∈ bs.flatMap (bitCallsSw cfg), c.releases = false) ∧
    (∀ c ∈ bs.flatMap (bitCallsHw cfg), c.releases = false) := by
  refine ⟨?_, ?_, ?_, ?_⟩
  · intro c hc
    obtain ⟨b, -, h⟩ := List.mem_flatMap.1 hc
    rcases mem_bitCallsSw h with rfl | rfl | rfl | rfl <;> rfl
  · intro p c hc
    obtain ⟨b, -, h⟩ := List.mem_flatMap.1 hc
    rcases mem_bitCallsHw h with rfl | rfl | rfl | rfl <;> rfl
  · intro c hc
    obtain ⟨b, -, h⟩ := List.mem_flatMap.1 hc
    rcases mem_bitCallsSw h with rfl | rfl | rfl | rfl <;> rfl
  · intro c hc
    obtain ⟨b, -, h⟩ := List.mem_flatMap.1 hc
    rcases mem_bitCallsHw h with rfl | rfl | rfl | rfl <;> rfl

/-- One bit leaves the clock low and the bit on data-out (R136). -/
theorem bit_pins (s : State) (cfg : Config) (b : Bool) :
    (s.effects (bitCallsSw cfg b)).sclk = .low ∧ (s.effects (bitCallsSw cfg b)).mosi = levelOf b := by
  unfold bitCallsSw dataInCalls
  split <;> exact ⟨rfl, rfl⟩

/-- After a byte or a word of the software strategy the clock is low and data-out holds the last bit (R136). -/
theorem bits_pins (s : State) (cfg : Config) (bs : List Bool) (b : Bool) :
    (s.effects ((bs ++ [b]).flatMap (bitCallsSw cfg))).sclk = .low ∧
      (s.effects ((bs ++ [b]).flatMap (bitCallsSw cfg))).mosi = levelOf b := by
  rw [List.flatMap_append, effects_append]
  simpa using bit_pins _ cfg b

theorem wordSw_pins (s : State) (cfg : Config) (w : Word) :
    (s.effects (wordCallsSw cfg w)).csN = .high ∧ (s.effects (wordCallsSw cfg w)).sclk = .low ∧
      (s.effects (wordCallsSw cfg w)).mosi = levelOf (w.getLsbD 0) := by
  obtain ⟨bs, hb⟩ := wordBits_last w
  have h := bits_pins (s.effects [.drive .csN false]) cfg bs (w.getLsbD 0)
  rw [wordCallsSw, effects_append, effects_append, hb]
  exact ⟨rfl, h.1, h.2⟩

theorem wordHw_pins (s : State) (cfg : Config) (w : Word) :
    (s.effects (wordCallsHw cfg w)).csN = .high ∧ (s.effects (wordCallsHw cfg w)).sclk = s.sclk ∧
      (s.effects (wordCallsHw cfg w)).mosi = s.mosi := by
  have h := (writes_bits cfg (wordBits w)).2.1
  have first : ∀ x : State, (x.effects [.emit .txnBegin, .drive .csN false]).sclk = x.sclk ∧
      (x.effects [.emit .txnBegin, .drive .csN false]).mosi = x.mosi := fun _ => ⟨rfl, rfl⟩
  have last : ∀ x : State, (x.effects [.drive .csN true, .emit .txnEnd]).csN = .high ∧
      (x.effects [.drive .csN true, .emit .txnEnd]).sclk = x.sclk ∧
      (x.effects [.drive .csN true, .emit .txnEnd]).mosi = x.mosi := fun _ => ⟨rfl, rfl, rfl⟩
  rw [wordCallsHw, effects_append, effects_append]
  refine ⟨(last _).1, (last _).2.1.trans ?_, (last _).2.2.trans ?_⟩
  · rw [effects_sclk (h .sclk)]; exact (first s).1
  · rw [effects_mosi (h .mosi)]; exact (first s).2

theorem word_transmitted (s : State) (w : Word) : Transmitted s (s.effects (wordCalls s.cfg w)) [w] := by
  have h := emits_effects (wordCalls s.cfg w) s
  rw [wordCalls_pins] at h
  refine ⟨h.grows, by simpa using h.pinTrace_eq, ?_, ?_, ?_, ?_, ?_⟩
  · intro hi
    obtain ⟨m, hm⟩ := receiver_word w s.rx hi.cs hi.clk
    rw [h.rx, hm]; rfl
  · intro hi
    obtain ⟨m, hm⟩ := receiver_word w s.rx hi.cs hi.clk
    exact ⟨by rw [h.rx, hm]; exact hi.cs, by rw [h.rx, hm]; exact hi.clk⟩
  · intro v _
    unfold wordCalls
    split
    · exact (wordHw_pins s _ w).1
    · exact (wordSw_pins s _ w).1
  · intro hm v hv
    have : v = w := by simpa using hv.symm
    subst this
    simp only [wordCalls, hm]
    exact (wordSw_pins s _ v).2
  · intro hm
    simp only [wordCalls, hm]
    exact (wordHw_pins s _ w).2

/-- The rise of chip-select after a word's bits: the chip latches the word. -/
theorem release_mem {s t : State} {w : Word} (hi : WireIdle s) (hl : s.linkSound = true)
    (h : Emits s t ([.cs false] ++ bytePinEvents (w.extractLsb' 8 8) ++ bytePinEvents (w.extractLsb' 0 8)))
    (hm : t.mem = s.mem) : (t.drive .csN true).mem = latchWord s.cfg w s.mem := by
  obtain ⟨m, hrx⟩ := receiver_before_release w s.rx hi.cs hi.clk
  rw [State.driveCs_mem, chipAfter_word t (.cs true) (by rw [h.linkSound, hl])
    (latches_word w t.rx (by rw [h.rx, hrx]) (by rw [h.rx, hrx])), h.cfg, hm]

/-- After a word has been sent over a sound link the chip has latched it, whichever the strategy. -/
theorem word_mem (s : State) (w : Word) (hi : WireIdle s) (hl : s.linkSound = true) :
    (s.effects (wordCalls s.cfg w)).mem = latchWord s.cfg w s.mem := by
  obtain ⟨-, -, r1, r2⟩ := writes_bits s.cfg (wordBits w)
  unfold wordCalls
  split
  · have q : ∀ c ∈ [.emit .txnBegin, .drive .csN false] ++ (wordBits w).flatMap (bitCallsHw s.cfg),
        c.releases = false := by
      intro c hc
      rcases List.mem_append.1 hc with hc | hc
      · simp at hc; rcases hc with rfl | rfl <;> rfl
      · exact r2 c hc
    have e := emits_effects ([.emit .txnBegin, .drive .csN false] ++ (wordBits w).flatMap (bitCallsHw s.cfg)) s
    rw [List.flatMap_append, bitsCalls_pins (bitCallsHw_pins _), wordBits_pins, ← List.append_assoc] at e
    rw [wordCallsHw, effects_append]
    show ((s.effects _).drive .csN true |>.emit .txnEnd).mem = _
    rw [State.emit_mem, chipAfter_quiet _ _ (by rw [State.driveCs_linkSound]; exact e.linkSound.trans hl) rfl]
    exact release_mem hi hl e (effects_mem q hl)
  · have q : ∀ c ∈ [.drive .csN false] ++ (wordBits w).flatMap (bitCallsSw s.cfg), c.releases = false := by
      intro c hc
      rcases List.mem_append.1 hc with hc | hc
      · simp at hc; rcases hc with rfl; rfl
      · exact r1 c hc
    have e := emits_effects ([.drive .csN false] ++ (wordBits w).flatMap (bitCallsSw s.cfg)) s
    rw [List.flatMap_append, bitsCalls_pins (bitCallsSw_pins _), wordBits_pins, ← List.append_assoc] at e
    rw [wordCallsSw, effects_append]
    exact release_mem hi hl e (effects_mem q hl)

theorem Transmitted.trans {s t u : State} {ws vs : List Word} (h : Transmitted s t ws) (g : Transmitted t u vs)
    (hc : t.cfg = s.cfg) (hv : vs ≠ []) : Transmitted s u (ws ++ vs) := by
  have hlast : ∀ w, (ws ++ vs).getLast? = some w → vs.getLast? = some w := by
    intro w hw
    rw [List.getLast?_append] at hw
    cases hl : vs.getLast? with
    | none => simp [hv] at hl
    | some x => simpa [hl] using hw
  refine ⟨h.grows.trans g.grows, ?_, ?_, fun hi => g.idle (h.idle hi), ?_, ?_, ?_⟩
  · rw [g.pins, h.pins]; simp
  · intro hi
    rw [g.view (h.idle hi), h.view hi]; simp
  · exact fun w hw => g.csN w (hlast w hw)
  · exact fun hm w hw => g.sw (by rw [hc]; exact hm) w (hlast w hw)
  · intro hm
    have h1 := h.hw hm
    have g1 := g.hw (by rw [hc]; exact hm)
    exact ⟨g1.1.trans h1.1, g1.2.trans h1.2⟩

theorem Transmitted.hang {s t : State} {ws : List Word} (h : Transmitted s t ws) (r : Option Nat) (b : Bool) :
    Transmitted s (t.hang r b) ws :=
  ⟨h.grows, h.pins, h.view, fun hi => ⟨(h.idle hi).cs, (h.idle hi).clk⟩, h.csN, h.sw, h.hw⟩

/-- All that sending the words `ws` can do: a part of their events goes out, all of them where no call hangs. -/
structure Sends (s t : State) (ws : List Word) : Prop where
  part  : ∃ ps, ps <+: ws.flatMap wordPinEvents ∧ Emits s t ps
  whole : t.blocked = false → Emits s t (ws.flatMap wordPinEvents) ∧ Transmitted s t ws ∧ t.seq = s.seq
  stuck : s.blocked = true → t = s
  hw    : s.cfg.mode = .hw → t.sclk = s.sclk ∧ t.mosi = s.mosi

/-- `SEND_WORD` (R140). -/
theorem sendWord_sends (s : State) (w : Word) : Sends s (s.sendWord w) [w] := by
  obtain ⟨p, hp, hq⟩ := sendWord_calls s w
  obtain ⟨ps, h1, h2, -⟩ := emits_calls (wordCalls s.cfg w) s
  refine ⟨⟨ps, by simpa [wordCalls_pins] using h1, by rw [hp]; exact h2.moveTo p⟩, ?_, ?_, ?_⟩
  · intro hb
    have e := emits_effects (wordCalls s.cfg w) s
    rw [wordCalls_pins] at e
    rw [sendWord_returned hb]
    refine ⟨by simpa using e.hang _ _, (word_transmitted s w).hang _ _, effects_seq _ s⟩
  · intro hs
    rw [hp, hq (.inr hs), calls_blocked _ hs]; rfl
  · intro hm
    obtain ⟨n, hn⟩ := calls_prefix (wordCalls s.cfg w) s
    have k : ∀ q, q ≠ Pin.csN → ∀ c ∈ (wordCalls s.cfg w).take n, c.writes q = false := by
      intro q hq c hc
      have := List.mem_of_mem_take hc
      simp only [wordCalls, hm, wordCallsHw, List.mem_append, List.mem_cons, List.not_mem_nil, or_false] at this
      rcases this with ((rfl | rfl) | hc) | rfl | rfl
      · rfl
      · cases q <;> first | rfl | exact absurd rfl hq
      · exact (writes_bits _ _).2.1 q c hc
      · cases q <;> first | rfl | exact absurd rfl hq
      · rfl
    rw [hp, hn]
    exact ⟨effects_sclk (k .sclk (by decide)) s, effects_mosi (k .mosi (by decide)) s⟩

theorem Sends.trans {s t u : State} {ws vs : List Word} (h : Sends s t ws) (g : Sends t u vs) (hv : vs ≠ []) :
    Sends s u (ws ++ vs) := by
  have hcfg : t.cfg = s.cfg := by obtain ⟨ps, -, e⟩ := h.part; exact e.cfg
  have hb : u.blocked = false → t.blocked = false := by
    intro hu
    cases ht : t.blocked with
    | false => rfl
    | true => rw [g.stuck ht, ht] at hu; cases hu
  refine ⟨?_, ?_, ?_, ?_⟩
  · rw [List.flatMap_append]
    cases ht : t.blocked with
    | true =>
      obtain ⟨ps, h1, h2⟩ := h.part
      exact ⟨ps, h1.trans (List.prefix_append _ _), by rw [g.stuck ht]; exact h2⟩
    | false =>
      obtain ⟨qs, h1, h2⟩ := g.part
      exact ⟨_, (List.prefix_append_right_inj _).2 h1, (h.whole ht).1.trans h2⟩
  · intro hu
    obtain ⟨h1, h2, h3⟩ := h.whole (hb hu)
    obtain ⟨g1, g2, g3⟩ := g.whole hu
    exact ⟨by rw [List.flatMap_append]; exact h1.trans g1, h2.trans g2 hcfg hv, g3.trans h3⟩
  · intro hs
    have := h.stuck hs
    rw [g.stuck (by rw [this]; exact hs), this]
  · intro hm
    obtain ⟨a, b⟩ := h.hw hm
    obtain ⟨c, d⟩ := g.hw (by rw [hcfg]; exact hm)
    exact ⟨c.trans a, d.trans b⟩

/-- `MemWrite` (R140): where every call returns, its word's calls have their effects. -/
theorem memWrite_free {s : State} (h : Free s) (r : Reg) (p : Word) :
    s.memWrite r p = s.effects (wordCalls s.cfg (assemble s.cfg r p)) := sendWord_free h _

/-- `MemWrite` over a sound, idle link: the chip's register holds the payload. -/
theorem memWrite_mem {s : State} (f : Free s) (hc : s.cfg.wf = true) (r : Reg) {p : Word} (hp : p &&& 0x000F#16 = 0#16)
    (hi : WireIdle s) (hl : s.linkSound = true) : (s.memWrite r p).mem = writeRegister s.mem s.cfg r p := by
  rw [memWrite_free f, word_mem s _ hi hl, latchWord_assemble hc r hp]

end Sys2Proof.Machine
end

