-- ==== Sys2Proof/Laws/Exec.lean ====
section
/-! SUPPORT. What each guard and each instruction can do, said once: how the guards answer, for each instruction the state
it leaves when it answers a next state, and what the operations send. -/

namespace Sys2Proof.Machine

/-! The guards. -/

theorem whenIdle_idle {k : State → Out} {s : State} (h : s.seq = .idle) (hb : s.blocked = false) :
    whenIdle k s = k s := by
  simp [whenIdle, h, hb]

theorem whenBusFree_idle {k : State → Out} {s : State} (h : s.seq = .idle) : whenBusFree k s = k s := by
  simp [whenBusFree, h]

theorem whenBegun_ready {k : State → Out} {s : State} (h : Ready s) : whenBegun k s = k s := by
  simp [whenBegun, whenIdle, h.idle, h.begun, h.free.running]

theorem whenSw_ready {k : State → Out} {s : State} (h : Ready s) (m : s.cfg.mode = .sw) : whenSw k s = k s := by
  simp [whenSw, whenBegun_ready h, m]

theorem whenHw_ready {k : State → Out} {s : State} (h : Ready s) (m : s.cfg.mode = .hw) : whenHw k s = k s := by
  simp [whenHw, whenBegun_ready h, m]

theorem whenIdle_next {k : State → Out} {s t : State} (h : whenIdle k s = .next t) :
    s.seq = .idle ∧ s.blocked = false ∧ k s = .next t := by
  unfold whenIdle at h
  split at h
  · rename_i hs; exact ⟨hs.1, hs.2, h⟩
  · cases h

theorem whenBegun_next {k : State → Out} {s t : State} (h : whenBegun k s = .next t) :
    s.seq = .idle ∧ s.blocked = false ∧ s.init = true ∧ k s = .next t := by
  obtain ⟨h1, h2, h3⟩ := whenIdle_next h
  split at h3
  · exact ⟨h1, h2, by assumption, h3⟩
  · cases h3

theorem whenSw_next {k : State → Out} {s t : State} (h : whenSw k s = .next t) :
    s.seq = .idle ∧ s.blocked = false ∧ s.init = true ∧ s.cfg.mode = .sw ∧ k s = .next t := by
  obtain ⟨h1, h2, h3, h4⟩ := whenBegun_next h
  split at h4
  · exact ⟨h1, h2, h3, by assumption, h4⟩
  · cases h4

theorem whenHw_next {k : State → Out} {s t : State} (h : whenHw k s = .next t) :
    s.seq = .idle ∧ s.blocked = false ∧ s.init = true ∧ s.cfg.mode = .hw ∧ k s = .next t := by
  obtain ⟨h1, h2, h3, h4⟩ := whenBegun_next h
  split at h4
  · exact ⟨h1, h2, h3, by assumption, h4⟩
  · cases h4

/-! The end of an operation. -/

theorem complete_running {f : State → State} {s : State} (h : s.blocked = false) : s.complete f = f s := by
  simp [State.complete, h]

theorem complete_blocked {f : State → State} {s : State} (h : s.blocked = true) : s.complete f = s.handBack .none := by
  simp [State.complete, h]

/-! The instructions: what a next state of each one is. -/

theorem exec_setVolume_next {l r : Int} {s t : State} (h : exec (.setVolume l r) s = .next t) :
    s.seq = .idle ∧ s.blocked = false ∧ s.init = true ∧
      ((volumeValid s.cfg l = true ∧ volumeValid s.cfg r = true ∧
        t = ((s.memWrite .attL (atten l)).memWrite .attR (atten r)).complete (State.handBack (.bool true))) ∨
      ((volumeValid s.cfg l && volumeValid s.cfg r) = false ∧ t = s.raiseValueError)) := by
  simp only [exec, execSetVolume] at h
  obtain ⟨h1, h2, h3, h4⟩ := whenBegun_next h
  refine ⟨h1, h2, h3, ?_⟩
  split at h4 <;> rename_i hv <;> injection h4 with h4
  · rw [Bool.and_eq_true] at hv
    exact .inl ⟨hv.1, hv.2, h4.symm⟩
  · exact .inr ⟨by simpa using hv, h4.symm⟩

theorem exec_setGain_next {g : Int} {s t : State} (h : exec (.setGain g) s = .next t) :
    s.seq = .idle ∧ s.blocked = false ∧ s.init = true ∧
      ((gainValid s.cfg g = true ∧
        t = ({ s with gainMirror := gainCode g }.memWrite .gain (gainCode g)).complete (State.handBack (.bool true))) ∨
      (gainValid s.cfg g = false ∧ t = s.raiseValueError)) := by
  simp only [exec, execSetGain] at h
  obtain ⟨h1, h2, h3, h4⟩ := whenBegun_next h
  refine ⟨h1, h2, h3, ?_⟩
  split at h4 <;> rename_i hv <;> injection h4 with h4
  · exact .inl ⟨hv, h4.symm⟩
  · exact .inr ⟨by simpa using hv, h4.symm⟩

theorem exec_mute_next {s t : State} (h : exec .mute s = .next t) :
    s.seq = .idle ∧ s.blocked = false ∧ s.init = true ∧
      t = ((s.memWrite .attL 0x0000#16).memWrite .attR 0x0000#16).handBack .none := by
  simp only [exec, execMute] at h
  obtain ⟨h1, h2, h3, hn⟩ := whenBegun_next h
  injection hn with hn
  exact ⟨h1, h2, h3, hn.symm⟩

theorem exec_setZeroCrossing_next {e : Bool} {s t : State} (h : exec (.setZeroCrossing e) s = .next t) :
    s.seq = .idle ∧ s.blocked = false ∧ s.init = true ∧
      t = s.gainFeature .zeroCrossing e := by
  simp only [exec, execSetZeroCrossing] at h
  obtain ⟨h1, h2, h3, hn⟩ := whenBegun_next h
  injection hn with hn
  exact ⟨h1, h2, h3, hn.symm⟩

theorem exec_setLinkChannels_next {e : Bool} {s t : State} (h : exec (.setLinkChannels e) s = .next t) :
    s.seq = .idle ∧ s.blocked = false ∧ s.init = true ∧
      t = s.gainFeature .link e := by
  simp only [exec, execSetLinkChannels] at h
  obtain ⟨h1, h2, h3, hn⟩ := whenBegun_next h
  injection hn with hn
  exact ⟨h1, h2, h3, hn.symm⟩

theorem exec_setExternalClock_next {e : Bool} {s t : State} (h : exec (.setExternalClock e) s = .next t) :
    s.seq = .idle ∧ s.blocked = false ∧ s.init = true ∧
      t = s.statesFeature .externalClock e := by
  simp only [exec, execSetExternalClock] at h
  obtain ⟨h1, h2, h3, hn⟩ := whenBegun_next h
  injection hn with hn
  exact ⟨h1, h2, h3, hn.symm⟩

theorem exec_begin_next {s t : State} (h : exec .beginOp s = .next t) :
    s.seq = .idle ∧ s.blocked = false ∧
      t = s.beginPins.complete fun u => { u with init := true }.handBack (.bool true) := by
  simp only [exec, execBegin] at h
  obtain ⟨h1, h2, hn⟩ := whenIdle_next h
  injection hn with hn
  exact ⟨h1, h2, hn.symm⟩

theorem exec_getStatus_next {s t : State} (h : exec .getStatus s = .next t) :
    s.seq = .idle ∧ s.blocked = false ∧
      t = s.handBack (.status s.err.code) := by
  simp only [exec, execGetStatus] at h
  obtain ⟨h1, h2, hn⟩ := whenIdle_next h
  injection hn with hn
  exact ⟨h1, h2, hn.symm⟩

theorem exec_shiftByteSw_next {b : Byte} {s t : State} (h : exec (.shiftByteSw b) s = .next t) :
    s.seq = .idle ∧ s.blocked = false ∧ s.init = true ∧ s.cfg.mode = .sw ∧
      t = (s.shiftByteSw b).handBack .none := by
  simp only [exec, execShiftByteSw] at h
  obtain ⟨h1, h2, h3, h4, hn⟩ := whenSw_next h
  injection hn with hn
  exact ⟨h1, h2, h3, h4, hn.symm⟩

theorem exec_shiftByteHw_next {b : Byte} {s t : State} (h : exec (.shiftByteHw b) s = .next t) :
    s.seq = .idle ∧ s.blocked = false ∧ s.init = true ∧ s.cfg.mode = .hw ∧
      t = (s.shiftByteHw b).handBack .none := by
  simp only [exec, execShiftByteHw] at h
  obtain ⟨h1, h2, h3, h4, hn⟩ := whenHw_next h
  injection hn with hn
  exact ⟨h1, h2, h3, h4, hn.symm⟩

theorem exec_sendWordSw_next {w : Word} {s t : State} (h : exec (.sendWordSw w) s = .next t) :
    s.seq = .idle ∧ s.blocked = false ∧ s.init = true ∧ s.cfg.mode = .sw ∧
      t = (s.sendWordSw w).handBack .none := by
  simp only [exec, execSendWordSw] at h
  obtain ⟨h1, h2, h3, h4, hn⟩ := whenSw_next h
  injection hn with hn
  exact ⟨h1, h2, h3, h4, hn.symm⟩

theorem exec_sendWordHw_next {w : Word} {s t : State} (h : exec (.sendWordHw w) s = .next t) :
    s.seq = .idle ∧ s.blocked = false ∧ s.init = true ∧ s.cfg.mode = .hw ∧
      t = (s.sendWordHw w).handBack .none := by
  simp only [exec, execSendWordHw] at h
  obtain ⟨h1, h2, h3, h4, hn⟩ := whenHw_next h
  injection hn with hn
  exact ⟨h1, h2, h3, h4, hn.symm⟩

theorem exec_sendWord_next {w : Word} {s t : State} (h : exec (.sendWord w) s = .next t) :
    s.seq = .idle ∧ s.blocked = false ∧ s.init = true ∧
      t = (s.sendWord w).handBack .none := by
  simp only [exec, execSendWord] at h
  obtain ⟨h1, h2, h3, hn⟩ := whenBegun_next h
  injection hn with hn
  exact ⟨h1, h2, h3, hn.symm⟩

/-- A control word at the receiver, whatever its kind. -/
theorem exec_wordInstr (r : Reg) (p : BitVec 12) (c : BitVec 2) (s : State) :
    exec (wordInstr r p c) s = whenBusFree (fun s => .next (s.latch (controlWord s.cfg r p c))) s := by
  cases r <;> rfl

theorem exec_wordInstr_next {r : Reg} {p : BitVec 12} {c : BitVec 2} {s t : State}
    (h : exec (wordInstr r p c) s = .next t) : s.seq = .idle ∧ t = s.latch (controlWord s.cfg r p c) := by
  rw [exec_wordInstr] at h
  unfold whenBusFree at h
  split at h
  · rename_i hs; injection h with h; exact ⟨hs, h.symm⟩
  · cases h

/-- What the receiver can do with a word: take it, or, over a link that cannot be trusted, be left unknown. -/
theorem latch_sound {s : State} (h : s.linkSound = true) (w : Word) :
    s.latch w = { s with mem := latchWord s.cfg w s.mem } := by simp [State.latch, h]

theorem latch_unsound {s : State} (h : s.linkSound = false) (w : Word) : s.latch w = s.upset := by simp [State.latch, h]

/-! Arguments (40_encoder.md R110, R113). -/

theorem volumeValid_iff {cfg : Config} (h : cfg.wf = true) (v : Int) :
    volumeValid cfg v = true ↔ -447 ≤ v ∧ v ≤ 0 := by
  obtain ⟨h1, h2⟩ := wf_volume h
  unfold volumeValid
  rw [Bool.and_eq_true, decide_eq_true_iff, decide_eq_true_iff, h1, h2]

theorem gainValid_iff (cfg : Config) (g : Int) :
    gainValid cfg g = true ↔ cfg.gainRejectPositive = false ∨ g ≤ 0 := by
  simp [gainValid]

/-! BEGIN's pins (42_device_operations.md R161). -/

theorem beginPins_free {s : State} (h : Free s) : s.beginPins = s.effects (beginCalls s.cfg) := by
  rw [beginPins_calls, calls_free _ h]

theorem beginCalls_pins (cfg : Config) : (beginCalls cfg).flatMap Call.pins =
    match cfg.mode with
    | .sw => [.cs true, .sclk false, .mosi false]
    | .hw => [.cs true] := by
  unfold beginCalls
  cases cfg.mode
  · rfl
  · cases cfg.hasMiso <;> rfl

/-- The levels BEGIN drives, and the trace. -/
theorem begin_pins (s : State) :
    (s.effects (beginCalls s.cfg)).csN = .high ∧
      (s.cfg.mode = .sw → (s.effects (beginCalls s.cfg)).sclk = .low ∧ (s.effects (beginCalls s.cfg)).mosi = .low ∧
        (s.effects (beginCalls s.cfg)).trace = s.trace ++ [.cs true, .sclk false, .mosi false]) ∧
      (s.cfg.mode = .hw → (s.effects (beginCalls s.cfg)).sclk = s.sclk ∧ (s.effects (beginCalls s.cfg)).mosi = s.mosi ∧
        (s.effects (beginCalls s.cfg)).trace = s.trace ++ [.cs true]) := by
  unfold beginCalls
  cases s.cfg.mode
  · exact ⟨rfl, (fun h => by cases h), fun _ => ⟨rfl, rfl, rfl⟩⟩
  · cases s.cfg.hasMiso <;> exact ⟨rfl, fun _ => ⟨rfl, rfl, by simp [State.effects, Call.effect]⟩, fun h => by cases h⟩

/-- On an idle wire BEGIN latches nothing and leaves the wire idle, and the chip of a sound link as it was. -/
theorem begin_idle {s : State} (h : WireIdle s) :
    WireIdle (s.effects (beginCalls s.cfg)) ∧ (s.effects (beginCalls s.cfg)).rx.out = s.rx.out ∧
      (s.linkSound = true → (s.effects (beginCalls s.cfg)).mem = s.mem) := by
  have hrx := (emits_effects (beginCalls s.cfg) s).rx
  rw [beginCalls_pins] at hrx
  obtain ⟨hcs, hclk⟩ := h
  refine ⟨⟨?_, ?_⟩, ?_, fun hl => ?_⟩
  · cases hm : s.cfg.mode <;> simp [hrx, hm, Receiver.step]
  · cases hm : s.cfg.mode <;> simp [hrx, hm, Receiver.step, hclk]
  · cases hm : s.cfg.mode <;> simp [hrx, hm, Receiver.step, Receiver.latches, hcs]
  · have hq : s.rx.latches (.cs true) = none := by simp [Receiver.latches, hcs]
    have h1 : (s.drive .csN true).mem = s.mem := chipAfter_quiet _ _ hl hq
    have h2 : ∀ t : State, t.linkSound = true → ((t.drive .sclk false).drive .mosi false).mem = t.mem := fun t ht =>
      (chipAfter_quiet (t.drive .sclk false) (.mosi false) ht rfl).trans (chipAfter_quiet t (.sclk false) ht rfl)
    unfold beginCalls
    cases s.cfg.mode
    · exact h1
    · cases s.cfg.hasMiso <;> exact (h2 (s.drive .csN true) hl).trans h1

/-! Two stores in a row (SET_VOLUME, MUTE). -/

theorem twoWrites_sends (s : State) (r q : Reg) (p v : Word) :
    Sends s ((s.memWrite r p).memWrite q v) [assemble s.cfg r p, assemble s.cfg q v] := by
  have h := sendWord_sends s (assemble s.cfg r p)
  have hc : (s.memWrite r p).cfg = s.cfg := by obtain ⟨ps, -, e⟩ := h.part; exact e.cfg
  have g := sendWord_sends (s.memWrite r p) (assemble (s.memWrite r p).cfg q v)
  rw [hc] at g
  have e : (s.memWrite r p).memWrite q v = (s.memWrite r p).sendWord (assemble s.cfg q v) := by
    rw [State.memWrite, hc]
  rw [e]
  exact Sends.trans (t := s.memWrite r p) h g (by simp)

theorem memWrite_core {s : State} (f : Free s) (r : Reg) (p : Word) : SameCore s (s.memWrite r p) := by
  rw [memWrite_free f]; exact effects_core _ f

theorem twoWrites_core {s : State} (f : Free s) (r q : Reg) (p v : Word) :
    SameCore s ((s.memWrite r p).memWrite q v) :=
  have h := memWrite_core f r p
  h.trans (memWrite_core (h.free f) q v)

theorem twoWrites_mem {s : State} (f : Free s) (hc : s.cfg.wf = true) (r q : Reg) {p v : Word}
    (hp : p &&& 0x000F#16 = 0#16) (hv : v &&& 0x000F#16 = 0#16) (hi : WireIdle s) (hl : s.linkSound = true) :
    ((s.memWrite r p).memWrite q v).mem = writeRegister (writeRegister s.mem s.cfg r p) s.cfg q v := by
  have h := memWrite_core f r p
  have ht := ((sendWord_sends s (assemble s.cfg r p)).whole (h.free f).running).2.1
  rw [memWrite_mem (h.free f) (by rw [h.cfg]; exact hc) q hv (ht.idle hi) (h.linkSound.trans hl), h.cfg,
    memWrite_mem f hc r hp hi hl]

/-- One store after a mirror has been written (SET_GAIN, the features). -/
theorem ChipHolds.one {s t : State} {r : Reg} {p : Word} (h : t.mem = writeRegister s.mem s.cfg r p) :
    ChipHolds s t [(r, p)] where
  holds := by
    intro x hx
    simp only [List.mem_singleton] at hx
    subst hx
    rw [h]; exact readRegister_writeRegister _ _ _ _
  frame := by
    intro a ha
    rw [h]; exact readByte_writeRegister _ _ _ _ _ (ha (r, p) (by simp))

theorem ChipHolds.two {s t : State} (hc : s.cfg.wf = true) {r q : Reg} (hne : r ≠ q) {p v : Word}
    (h : t.mem = writeRegister (writeRegister s.mem s.cfg r p) s.cfg q v) : ChipHolds s t [(r, p), (q, v)] where
  holds := by
    intro x hx
    simp only [List.mem_cons, List.not_mem_nil, or_false] at hx
    rcases hx with e | e <;> subst e <;> rw [h]
    · rw [readRegister_writeRegister_ne hc _ _ hne]; exact readRegister_writeRegister _ _ _ _
    · exact readRegister_writeRegister _ _ _ _
  frame := by
    intro a ha
    rw [h, readByte_writeRegister _ _ _ _ _ (ha (q, v) (by simp)),
      readByte_writeRegister _ _ _ _ _ (ha (r, p) (by simp))]

/-! The exact events. -/

theorem bit_trace {g : Config → Bool → List Call} (hg : g = bitCallsSw ∨ g = bitCallsHw) (s : State) (b : Bool) :
    (s.effects (g s.cfg b)).trace = s.trace ++ bitWireEvents s.cfg.hasMiso b (Config.dataIn s.draws) := by
  rcases hg with rfl | rfl <;> simp only [bitCallsSw, bitCallsHw, dataInCalls, bitWireEvents] <;>
    cases s.cfg.hasMiso <;> simp [State.effects, Call.effect]

/-- A run of bits by either strategy: each bit's events with some data-in level. -/
theorem bits_trace {g : Config → Bool → List Call} (hg : g = bitCallsSw ∨ g = bitCallsHw) (bs : List Bool) (s : State) :
    ∃ ds : List Bool, ds.length = bs.length ∧ (s.effects (bs.flatMap (g s.cfg))).trace =
      s.trace ++ (List.zip bs ds).flatMap fun p => bitWireEvents s.cfg.hasMiso p.1 p.2 := by
  induction bs generalizing s with
  | nil => exact ⟨[], rfl, by simp⟩
  | cons b bs ih =>
    obtain ⟨ds, h1, h2⟩ := ih (s.effects (g s.cfg b))
    rw [(emits_effects _ s).cfg] at h2
    refine ⟨Config.dataIn s.draws :: ds, by simp [h1], ?_⟩
    rw [List.flatMap_cons, effects_append, h2, bit_trace hg]
    simp

/-- A byte by either strategy (R136, R137). -/
theorem byte_trace {g : Config → Bool → List Call} (hg : g = bitCallsSw ∨ g = bitCallsHw) (b : Byte) (s : State) :
    ∃ ds : List Bool, ds.length = 8 ∧ (s.effects ((msbBits b).flatMap (g s.cfg))).trace =
      s.trace ++ byteWireEvents s.cfg.hasMiso b ds := by
  obtain ⟨ds, h1, h2⟩ := bits_trace hg (msbBits b) s
  refine ⟨ds, by rw [h1, msbBits_length], ?_⟩
  rw [h2, msbBits_byte]
  rfl

/-- The sixteen bits of a word by either strategy (R138, R139). -/
theorem wordBits_trace {g : Config → Bool → List Call} (hg : g = bitCallsSw ∨ g = bitCallsHw) (w : Word) (s : State) :
    ∃ ds es : List Bool, ds.length = 8 ∧ es.length = 8 ∧ (s.effects ((wordBits w).flatMap (g s.cfg))).trace =
      s.trace ++ (byteWireEvents s.cfg.hasMiso (w.extractLsb' 8 8) ds ++
        byteWireEvents s.cfg.hasMiso (w.extractLsb' 0 8) es) := by
  obtain ⟨ds, h1, h2⟩ := byte_trace hg (hi8 w) s
  obtain ⟨es, g1, g2⟩ := byte_trace hg (lo8 w) (s.effects ((msbBits (hi8 w)).flatMap (g s.cfg)))
  rw [(emits_effects _ s).cfg] at g2
  refine ⟨ds, es, h1, g1, ?_⟩
  rw [wordBits, List.flatMap_append, effects_append, g2, h2, List.append_assoc]
  rfl

theorem byteWireEvents_length (m : Bool) (b : Byte) (ds : List Bool) (h : ds.length = 8) :
    (byteWireEvents m b ds).length = if m then 32 else 24 := by
  match ds, h with
  | [_, _, _, _, _, _, _, _], _ => cases m <;> simp [byteWireEvents, bitWireEvents]

theorem SameCore.handBack {s t : State} (h : SameCore s t) (r : Result) : SameCore s (t.handBack r) :=
  ⟨h.cfg, h.gainMirror, h.statesMirror, h.err, h.init, h.seq, h.inputs, h.returns, h.blocked, h.linkSound⟩

theorem Transmitted.handBack {s t : State} {ws : List Word} (h : Transmitted s t ws) (r : Result) :
    Transmitted s (t.handBack r) ws :=
  ⟨h.grows, h.pins, h.view, fun hi => ⟨(h.idle hi).cs, (h.idle hi).clk⟩, h.csN, h.sw, h.hw⟩

/-! A mirror written and sent (SET_GAIN, the feature operations). -/

theorem Transmitted.ofGain {s t : State} {m : Word} {ws : List Word}
    (h : Transmitted { s with gainMirror := m } t ws) : Transmitted s t ws :=
  ⟨h.grows, h.pins, fun hi => h.view ⟨hi.cs, hi.clk⟩, fun hi => h.idle ⟨hi.cs, hi.clk⟩, h.csN, h.sw, h.hw⟩

theorem Transmitted.ofStates {s t : State} {m : Word} {ws : List Word}
    (h : Transmitted { s with statesMirror := m } t ws) : Transmitted s t ws :=
  ⟨h.grows, h.pins, fun hi => h.view ⟨hi.cs, hi.clk⟩, fun hi => h.idle ⟨hi.cs, hi.clk⟩, h.csN, h.sw, h.hw⟩

/-- The gain mirror assigned `m` and sent. -/
def State.storeGain (m : Word) (s : State) : State := { s with gainMirror := m }.memWrite .gain m

/-- The states mirror assigned `m` and sent. -/
def State.storeStates (m : Word) (s : State) : State := { s with statesMirror := m }.memWrite .states m

theorem gainFeature_eq (f : Feature) (e : Bool) (s : State) :
    s.gainFeature f e = (s.storeGain (setFeature f e s.gainMirror)).handBack .none := rfl

theorem statesFeature_eq (f : Feature) (e : Bool) (s : State) :
    s.statesFeature f e = (s.storeStates (setFeature f e s.statesMirror)).handBack .none := rfl

theorem storeGain_sends (s : State) (m : Word) :
    Sends { s with gainMirror := m } (s.storeGain m) [assemble s.cfg .gain m] := sendWord_sends _ _

theorem storeStates_sends (s : State) (m : Word) :
    Sends { s with statesMirror := m } (s.storeStates m) [assemble s.cfg .states m] := sendWord_sends _ _

theorem storeGain_core {s : State} (f : Free s) (m : Word) : SameCore { s with gainMirror := m } (s.storeGain m) :=
  memWrite_core (s := { s with gainMirror := m }) ⟨f.returns, f.running⟩ .gain m

theorem storeStates_core {s : State} (f : Free s) (m : Word) :
    SameCore { s with statesMirror := m } (s.storeStates m) :=
  memWrite_core (s := { s with statesMirror := m }) ⟨f.returns, f.running⟩ .states m

theorem storeGain_transmitted {s : State} (f : Free s) (m : Word) :
    Transmitted s (s.storeGain m) [assemble s.cfg .gain m] :=
  ((storeGain_sends s m).whole ((storeGain_core f m).blocked.trans f.running)).2.1.ofGain

theorem storeStates_transmitted {s : State} (f : Free s) (m : Word) :
    Transmitted s (s.storeStates m) [assemble s.cfg .states m] :=
  ((storeStates_sends s m).whole ((storeStates_core f m).blocked.trans f.running)).2.1.ofStates

theorem storeGain_chip {s : State} {m : Word} (f : Free s) (hc : s.cfg.wf = true) (hi : WireIdle s)
    (hl : s.linkSound = true) (hm : m &&& 0x000F#16 = 0#16) : ChipHolds s (s.storeGain m) [(.gain, m)] :=
  ChipHolds.one (memWrite_mem (s := { s with gainMirror := m }) ⟨f.returns, f.running⟩ hc .gain hm ⟨hi.cs, hi.clk⟩ hl)

theorem storeStates_chip {s : State} {m : Word} (f : Free s) (hc : s.cfg.wf = true) (hi : WireIdle s)
    (hl : s.linkSound = true) (hm : m &&& 0x000F#16 = 0#16) : ChipHolds s (s.storeStates m) [(.states, m)] :=
  ChipHolds.one
    (memWrite_mem (s := { s with statesMirror := m }) ⟨f.returns, f.running⟩ hc .states hm ⟨hi.cs, hi.clk⟩ hl)

/-! Payloads (40_encoder.md R119): every one an operation sends has its low four bits clear. -/

/-- A truncated multiple of a power of two is a shifted word. -/
theorem ofInt_mul_two_pow (z : Int) (k : Nat) : BitVec.ofInt 16 (z * 2 ^ k) = BitVec.ofInt 16 z <<< k := by
  rw [BitVec.shiftLeft_eq_mul_twoPow, BitVec.ofInt_mul]
  congr 1
  apply BitVec.eq_of_toNat_eq
  simp [BitVec.toNat_twoPow]
  norm_cast

/-- A word shifted up by `k` has its low `k` bits clear. -/
theorem shifted_low_clear (w : Word) (k j : Nat) (h : j < k) : (w <<< k).getLsbD j = false := by
  simp [h]

theorem atten_eq_shift (v : Int) : atten v = BitVec.ofInt 16 (32 - v) <<< 7 := by
  rw [← ofInt_mul_two_pow]
  unfold atten trunc16
  congr 1
  ring

theorem atten_payload (v : Int) : atten v &&& 0x000F#16 = 0#16 := by
  apply word_ext
  intro i hi
  rw [atten_eq_shift, BitVec.getLsbD_and, BitVec.getLsbD_zero]
  interval_cases i <;> simp

theorem gainCode_eq (g : Int) : gainCode g = BitVec.ofInt 16 g <<< 12 ||| BitVec.ofInt 16 g <<< 9 := by
  apply word_ext
  intro i hi
  unfold gainCode trunc16
  rw [getLsbD_setBit _ _ _ _ hi, ofInt_mul_two_pow, ofInt_mul_two_pow]
  split
  · rename_i h; subst h; simp
  · rfl

theorem gainCode_payload (g : Int) : gainCode g &&& 0x000F#16 = 0#16 := by
  apply word_ext
  intro i hi
  rw [gainCode_eq, BitVec.getLsbD_and, BitVec.getLsbD_or, BitVec.getLsbD_zero]
  interval_cases i <;> simp

theorem getLsbD_setFeature (f : Feature) (e : Bool) (m : Word) (j : Nat) (hj : j < 16) :
    (setFeature f e m).getLsbD j = if j = (flagBit f e).1 then (flagBit f e).2 else m.getLsbD j :=
  getLsbD_setBit m _ j _ hj

/-- A feature bit is no bit of the select and chip fields. -/
theorem setFeature_payload (f : Feature) (e : Bool) {m : Word} (h : m &&& 0x000F#16 = 0#16) :
    setFeature f e m &&& 0x000F#16 = 0#16 := by
  apply word_ext
  intro i hi
  have hb := congrArg (fun v : Word => v.getLsbD i) h
  simp only [BitVec.getLsbD_and, BitVec.getLsbD_zero] at hb ⊢
  rw [getLsbD_setFeature f e m i hi]
  cases f <;> interval_cases i <;> simp_all [flagBit]

/-- A latched word, in the terms of the statements. -/
theorem ChipTook.of_latch {s t : State} {w : Word} (hc : s.cfg.wf = true)
    (h : t.mem = latchWord s.cfg w s.mem) : ChipTook s t w where
  other := by
    intro hn a
    rw [h]
    simp [latchWord, hn]
  this := by
    intro he r hr
    exact ChipHolds.one (by rw [h, latchWord_hit hc s.mem he hr])

end Sys2Proof.Machine
end

