-- ==== Sys2Proof/Laws/Framer.lean ====
section
/-! SUPPORT. The framer (41_transport.md R145) against the calls of a word: at its `j`-th position it makes the word's `j`-th
call and goes to the next one; and where a transfer is held when a call of it hangs (70_reset_and_hazards.md R226). -/

namespace Sys2Proof.Machine

/-- The events of one word by the software strategy (41_transport.md R138). -/
def wordEvents (cfg : Config) : Nat := if cfg.hasMiso then 66 else 50

theorem wordBits_eq (w : Word) : wordBits w =
    [w.getLsbD 15, w.getLsbD 14, w.getLsbD 13, w.getLsbD 12, w.getLsbD 11, w.getLsbD 10, w.getLsbD 9, w.getLsbD 8,
      w.getLsbD 7, w.getLsbD 6, w.getLsbD 5, w.getLsbD 4, w.getLsbD 3, w.getLsbD 2, w.getLsbD 1, w.getLsbD 0] := by
  rw [wordBits, msbBits_byte, msbBits_byte]
  simp [hi8, lo8]

theorem wordCallsSw_length (cfg : Config) (w : Word) : (wordCallsSw cfg w).length = wordEvents cfg := by
  rw [wordCallsSw, wordBits_eq, wordEvents]
  cases h : cfg.hasMiso <;> simp [bitCallsSw, dataInCalls, h]

/-- Each call of a word appends one event. -/
theorem wordCallsSw_events (cfg : Config) (w : Word) : ∀ c ∈ wordCallsSw cfg w, c.events = 1 := by
  intro c hc
  simp only [wordCallsSw, bitCallsSw, dataInCalls, List.mem_append, List.mem_flatMap, List.mem_singleton] at hc
  rcases hc with (rfl | ⟨b, -, (h | h) | rfl⟩) | rfl
  · rfl
  · simp only [List.mem_cons, List.not_mem_nil, or_false] at h
    rcases h with rfl | rfl <;> rfl
  · split at h <;> simp at h
    rw [h]; rfl
  · rfl
  · rfl

theorem effect_trace_length (c : Call) (s : State) : (c.effect s).trace.length = s.trace.length + c.events := by
  cases c with
  | silent => rfl
  | drive p l => cases p <;> simp [Call.effect, State.drive, State.setPin, Call.events]
  | emit e => simp [Call.effect, Call.events]
  | sample => simp [Call.effect, Call.events]

theorem effects_trace_length {cs : List Call} (h : ∀ c ∈ cs, c.events = 1) (s : State) :
    (s.effects cs).trace.length = s.trace.length + cs.length := by
  induction cs generalizing s with
  | nil => rfl
  | cons c cs ih =>
    rw [effects_cons, ih (fun x hx => h x (List.mem_cons_of_mem _ hx)), effect_trace_length, h c List.mem_cons_self,
      List.length_cons]
    omega

/-- A transfer is never idle. -/
theorem framerPosition_ne_idle (cfg : Config) (w : Word) (n : Nat) : framerPosition cfg w n ≠ .idle := by
  unfold framerPosition
  split
  · simp
  · split <;> simp

/-- The framer's line at the `j`-th position of a word: the word's `j`-th call, then the next position. -/
theorem framerStep_call {s : State} {w : Word} {j : Nat} {c : Call} (hm : s.cfg.mode = .sw)
    (hc : (wordCallsSw s.cfg w)[j]? = some c) (hs : s.seq = framerPosition s.cfg w j) :
    framerStep s = some ((s.call c.effect).advance
      (if j + 1 = wordEvents s.cfg then .idle else framerPosition s.cfg w (j + 1))) := by
  have hj : j < wordEvents s.cfg := by
    rw [← wordCallsSw_length s.cfg w]; exact (List.getElem?_eq_some_iff.1 hc).1
  rw [wordCallsSw, wordBits_eq] at hc
  cases hh : s.cfg.hasMiso
  all_goals
    simp only [wordEvents, hh, if_true, Bool.false_eq_true, if_false] at hj
    simp only [List.flatMap_cons, List.flatMap_nil, bitCallsSw, dataInCalls, hh, List.cons_append, List.nil_append,
      List.append_nil, if_true, Bool.false_eq_true, if_false] at hc
    interval_cases j
  all_goals
    simp only [List.getElem?_cons_succ, List.getElem?_cons_zero, Option.some.injEq] at hc
    subst hc
    unfold framerStep
    rw [hm, hs]
    simp [framerPosition, bitEvents, hh, wordEvents, State.digitalWrite, State.digitalRead, Call.effect]
    try rfl

/-- A word of the software strategy whose `n`-th call is the last to return is held at the framer's `n`-th position, its
first `n` calls done. -/
theorem sendWordSw_held {s : State} {w : Word} {n : Nat} (hb : s.blocked = false) (hr : s.returns = some n)
    (hn : n < wordEvents s.cfg) :
    s.sendWordSw w = ((s.effects ((wordCallsSw s.cfg w).take n)).hang (some 0) true).moveTo
      (framerPosition s.cfg w n) := by
  have e := bracketSw_calls s w
  rw [calls_count _ hr hb, wordCallsSw_length, if_neg (by omega)] at e
  have l : ((s.effects ((wordCallsSw s.cfg w).take n)).hang (some 0) true).trace.length = s.trace.length + n := by
    refine (effects_trace_length (fun c hc => wordCallsSw_events _ _ c (List.mem_of_mem_take hc)) s).trans ?_
    rw [List.length_take, wordCallsSw_length]
    omega
  unfold State.sendWordSw State.transfer
  rw [if_neg (by simp [hb]), e]
  simp only []
  refine (if_pos rfl).trans ?_
  rw [l, show s.trace.length + n - s.trace.length - 0 = n by omega]
  rfl

/-- A step inside a transfer is a line of the framer. -/
theorem step_framer {s t : State} (hc : s.cfg.wf = true) (hq : s.seq ≠ .idle) (hb : s.blocked = false)
    (hi : s.interrupted = false) (h : framerStep s = some t) : step s = .next t := by
  unfold step continueTransfer
  rw [if_pos hc, if_neg (by simp [hq, hb, hi]), h]

end Sys2Proof.Machine
end

