-- ==== Sys2Proof/Laws/PerInstr.lean ====
section
/-! SUPPORT. Every instruction beside its row of spec/opcode_table.json: its encoding under the reference configuration
has the row's match bits under the row's mask; a row of format PRIM has no encoding. -/

open Sys2Proof Sys2Proof.Machine

/-- The encoding `e` is a control word whose bits under the mask 0x000C are `sel` (the rows of format CW). -/
def Sys2Proof.Laws.TableRow.IsWord (sel : Word) (e : Option Issue) : Prop :=
  ∃ w : Word, e = some (framesOf w) ∧ w &&& 0x000C#16 = sel

/-- The encoding `e` is a command with the code `code` under the mask 0x7 (the rows of format CMD). -/
def Sys2Proof.Laws.TableRow.IsCommand (code : Nat) (e : Option Issue) : Prop :=
  ∃ p : CommandPort, e = some (.command p) ∧ p.code.toNat = code

/-- The row of the instruction's own mnemonic describes its encoding. -/
def Sys2Proof.Laws.TableRow.Statement (i : Instr) : Prop :=
  match i with
  | .attL _ _ => Sys2Proof.Laws.TableRow.IsWord 0x0000#16 (encode Config.ref i)
  | .attR _ _ => Sys2Proof.Laws.TableRow.IsWord 0x0004#16 (encode Config.ref i)
  | .gain _ _ => Sys2Proof.Laws.TableRow.IsWord 0x0008#16 (encode Config.ref i)
  | .states _ _ => Sys2Proof.Laws.TableRow.IsWord 0x000C#16 (encode Config.ref i)
  | .beginOp => Sys2Proof.Laws.TableRow.IsCommand 0 (encode Config.ref i)
  | .setVolume _ _ => Sys2Proof.Laws.TableRow.IsCommand 1 (encode Config.ref i)
  | .setGain _ => Sys2Proof.Laws.TableRow.IsCommand 2 (encode Config.ref i)
  | .mute => Sys2Proof.Laws.TableRow.IsCommand 3 (encode Config.ref i)
  | .setZeroCrossing _ => Sys2Proof.Laws.TableRow.IsCommand 4 (encode Config.ref i)
  | .setExternalClock _ => Sys2Proof.Laws.TableRow.IsCommand 5 (encode Config.ref i)
  | .setLinkChannels _ => Sys2Proof.Laws.TableRow.IsCommand 6 (encode Config.ref i)
  | .getStatus => Sys2Proof.Laws.TableRow.IsCommand 7 (encode Config.ref i)
  | .volumeValid _ => encode Config.ref i = none
  | .atten _ => encode Config.ref i = none
  | .gainCode _ => encode Config.ref i = none
  | .gainValid _ => encode Config.ref i = none
  | .assemble _ _ => encode Config.ref i = none
  | .flagBit _ _ => encode Config.ref i = none
  | .shiftByteSw _ => encode Config.ref i = none
  | .shiftByteHw _ => encode Config.ref i = none
  | .sendWordSw _ => encode Config.ref i = none
  | .sendWordHw _ => encode Config.ref i = none
  | .sendWord _ => encode Config.ref i = none

/-- The select bits of a control word are its register's constant. -/
theorem Sys2Proof.Laws.TableRow.controlWord_select {cfg : Config} (h : cfg.wf = true) (r : Reg) (p : BitVec 12)
    (c : BitVec 2) : controlWord cfg r p c &&& 0x000C#16 = selConst cfg r := by
  apply word_ext
  intro i hi
  rcases selConst_cases h r with e | e | e | e <;> unfold controlWord <;> rw [e] <;>
    interval_cases i <;> simp

theorem Sys2Proof.Laws.TableRow.attL (payload : BitVec 12) (chip : BitVec 2) :
    Sys2Proof.Laws.TableRow.Statement (.attL payload chip) :=
  ⟨_, rfl, Sys2Proof.Laws.TableRow.controlWord_select (by decide) .attL payload chip⟩

theorem Sys2Proof.Laws.TableRow.attR (payload : BitVec 12) (chip : BitVec 2) :
    Sys2Proof.Laws.TableRow.Statement (.attR payload chip) :=
  ⟨_, rfl, Sys2Proof.Laws.TableRow.controlWord_select (by decide) .attR payload chip⟩

theorem Sys2Proof.Laws.TableRow.gain (payload : BitVec 12) (chip : BitVec 2) :
    Sys2Proof.Laws.TableRow.Statement (.gain payload chip) :=
  ⟨_, rfl, Sys2Proof.Laws.TableRow.controlWord_select (by decide) .gain payload chip⟩

theorem Sys2Proof.Laws.TableRow.states (payload : BitVec 12) (chip : BitVec 2) :
    Sys2Proof.Laws.TableRow.Statement (.states payload chip) :=
  ⟨_, rfl, Sys2Proof.Laws.TableRow.controlWord_select (by decide) .states payload chip⟩

theorem Sys2Proof.Laws.TableRow.beginOp : Sys2Proof.Laws.TableRow.Statement .beginOp := ⟨_, rfl, rfl⟩

theorem Sys2Proof.Laws.TableRow.setVolume (left right : Int) :
    Sys2Proof.Laws.TableRow.Statement (.setVolume left right) := ⟨_, rfl, rfl⟩

theorem Sys2Proof.Laws.TableRow.setGain (value : Int) : Sys2Proof.Laws.TableRow.Statement (.setGain value) :=
  ⟨_, rfl, rfl⟩

theorem Sys2Proof.Laws.TableRow.mute : Sys2Proof.Laws.TableRow.Statement .mute := ⟨_, rfl, rfl⟩

theorem Sys2Proof.Laws.TableRow.setZeroCrossing (enabled : Bool) :
    Sys2Proof.Laws.TableRow.Statement (.setZeroCrossing enabled) := ⟨_, rfl, rfl⟩

theorem Sys2Proof.Laws.TableRow.setExternalClock (enabled : Bool) :
    Sys2Proof.Laws.TableRow.Statement (.setExternalClock enabled) := ⟨_, rfl, rfl⟩

theorem Sys2Proof.Laws.TableRow.setLinkChannels (enabled : Bool) :
    Sys2Proof.Laws.TableRow.Statement (.setLinkChannels enabled) := ⟨_, rfl, rfl⟩

theorem Sys2Proof.Laws.TableRow.getStatus : Sys2Proof.Laws.TableRow.Statement .getStatus := ⟨_, rfl, rfl⟩

theorem Sys2Proof.Laws.TableRow.volumeValid (v : Int) : Sys2Proof.Laws.TableRow.Statement (.volumeValid v) := rfl

theorem Sys2Proof.Laws.TableRow.atten (v : Int) : Sys2Proof.Laws.TableRow.Statement (.atten v) := rfl

theorem Sys2Proof.Laws.TableRow.gainCode (g : Int) : Sys2Proof.Laws.TableRow.Statement (.gainCode g) := rfl

theorem Sys2Proof.Laws.TableRow.gainValid (g : Int) : Sys2Proof.Laws.TableRow.Statement (.gainValid g) := rfl

theorem Sys2Proof.Laws.TableRow.assemble (sel : Reg) (payload : Word) :
    Sys2Proof.Laws.TableRow.Statement (.assemble sel payload) := rfl

theorem Sys2Proof.Laws.TableRow.flagBit (feature : Feature) (enabled : Bool) :
    Sys2Proof.Laws.TableRow.Statement (.flagBit feature enabled) := rfl

theorem Sys2Proof.Laws.TableRow.shiftByteSw (b : Byte) : Sys2Proof.Laws.TableRow.Statement (.shiftByteSw b) := rfl

theorem Sys2Proof.Laws.TableRow.shiftByteHw (b : Byte) : Sys2Proof.Laws.TableRow.Statement (.shiftByteHw b) := rfl

theorem Sys2Proof.Laws.TableRow.sendWordSw (w : Word) : Sys2Proof.Laws.TableRow.Statement (.sendWordSw w) := rfl

theorem Sys2Proof.Laws.TableRow.sendWordHw (w : Word) : Sys2Proof.Laws.TableRow.Statement (.sendWordHw w) := rfl

theorem Sys2Proof.Laws.TableRow.sendWord (w : Word) : Sys2Proof.Laws.TableRow.Statement (.sendWord w) := rfl
end

