-- ==== Sys2Proof/Tests/Slice0.lean ====
section
/-! SUPPORT. Small tests, their expected values from spec/95_test_vectors.md, and for every statement with hypotheses a
witness that meets them. -/

namespace Sys2Proof.Tests

open Sys2Proof.Machine

set_option Elab.async false

/-- The state an instruction leaves, or the state before it where it stops. -/
def after (i : Instr) (s : State) : State :=
  match exec i s with
  | .next t => t
  | .fault _ => s
  | .refused _ => s

/-- The refusal an instruction ends in, if it does. -/
def refusal (i : Instr) (s : State) : Option Refusal :=
  match exec i s with
  | .refused r => some r
  | .next _ => none
  | .fault _ => none

/-- The words the receiver has latched. -/
def words (s : State) : List Latched := s.rx.out

/-- The software strategy without data-in, BEGIN done. -/
def cfgSw : Config := { Config.ref with hasMiso := false, pinDin := none }

/-- The hardware strategy. -/
def cfgHw : Config := { Config.ref with mode := .hw, spiPeripheral := some 0 }

/-- A fresh handle with a configuration. -/
def fresh (c : Config) : State := State.reset.freshHandle c

/-- A begun handle with a configuration. -/
def begun (c : Config) : State := after .beginOp (fresh c)

/-- A begun handle of which `n` more calls return. -/
def failing (c : Config) (n : Nat) : State := { begun c with returns := some n }

/-- A begun handle whose link cannot be trusted. -/
def unsound : State := { begun cfgSw with linkSound := false }

/-- A begun handle that rejects positive gains. -/
def strict : State := begun { Config.ref with gainRejectPositive := true }

/-! ## Configurations (95_test_vectors.md 2.3; 30_encoding.md R82, R96; 00_scope.md R6) -/

theorem test_wf_ref : Config.ref.wf = true := by decide

theorem test_wf_nearest : { Config.ref with chipAddr := 3, mirrorResetGain := 0x0100#16 }.wf = true := by decide

theorem test_wf_chip_addr : { Config.ref with chipAddr := 4 }.wf = false := by decide

theorem test_wf_select_over_chip : { Config.ref with selAttL := 0x0001#16 }.wf = false := by decide

theorem test_wf_select_twice : { Config.ref with selAttL := 0x0004#16 }.wf = false := by decide

theorem test_wf_select_over_payload : { Config.ref with selGain := 0x0010#16 }.wf = false := by decide

theorem test_wf_mirror_gain : { Config.ref with mirrorResetGain := 0x0004#16 }.wf = false := by decide

theorem test_wf_mirror_states : { Config.ref with mirrorResetStates := 0x0001#16 }.wf = false := by decide

theorem test_wf_pins_equal : { Config.ref with pinDout := 0 }.wf = false := by decide

theorem test_wf_pin_din_missing : { Config.ref with pinDin := none }.wf = false := by decide

theorem test_wf_pin_din_taken : { Config.ref with pinDin := some 3 }.wf = false := by decide

theorem test_wf_port_width : { Config.ref with wVal := 9 }.wf = false := by decide

theorem test_wf_clock : { Config.ref with spiClockDefaultHz := 2 }.wf = false := by decide

theorem test_wf_vol_min : { Config.ref with volMin := -448 }.wf = false := by decide

theorem test_wf_vol_max : { Config.ref with volMax := 1 }.wf = false := by decide

theorem test_wf_peripheral_missing : { Config.ref with mode := .hw }.wf = false := by decide

theorem test_wf_peripheral_unused : { Config.ref with spiPeripheral := some 0 }.wf = false := by decide

theorem test_wf_hw : cfgHw.wf = true := by decide

theorem test_wf_volume_port : (Instr.setVolume 0 32768).wf Config.ref = false := by decide

theorem test_wf_volume_port_left : (Instr.setVolume (-32769) 0).wf Config.ref = false := by decide

theorem test_wf_gain_port : (Instr.setGain (-32769)).wf Config.ref = false := by decide

theorem test_wf_ports_full : (Instr.setVolume (-32768) 32767).wf Config.ref = true := by decide

/-! ## Decoding: control words from 30_encoding.md R84 to R87, bit by bit, and the command codes of R98 -/

theorem test_decode_att_l : decode Config.ref (.frames [0b11101111#8, 0b10000010#8]) =
    .ok (.attL 0b111011111000#12 0b10#2) := by decide

theorem test_decode_att_r : decode Config.ref (.frames [0b11101111#8, 0b10000110#8]) =
    .ok (.attR 0b111011111000#12 0b10#2) := by decide

theorem test_decode_gain : decode Config.ref (.frames [0b01111110#8, 0b00001011#8]) =
    .ok (.gain 0b011111100000#12 0b11#2) := by decide

theorem test_decode_states : decode Config.ref (.frames [0b00000010#8, 0b00001111#8]) =
    .ok (.states 0b000000100000#12 0b11#2) := by decide

theorem test_decode_begin : decode Config.ref (.command ⟨0b000#3, 0, 0, 0, false⟩) = .ok .beginOp := by decide

theorem test_decode_set_volume :
    decode Config.ref (.command ⟨0b001#3, 0xFFEC, 0xFF9C, 0, false⟩) = .ok (.setVolume (-20) (-100)) := by decide

theorem test_decode_set_gain : decode Config.ref (.command ⟨0b010#3, 0, 0, 0x8000, false⟩) =
    .ok (.setGain (-32768)) := by decide

theorem test_decode_mute : decode Config.ref (.command ⟨0b011#3, 0, 0, 0, false⟩) = .ok .mute := by decide

theorem test_decode_zero_crossing : decode Config.ref (.command ⟨0b100#3, 0, 0, 0, true⟩) =
    .ok (.setZeroCrossing true) := by decide

theorem test_decode_external_clock : decode Config.ref (.command ⟨0b101#3, 0, 0, 0, false⟩) =
    .ok (.setExternalClock false) := by decide

theorem test_decode_link : decode Config.ref (.command ⟨0b110#3, 0, 0, 0, true⟩) =
    .ok (.setLinkChannels true) := by decide

theorem test_decode_get_status : decode Config.ref (.command ⟨0b111#3, 0, 0, 0, false⟩) = .ok .getStatus := by decide

theorem test_decode_three_frames : decode Config.ref (.frames [0#8, 0#8, 0#8]) = .error .malformedBracket := by decide

theorem test_decode_wide_port : decode Config.ref (.command ⟨0b010#3, 0, 0, 0x10000, false⟩) =
    .error .portTooWide := by decide

/-! ## Encoder primitives (95_test_vectors.md 2.1 to 2.4) -/

theorem test_volume_valid : (after (.volumeValid (-447)) State.reset).result = .bool true := by decide

theorem test_volume_invalid : (after (.volumeValid (-448)) State.reset).result = .bool false := by decide

theorem test_atten : (after (.atten (-447)) State.reset).result = .word 0xEF80#16 := by decide

theorem test_atten_truncates : (after (.atten (-32768)) State.reset).result = .word 0x1000#16 := by decide

theorem test_gaincode : (after (.gainCode 9) State.reset).result = .word 0x9200#16 := by decide

theorem test_gaincode_negative : (after (.gainCode (-2)) State.reset).result = .word 0xFC00#16 := by decide

theorem test_gain_valid : (after (.gainValid 1) State.reset).result = .bool true := by decide

theorem test_gain_rejected : (after (.gainValid 1) strict).result = .bool false := by decide

theorem test_assemble : (after (.assemble .attR 0xEF80#16) (fresh { Config.ref with chipAddr := 2 })).result =
    .word 0xEF86#16 := by decide

theorem test_flag_zero_crossing : (after (.flagBit .zeroCrossing true) State.reset).result = .flag 8 false := by decide

theorem test_flag_link : (after (.flagBit .link true) State.reset).result = .flag 15 true := by decide

/-! ## Transport primitives (95_test_vectors.md 2.5; R136's and R137's examples) -/

theorem test_shift_byte_sw : ((after (.shiftByteSw 0xA5#8) (begun cfgSw)).trace.drop 3).take 9 =
    [.mosi true, .sclk true, .sclk false, .mosi false, .sclk true, .sclk false, .mosi true, .sclk true,
      .sclk false] := by decide +kernel

theorem test_shift_byte_hw : (pinTrace ((after (.shiftByteHw 0x10#8) (begun cfgHw)).trace.drop 1)).take 12 =
    [.mosi false, .sclk true, .sclk false, .mosi false, .sclk true, .sclk false, .mosi false, .sclk true, .sclk false,
      .mosi true, .sclk true, .sclk false] := by decide +kernel

/-- V-TR-1: three events of BEGIN, then fifty. -/
theorem test_send_word_sw : (after (.sendWordSw 0x1000#16) (begun cfgSw)).trace.length = 53 ∧
    words (after (.sendWordSw 0x1000#16) (begun cfgSw)) = [.word 0x1000#16] := by decide +kernel

/-- V-TR-3: 66 events with data-in. -/
theorem test_send_word_sw_miso : (after (.sendWordSw 0xA55A#16) (begun Config.ref)).trace.length = 69 ∧
    words (after (.sendWordSw 0xA55A#16) (begun Config.ref)) = [.word 0xA55A#16] := by decide +kernel

/-- V-TR-4: the transaction is outermost. -/
theorem test_send_word_hw : ((after (.sendWordHw 0x020F#16) (begun cfgHw)).trace.drop 1).take 2 = [.txnBegin, .cs false] ∧
    (after (.sendWordHw 0x020F#16) (begun cfgHw)).trace.getLast? = some .txnEnd ∧
    words (after (.sendWordHw 0x020F#16) (begun cfgHw)) = [.word 0x020F#16] := by decide +kernel

theorem test_send_word_follows_mode : (after (.sendWord 0xEF84#16) (begun cfgHw)).trace.getLast? = some .txnEnd ∧
    (after (.sendWord 0xEF84#16) (begun cfgSw)).trace.getLast? = some (.cs true) := by decide +kernel

/-- V-TR-6: a bracket of one clock is malformed; with chip-select high nothing is latched. -/
theorem test_device_view_malformed :
    deviceView [.cs false, .mosi true, .sclk true, .sclk false, .cs true] = [.malformed] ∧
    deviceView [.mosi true, .sclk true, .sclk false] = [] := by decide

/-! ## Operations (95_test_vectors.md 2.6) -/

/-- V-OP-18's event list. -/
theorem test_begin : (begun cfgSw).trace = [.cs true, .sclk false, .mosi false] ∧ (begun cfgSw).init = true ∧
    (begun cfgSw).sclk = .low := by decide

/-- V-TR-5. -/
theorem test_begin_hw : (begun cfgHw).trace = [.cs true] ∧ (begun cfgHw).sclk = .undriven := by decide

/-- V-OP-7. -/
theorem test_set_volume : words (after (.setVolume (-20) (-100)) (begun cfgSw)) = [.word 0x1A00#16, .word 0x4204#16] ∧
    (after (.setVolume (-20) (-100)) (begun cfgSw)).result = .bool true := by decide +kernel

/-- V-OP-4: the valid left word is not sent. -/
theorem test_set_volume_right_invalid : words (after (.setVolume 0 1) (begun cfgSw)) = [] ∧
    (after (.setVolume 0 1) (begun cfgSw)).err = .valueError ∧
    (after (.setVolume 0 1) (begun cfgSw)).result = .bool false := by decide +kernel

/-- V-OP-11: the link bit set by the value. -/
theorem test_set_gain : words (after (.setGain 8) (begun cfgSw)) = [.word 0x9008#16] ∧
    (after (.setGain 8) (begun cfgSw)).gainMirror = 0x9000#16 := by decide +kernel

/-- V-OP-19. -/
theorem test_set_gain_rejected : words (after (.setGain 3) strict) = [] ∧
    (after (.setGain 3) strict).gainMirror = 0x0000#16 ∧ (after (.setGain 3) strict).err = .valueError := by
  decide +kernel

/-- V-OP-8, at chip address 3 (the table of 2.3). -/
theorem test_mute : words (after .mute (begun { cfgSw with chipAddr := 3 })) = [.word 0x0003#16, .word 0x0007#16] := by
  decide +kernel

/-- V-OP-12, its middle step. -/
theorem test_zero_crossing_off : words (after (.setZeroCrossing false) (begun cfgSw)) = [.word 0x0108#16] ∧
    (after (.setZeroCrossing false) (begun cfgSw)).gainMirror = 0x0100#16 := by decide +kernel

/-- V-OP-14, its first step. -/
theorem test_external_clock_off : words (after (.setExternalClock false) (begun cfgSw)) = [.word 0x020C#16] ∧
    (after (.setExternalClock false) (begun cfgSw)).statesMirror = 0x0200#16 := by decide +kernel

/-- V-OP-13, its first step. -/
theorem test_link_on : words (after (.setLinkChannels true) (begun cfgSw)) = [.word 0x8008#16] ∧
    (after (.setLinkChannels true) (begun cfgSw)).gainMirror = 0x8000#16 := by decide +kernel

/-- V-OP-17, its second step: the error is sticky. -/
theorem test_get_status : (after .getStatus (after (.setVolume 1 0) (begun cfgSw))).result = .status 1 := by
  decide +kernel

/-- V-OP-20 and V-OP-21. -/
theorem test_before_begin : refusal (.setVolume 0 0) State.reset = some .notBegun ∧
    (after .getStatus State.reset).result = .status 0 := by decide

/-! ## Control words at the receiver (30_encoding.md R100; the words of 95_test_vectors.md 2.3) -/

/-- A word of a handle's own chip, as its frames decode. -/
def latched (i : Instr) (chip : Nat) (r : Reg) : Option Word :=
  readRegister (after i (fresh { Config.ref with chipAddr := chip })).mem { Config.ref with chipAddr := chip } r

theorem test_att_l : latched (.attL 0x100#12 0#2) 0 .attL = some 0x1000#16 := by decide

theorem test_att_r : latched (.attR 0xEF8#12 2#2) 2 .attR = some 0xEF80#16 := by decide

theorem test_gain : latched (.gain 0x7E0#12 3#2) 3 .gain = some 0x7E00#16 ∧
    latched (.gain 0x7E0#12 3#2) 3 .states = latched .getStatus 3 .states := ⟨by decide, rfl⟩

theorem test_states_other_chip : latched (.states 0x020#12 3#2) 3 .states = some 0x0200#16 ∧
    latched (.states 0x020#12 3#2) 0 .states = latched .getStatus 0 .states := ⟨by decide, rfl⟩

/-- 93_implementation_defined.md U11: from power-on a register holds a payload, which nothing else is known of. -/
theorem test_power_on_register : (readRegister State.reset.mem Config.ref .gain).isSome = true := by decide

/-! ## One step of the machine -/

/-- A word placed by the host's hook is the next thing the machine runs. -/
theorem test_with_fetch_word :
    (match step (State.reset.withFetchWord 16 0x1000) with
      | .next t => readRegister t.mem t.cfg .attL
      | .fault _ => none
      | .refused _ => none) = some 0x1000#16 := by decide

/-- 41_transport.md R145: the start line's position emits chip-select low and goes to the first bit. -/
theorem test_framer_first_step :
    (match step ((begun cfgSw).startTransfer 0x1000#16) with
      | .next t => some (t.seq, t.trace.getLast?)
      | .fault _ => none
      | .refused _ => none) = some (.sending 0x1000#16 15 .setup, some (.cs false)) := by decide

/-- 70_reset_and_hazards.md R226: the sixth event of a word is made, the seventh call never returns. -/
theorem test_hang_in_a_word :
    let t := after (.sendWordSw 0xA55A#16) (failing cfgSw 6)
    (t.trace.drop 3 = [.cs false, .mosi true, .sclk true, .sclk false, .mosi false, .sclk true]) ∧
    t.seq = .sending 0xA55A#16 14 .fall ∧ t.csN = .low ∧ t.blocked = true ∧ words t = [] := by decide +kernel

/-- R226: the mirror is written before the word that hangs; the result is not. -/
theorem test_hang_in_an_operation :
    let t := after (.setGain 7) (failing cfgHw 3)
    t.gainMirror = 0x7E00#16 ∧ t.result = .none ∧ t.blocked = true ∧ t.trace.getLast? = some (.mosi false) := by
  decide +kernel

/-- 60_exceptions.md R203: power is lost inside a transfer. -/
theorem test_power_loss_in_a_transfer :
    (match step { (begun cfgSw).startTransfer 0x1000#16 with inputs := [.powerLoss] } with
      | .next t => some (t.seq, t.init, t.csN, t.trace)
      | .fault _ => none
      | .refused _ => none) = some (.idle, false, .undriven, []) := by decide

/-! ## Witnesses: for each statement with hypotheses, a state and operands that meet them -/

/-- An instruction that answers a next state here leaves `after`. -/
def runs (i : Instr) (s : State) : Prop := exec i s = .next (after i s)

/-- Whether an instruction answers a next state. -/
def completes (i : Instr) (s : State) : Bool :=
  match exec i s with
  | .next _ => true
  | .fault _ => false
  | .refused _ => false

theorem runs_of {i : Instr} {s : State} (h : completes i s = true) : runs i s := by
  unfold completes at h
  unfold runs after
  split at h <;> simp_all

theorem ready_of {s : State} (h : s.seq = .idle ∧ s.init = true ∧ s.returns = none ∧ s.blocked = false) : Ready s :=
  ⟨h.1, h.2.1, ⟨h.2.2.1, h.2.2.2⟩⟩

theorem wire_of {s : State} (h : s.rx.cs = true ∧ s.rx.clk = false) : WireIdle s := ⟨h.1, h.2⟩

theorem ready_sw : Ready (begun cfgSw) := ready_of (by decide)

theorem ready_miso : Ready (begun Config.ref) := ready_of (by decide)

theorem ready_hw : Ready (begun cfgHw) := ready_of (by decide)

theorem wire_sw : WireIdle (begun cfgSw) := wire_of (by decide)

theorem wire_hw : WireIdle (begun cfgHw) := wire_of (by decide)

theorem sound_sw : (begun cfgSw).linkSound = true ∧ (begun cfgSw).cfg.wf = true := by decide

theorem sound_hw : (begun cfgHw).linkSound = true ∧ (begun cfgHw).cfg.wf = true := by decide

/-- A begun handle that has been used. -/
def used : State := after (.setExternalClock false) (after (.setGain 7) (begun cfgSw))

theorem invariant_begun : Invariant (begun cfgSw) where
  config := by decide
  quiet := by decide
  gainClear := by decide
  statesClear := by decide
  canonical := by decide
  mapped := by decide
  total := by decide
  receiver := by decide
  wire := fun _ => wire_sw
  wordsOnly := by decide
  begun := fun _ _ => ⟨by decide, by decide⟩
  fresh := by decide
  peripheral := by decide

theorem invariant_used : Invariant used where
  config := by decide +kernel
  quiet := by decide +kernel
  gainClear := by decide +kernel
  statesClear := by decide +kernel
  canonical := by decide +kernel
  mapped := by decide +kernel
  total := by decide +kernel
  receiver := by decide +kernel
  wire := fun _ => wire_of (by decide +kernel)
  wordsOnly := by decide +kernel
  begun := fun _ _ => ⟨by decide +kernel, by decide +kernel⟩
  fresh := by decide +kernel
  peripheral := by decide +kernel

/-- A handle in the middle of a word that hangs. -/
def hung : State := after (.setGain 7) (failing cfgSw 6)

theorem tame_used : MirrorsTame used := ⟨by decide +kernel, by decide +kernel⟩

theorem shown_used : MirrorsShown used := by
  have hg : lastSent used.cfg .gain used.rx.out = some 0x7E08#16 ∧ used.gainMirror = 0x7E00#16 := by decide +kernel
  have hs : lastSent used.cfg .states used.rx.out = some 0x020C#16 ∧ used.statesMirror = 0x0200#16 := by
    decide +kernel
  refine ⟨fun w hw => ?_, fun w hw => ?_⟩
  · rw [hg.1] at hw
    injection hw with hw
    rw [hg.2, ← hw]; decide
  · rw [hs.1] at hw
    injection hw with hw
    rw [hs.2, ← hw]; decide

theorem witness_VolumeValidAnswersTheRangeTest : State.reset.cfg.wf = true := by decide

/-- Values just outside the range, in both operands, and both ends of it. -/
theorem witness_AttenAnswersTheTruncatedCode :
    (begun cfgSw).cfg.wf = true ∧ ((-447 : Int) ≤ -447 ∧ (-447 : Int) ≤ 0) ∧ ((-447 : Int) ≤ 0 ∧ (0 : Int) ≤ 0) ∧
    ((-448 : Int) < -447 ∨ 0 < (-448 : Int)) ∧ ((1 : Int) < -447 ∨ 0 < (1 : Int)) ∧
    runs (.setVolume (-448) 0) (begun cfgSw) ∧ runs (.setVolume 0 1) (begun cfgSw) :=
  ⟨by decide, by decide, by decide, by decide, by decide, rfl, rfl⟩

/-- Both ends of the range, a step between, and equal codes. -/
theorem witness_AttenLawsOnTheLegalRange :
    (-447 : Int) ≤ -447 ∧ (-447 : Int) ≤ 0 ∧ (-447 : Int) ≤ 0 ∧ (0 : Int) ≤ 0 ∧ (-447 : Int) < 0 ∧
    atten (-447) = atten (-447) := by decide

/-- Both ends of the linear part, and one period. -/
theorem witness_GainCodeAnswersTwoShiftedCopies :
    (0 ≤ (0 : Int) ∧ (0 : Int) ≤ 7) ∧ (0 ≤ (7 : Int) ∧ (7 : Int) ≤ 7) ∧ (-121 : Int) % 128 = 7 % 128 := by decide

theorem witness_ShiftByteSwEmitsItsBitsAndClocks :
    Ready (begun cfgSw) ∧ (begun cfgSw).cfg.mode = .sw ∧ (begun cfgSw).linkSound = true ∧
    Ready (begun Config.ref) ∧ (begun Config.ref).cfg.hasMiso = true :=
  ⟨ready_sw, by decide, by decide, ready_miso, by decide⟩

theorem witness_ShiftByteHwEmitsTheSameEvents :
    Ready (begun cfgHw) ∧ (begun cfgHw).cfg.mode = .hw ∧ (begun cfgHw).linkSound = true :=
  ⟨ready_hw, by decide, by decide⟩

/-- With a word for this chip and one for another. -/
theorem witness_SendWordSwTransmitsTheWord :
    Ready (begun cfgSw) ∧ (begun cfgSw).cfg.mode = .sw ∧ (begun cfgSw).cfg.wf = true ∧ WireIdle (begun cfgSw) ∧
    (begun cfgSw).linkSound = true ∧ 0x1000#16 &&& 0x0003#16 = chipField (begun cfgSw).cfg ∧
    0x1000#16 &&& 0x000C#16 = selConst (begun cfgSw).cfg .attL ∧ 0x1003#16 &&& 0x0003#16 ≠ chipField (begun cfgSw).cfg :=
  ⟨ready_sw, by decide, by decide, wire_sw, by decide, by decide, by decide, by decide⟩

theorem witness_SendWordHwTransmitsInsideATransaction :
    Ready (begun cfgHw) ∧ (begun cfgHw).cfg.mode = .hw ∧ (begun cfgHw).cfg.wf = true ∧ WireIdle (begun cfgHw) ∧
    (begun cfgHw).linkSound = true := ⟨ready_hw, by decide, by decide, wire_hw, by decide⟩

theorem witness_SendWordFollowsTheTransportMode :
    Ready (begun cfgSw) ∧ (begun cfgSw).cfg.mode = .sw ∧ WireIdle (begun cfgSw) ∧
    Ready (begun cfgHw) ∧ (begun cfgHw).cfg.mode = .hw ∧ WireIdle (begun cfgHw) ∧
    (begun cfgSw).cfg.wf = true ∧ (begun cfgHw).cfg.wf = true ∧
    (begun cfgSw).linkSound = true ∧ (begun cfgHw).linkSound = true :=
  ⟨ready_sw, by decide, wire_sw, ready_hw, by decide, wire_hw, by decide, by decide, by decide, by decide⟩

theorem witness_BothStrategiesPutTheSameWordOnTheWire :
    Ready (begun cfgSw) ∧ WireIdle (begun cfgSw) ∧ (begun cfgSw).linkSound = true := ⟨ready_sw, wire_sw, by decide⟩

/-- With and without data-in. -/
theorem witness_FramerStepsMakeUpOneWord :
    ((begun cfgSw).cfg.wf = true ∧ (begun cfgSw).cfg.mode = .sw ∧ (begun cfgSw).seq = .idle ∧ Free (begun cfgSw) ∧
      (begun cfgSw).interrupted = false ∧ (begun cfgSw).cfg.hasMiso = false) ∧
    (State.reset.cfg.wf = true ∧ State.reset.cfg.mode = .sw ∧ State.reset.seq = .idle ∧ Free State.reset ∧
      State.reset.interrupted = false ∧ State.reset.cfg.hasMiso = true) :=
  ⟨⟨by decide, by decide, by decide, ready_sw.free, by decide, by decide⟩,
    ⟨by decide, by decide, by decide, ⟨by decide, by decide⟩, by decide, by decide⟩⟩

/-- No call, a call in the middle, the last call that hangs the word, and calls enough; with and without data-in. -/
theorem witness_AHangingCallCutsTheWordShort :
    (∀ c ∈ [cfgSw, Config.ref], ∀ n ∈ [0, 1, 49, 50, 65, 66],
      (failing c n).seq = .idle ∧ (failing c n).blocked = false ∧ (failing c n).init = true ∧
        (failing c n).cfg.mode = .sw ∧ (failing c n).returns = some n) ∧
    (49 < (if cfgSw.hasMiso then 66 else 50) ∧ (if cfgSw.hasMiso then 66 else 50) ≤ 50) ∧
    (65 < (if Config.ref.hasMiso then 66 else 50) ∧ (if Config.ref.hasMiso then 66 else 50) ≤ 66) ∧
    (failing cfgSw 1).linkSound = true := by decide

theorem witness_TheFramerStopsWhereTheWordDoes :
    ∀ c ∈ [cfgSw, Config.ref], ∀ n ∈ [0, 6, 49],
      (failing c n).cfg.wf = true ∧ (failing c n).cfg.mode = .sw ∧ (failing c n).seq = .idle ∧
        (failing c n).blocked = false ∧ (failing c n).interrupted = false ∧ (failing c n).returns = some n ∧
        n < (if (failing c n).cfg.hasMiso then 66 else 50) := by decide

/-- With just calls enough for one word. -/
theorem witness_WhatReturnsIsAsIfEveryCallDid :
    runs (.setGain 7) (failing cfgSw 50) ∧ (after (.setGain 7) (failing cfgSw 50)).blocked = false ∧
    (after (.setGain 7) (failing cfgSw 50)).returns = some 0 := ⟨rfl, by decide +kernel, by decide +kernel⟩

/-- For each of the inputs the clauses name. -/
theorem witness_AHangingOperationEndsOnlyWithPower :
    hung.cfg.wf = true ∧ hung.blocked = true ∧ hung.inputs = [] ∧ isOperation .beginOp = true ∧
    { hung with inputs := [.construct cfgHw] }.inputs = .construct cfgHw :: [] ∧
    { hung with inputs := [.powerLoss] }.inputs = .powerLoss :: [] ∧
    (match step { hung with inputs := [.powerLoss] } with
      | .next t => !t.blocked
      | .fault _ => false
      | .refused _ => false) = true :=
  ⟨by decide +kernel, by decide +kernel, by decide +kernel, rfl, rfl, rfl, by decide +kernel⟩

/-- At the lowest and the highest chip address. -/
theorem witness_ControlWordReplacesItsRegister :
    (State.reset.cfg.wf = true ∧ State.reset.seq = .idle ∧ State.reset.linkSound = true ∧
      (0#2).toNat = State.reset.cfg.chipAddr) ∧
    ((fresh { Config.ref with chipAddr := 3 }).cfg.wf = true ∧ (fresh { Config.ref with chipAddr := 3 }).seq = .idle ∧
      (fresh { Config.ref with chipAddr := 3 }).linkSound = true ∧
      (3#2).toNat = (fresh { Config.ref with chipAddr := 3 }).cfg.chipAddr) := by decide

theorem witness_ControlWordForAnotherChipIsIgnored :
    State.reset.cfg.wf = true ∧ State.reset.seq = .idle ∧ State.reset.linkSound = true ∧
    (1#2).toNat ≠ State.reset.cfg.chipAddr := by decide

/-- Address 2 belongs to chip 1. -/
theorem witness_ControlWordOverAnUnsoundLinkLeavesAnyPayload :
    unsound.cfg.wf = true ∧ unsound.seq = .idle ∧ unsound.linkSound = false ∧ ∀ q, ¬ inRegister unsound.cfg q 2 := by
  refine ⟨by decide, by decide, by decide, fun q => ?_⟩
  cases q <;> unfold inRegister <;> decide

theorem witness_SendingAWordExecutesItAtTheReceiver :
    Ready (begun cfgSw) ∧ (begun cfgSw).cfg.wf = true ∧ WireIdle (begun cfgSw) ∧ (begun cfgSw).linkSound = true :=
  ⟨ready_sw, by decide, wire_sw, by decide⟩

theorem witness_BeginDrivesTheIdleLevels :
    State.reset.seq = .idle ∧ Free State.reset ∧ State.reset.cfg.mode = .sw ∧ WireIdle State.reset ∧
    State.reset.linkSound = true ∧ (fresh cfgHw).cfg.mode = .hw ∧ (fresh cfgHw).seq = .idle ∧ Free (fresh cfgHw) :=
  ⟨by decide, ⟨by decide, by decide⟩, by decide, wire_of (by decide), by decide, by decide, by decide,
    ⟨by decide, by decide⟩⟩

/-- Both ends of the range. -/
theorem witness_SetVolumeSendsTheTwoAttenuations :
    Ready (begun cfgSw) ∧ (-447 : Int) ≤ -447 ∧ (-447 : Int) ≤ 0 ∧ (-447 : Int) ≤ 0 ∧ (0 : Int) ≤ 0 ∧
    (begun cfgSw).cfg.wf = true ∧ WireIdle (begun cfgSw) ∧ (begun cfgSw).linkSound = true :=
  ⟨ready_sw, by decide, by decide, by decide, by decide, by decide, wire_sw, by decide⟩

/-- A positive value where it is accepted, and the largest accepted value where positive values are rejected. -/
theorem witness_SetGainAssignsAndSendsTheMirror :
    Ready (begun cfgSw) ∧ (begun cfgSw).cfg.gainRejectPositive = false ∧ Ready strict ∧
    strict.cfg.gainRejectPositive = true ∧ (0 : Int) ≤ 0 ∧ (begun cfgSw).cfg.wf = true ∧ WireIdle (begun cfgSw) ∧
    (begun cfgSw).linkSound = true :=
  ⟨ready_sw, by decide, ready_of (by decide), by decide, by decide, by decide, wire_sw, by decide⟩

theorem witness_MuteSendsPayloadZeroTwice :
    Ready (begun cfgSw) ∧ (begun cfgSw).cfg.wf = true ∧ WireIdle (begun cfgSw) ∧ (begun cfgSw).linkSound = true :=
  ⟨ready_sw, by decide, wire_sw, by decide⟩

theorem witness_SetZeroCrossingWritesBitEight :
    Ready used ∧ used.cfg.wf = true ∧ WireIdle used ∧ used.linkSound = true ∧ used.gainMirror &&& 0x000F#16 = 0#16 :=
  ⟨ready_of (by decide +kernel), by decide +kernel, invariant_used.wire (by decide +kernel),
    by decide +kernel, by decide +kernel⟩

theorem witness_SetExternalClockWritesBitNine :
    Ready used ∧ used.cfg.wf = true ∧ WireIdle used ∧ used.linkSound = true ∧ used.statesMirror &&& 0x000F#16 = 0#16 :=
  ⟨ready_of (by decide +kernel), by decide +kernel, invariant_used.wire (by decide +kernel),
    by decide +kernel, by decide +kernel⟩

theorem witness_SetLinkChannelsWritesBitFifteen :
    Ready used ∧ used.cfg.wf = true ∧ WireIdle used ∧ used.linkSound = true ∧ used.gainMirror &&& 0x000F#16 = 0#16 :=
  ⟨ready_of (by decide +kernel), by decide +kernel, invariant_used.wire (by decide +kernel),
    by decide +kernel, by decide +kernel⟩

/-- Before BEGIN, and where no call returns any more. -/
theorem witness_GetStatusHandsBackTheStickyError :
    State.reset.seq = .idle ∧ State.reset.blocked = false ∧ State.reset.init = false ∧
    (failing cfgSw 0).seq = .idle ∧ (failing cfgSw 0).blocked = false ∧ (failing cfgSw 0).returns = some 0 := by decide

/-- Each operand at each end, and the smallest rejected gain. -/
theorem witness_RaisingValueErrorHasThreeEffects :
    strict.cfg.wf = true ∧ strict.seq = .idle ∧ strict.blocked = false ∧ strict.init = true ∧
    (-448 : Int) < -447 ∧ 0 < (1 : Int) ∧
    strict.cfg.gainRejectPositive = true := by decide

theorem witness_ErrorCausesAreExactlyTwo :
    (begun cfgSw).cfg.wf = true ∧ strict.cfg.wf = true ∧
    runs (.setVolume 0 1) (begun cfgSw) ∧ (after (.setVolume 0 1) (begun cfgSw)).err ≠ (begun cfgSw).err ∧
    runs (.setGain 1) strict ∧ isOperation (.setGain 1) = true ∧ (after (.setGain 1) strict).result = .bool false :=
  ⟨by decide, by decide, rfl, by decide, rfl, by decide, by decide⟩

theorem witness_EachRegisterHasOnlyItsWriters :
    runs (.setGain 7) (begun cfgSw) ∧ (after (.setGain 7) (begun cfgSw)).gainMirror ≠ (begun cfgSw).gainMirror ∧
    runs (.setExternalClock false) (begun cfgSw) ∧
    (after (.setExternalClock false) (begun cfgSw)).statesMirror ≠ (begun cfgSw).statesMirror ∧
    runs (.setVolume 0 1) (begun cfgSw) ∧ (after (.setVolume 0 1) (begun cfgSw)).err ≠ (begun cfgSw).err ∧
    (after (.setVolume 0 1) (begun cfgSw)).err = .valueError ∧ runs .mute (after (.setVolume 0 1) (begun cfgSw)) ∧
    runs .beginOp State.reset ∧ (after .beginOp State.reset).init ≠ State.reset.init :=
  ⟨rfl, by decide +kernel, rfl, by decide +kernel, rfl, by decide, by decide, rfl, rfl, by decide⟩

theorem witness_ConfigurationIsFixedAndTheTraceGrows :
    runs .mute (begun cfgSw) ∧ (after .mute (begun cfgSw)).blocked = false := ⟨rfl, by decide +kernel⟩

/-- Address 2 belongs to chip 1. -/
theorem witness_OnlyTheChipsFourRegistersChange :
    runs .mute (begun cfgSw) ∧ ∀ r, ¬ inRegister (begun cfgSw).cfg r 2 := by
  refine ⟨rfl, ?_⟩
  intro r
  cases r <;> unfold inRegister <;> decide

theorem witness_EveryWordSentHasDisjointParts :
    Invariant (begun cfgSw) ∧ isOperation (.setGain 7) = true ∧ runs (.setGain 7) (begun cfgSw) ∧
    Latched.word 0x7E08#16 ∈ (after (.setGain 7) (begun cfgSw)).rx.out.drop (begun cfgSw).rx.out.length :=
  ⟨invariant_begun, rfl, rfl, by decide +kernel⟩

/-- A word of each of the four kinds. -/
theorem witness_WordsSentKeepTheFormatsZeroFields :
    Invariant used ∧ MirrorsTame used ∧
    (isOperation (.setVolume 0 0) = true ∧ runs (.setVolume 0 0) used ∧
      Latched.word 0x1000#16 ∈ (after (.setVolume 0 0) used).rx.out.drop used.rx.out.length ∧
      Latched.word 0x1004#16 ∈ (after (.setVolume 0 0) used).rx.out.drop used.rx.out.length) ∧
    (isOperation (.setLinkChannels true) = true ∧ runs (.setLinkChannels true) used ∧
      Latched.word 0xFE08#16 ∈ (after (.setLinkChannels true) used).rx.out.drop used.rx.out.length) ∧
    (isOperation (.setExternalClock false) = true ∧ runs (.setExternalClock false) used ∧
      Latched.word 0x020C#16 ∈ (after (.setExternalClock false) used).rx.out.drop used.rx.out.length) ∧
    0x1000#16 &&& 0x000C#16 = used.cfg.selAttL ∧ 0x1004#16 &&& 0x000C#16 = used.cfg.selAttR ∧
    0xFE08#16 &&& 0x000C#16 = used.cfg.selGain ∧ 0x020C#16 &&& 0x000C#16 = used.cfg.selStates :=
  ⟨invariant_used, tame_used, ⟨rfl, runs_of (by decide +kernel), by decide +kernel, by decide +kernel⟩,
    ⟨rfl, runs_of (by decide +kernel), by decide +kernel⟩, ⟨rfl, runs_of (by decide +kernel), by decide +kernel⟩,
    by decide +kernel, by decide +kernel, by decide +kernel, by decide +kernel⟩

theorem witness_MirrorsShowTheLastWordSent :
    Invariant used ∧ MirrorsShown used ∧ isOperation (.setZeroCrossing false) = true ∧
    runs (.setZeroCrossing false) used ∧ (after (.setZeroCrossing false) used).blocked = false :=
  ⟨invariant_used, shown_used, rfl, runs_of (by decide +kernel), by decide +kernel⟩

theorem witness_UnusedMirrorBitsStayClear : MirrorsTame used ∧ runs (.setZeroCrossing false) used :=
  ⟨tame_used, runs_of (by decide +kernel)⟩

/-- Each operation from one idle state, the two that can fail both ways. -/
theorem witness_TransfersPerOperationAreFixed :
    WireIdle strict ∧ runs .beginOp strict ∧ runs (.setVolume 0 0) strict ∧ runs (.setVolume 0 1) strict ∧
    runs (.setGain 0) strict ∧ runs (.setGain 1) strict ∧ runs .mute strict ∧ runs (.setZeroCrossing true) strict ∧
    runs (.setExternalClock true) strict ∧ runs (.setLinkChannels true) strict ∧ runs .getStatus strict ∧
    (∀ i ∈ [.beginOp, .setVolume 0 0, .setVolume 0 1, .setGain 0, .setGain 1, .mute, .setZeroCrossing true,
      .setExternalClock true, .setLinkChannels true, .getStatus], (after i strict).blocked = false) :=
  ⟨wire_of (by decide), rfl, rfl, rfl, rfl, rfl, rfl, rfl, rfl, rfl, rfl, by decide +kernel⟩

/-- Link, from reset's mirror, where the flag is off, and once it is on: both sides of the equivalence. -/
theorem witness_FeatureTogglesRestoreTheMirrors :
    let off := begun cfgSw
    let on := after (.setLinkChannels true) off
    let back := after (.setLinkChannels false) on
    runs (.setLinkChannels true) off ∧ runs (.setLinkChannels false) on ∧ runs (.setLinkChannels true) back ∧
    back.gainMirror = off.gainMirror ∧ (!off.gainMirror.getLsbD 15) = true ∧
    runs (.setLinkChannels true) on ∧ (!on.gainMirror.getLsbD 15) = false ∧
    (after (.setLinkChannels false) (after (.setLinkChannels true) on)).gainMirror ≠ on.gainMirror :=
  ⟨rfl, runs_of (by decide +kernel), runs_of (by decide +kernel), by decide +kernel, by decide +kernel,
    runs_of (by decide +kernel), by decide +kernel, by decide +kernel⟩

/-- A step that runs an operation from a state with the invariant. -/
theorem witness_EveryStepKeepsTheInvariant :
    Invariant (begun cfgSw) ∧ step (begun cfgSw) = .next (begun cfgSw) ∧
    (∃ t, step { begun cfgSw with inputs := [.issue (.command (bareCommand 3))] } = .next t) :=
  ⟨invariant_begun, rfl, _, rfl⟩

theorem witness_LinkFaultsDoNotReachTheBlock : runs .mute (begun cfgSw) := rfl

theorem witness_DataInLevelsInfluenceNothing : runs .mute (begun Config.ref) := rfl

theorem witness_SendingBeforeBeginIsRefused :
    State.reset.seq = .idle ∧ State.reset.blocked = false ∧ State.reset.init = false ∧ needsBegin .mute = true := by decide

/-- Inside a transfer; and in BEGIN, which has no position, when it hangs. -/
theorem witness_NothingStartsInsideATransfer :
    (State.reset.startTransfer 0x1000#16).seq ≠ .idle ∧ isOperation .getStatus = true ∧
    (after .beginOp { State.reset with returns := some 1 }).seq = .idle ∧
    (after .beginOp { State.reset with returns := some 1 }).blocked = true := by decide

/-- Before and after BEGIN, in both strategies; both ends of the volume range and the values just outside. -/
theorem witness_WithNoCallReturningOnlyCallersHang :
    (∀ s ∈ [failing cfgSw 0, failing cfgHw 0], s.cfg.wf = true ∧ s.seq = .idle ∧ s.blocked = false ∧
      s.returns = some 0 ∧ s.init = true) ∧
    (failing cfgSw 0).cfg.mode = .sw ∧ (failing cfgHw 0).cfg.mode = .hw ∧
    ((-447 : Int) ≤ -447 ∧ (-447 : Int) ≤ 0) ∧ ((-447 : Int) ≤ 0 ∧ (0 : Int) ≤ 0) ∧ (-448 : Int) < -447 ∧ 0 < (1 : Int) ∧
    (failing cfgSw 0).cfg.gainRejectPositive = false := by decide

theorem witness_StrategyPrimitivesNeedTheirStrategy :
    (begun cfgSw).seq = .idle ∧ (begun cfgSw).blocked = false ∧ (begun cfgSw).init = true ∧ (begun cfgSw).cfg.mode = .sw ∧
    (begun cfgHw).seq = .idle ∧ (begun cfgHw).blocked = false ∧ (begun cfgHw).init = true ∧
    (begun cfgHw).cfg.mode = .hw := by decide

theorem witness_StepRunsTheDecodedInstruction :
    (State.reset.withFetchWord 16 0xEF84).cfg.wf = true ∧ (State.reset.withFetchWord 16 0xEF84).seq = .idle ∧
    (State.reset.withFetchWord 16 0xEF84).inputs = .issue (.frames [0xEF#8, 0x84#8]) :: [] ∧
    decode (State.reset.withFetchWord 16 0xEF84).cfg (.frames [0xEF#8, 0x84#8]) = .ok (.attR 0xEF8#12 0#2) := by decide

/-- Waiting; waiting after a call that hangs; a step; a position no line gives, in each strategy. -/
theorem witness_StepWaitsOrContinuesATransfer :
    State.reset.cfg.wf = true ∧ State.reset.seq = .idle ∧ State.reset.inputs = [] ∧
    ((State.reset.startTransfer 0x1000#16).seq ≠ .idle ∧ (State.reset.startTransfer 0x1000#16).blocked = false ∧
      (State.reset.startTransfer 0x1000#16).interrupted = false ∧
      (∃ t, framerStep (State.reset.startTransfer 0x1000#16) = some t)) ∧
    framerStep { State.reset with seq := .sending 0x1000#16 3 .assert } = none ∧
    framerStep ((fresh cfgHw).startTransfer 0x1000#16) = none ∧
    ((fresh cfgHw).startTransfer 0x1000#16).cfg.wf = true ∧
    (hung.cfg.wf = true ∧ hung.blocked = true ∧ hung.inputs = []) :=
  ⟨by decide, by decide, by decide, ⟨by decide, by decide, by decide, _, rfl⟩, rfl, rfl, by decide,
    by decide +kernel, by decide +kernel, by decide +kernel⟩

theorem witness_ConstructionIsTheReset :
    State.reset.cfg.wf = true ∧ State.reset.seq = .idle ∧ State.reset.blocked = false ∧
    { State.reset with inputs := [.construct cfgHw] }.inputs = .construct cfgHw :: [] ∧ cfgHw.wf = true ∧
    { Config.ref with chipAddr := 4 }.wf = false := by decide

/-- Between operations, and inside a word that hangs with its bracket open. -/
theorem witness_PowerLossOfBlockAndOfChip :
    State.reset.cfg.wf = true ∧ State.reset.seq = .idle ∧ State.reset.rx.cs = true ∧
    { State.reset with inputs := [.powerLoss] }.inputs = .powerLoss :: [] ∧
    { State.reset with inputs := [.chipPowerLoss] }.inputs = .chipPowerLoss :: [] ∧
    hung.cfg.wf = true ∧ hung.blocked = true ∧ hung.rx.cs = false ∧
    { hung with inputs := [.powerLoss] }.inputs = .powerLoss :: [] := by decide +kernel

/-- The widest operands the port carries, and a control word. -/
theorem witness_DecodeUndoesEncode :
    Config.ref.wf = true ∧ (Instr.setVolume (-32768) 32767).wf Config.ref = true ∧
    encode Config.ref (.setVolume (-32768) 32767) = some (.command ⟨1#3, 0x8000, 0x7FFF, 0, false⟩) ∧
    (Instr.attR 0xEF8#12 2#2).wf Config.ref = true ∧
    encode Config.ref (.attR 0xEF8#12 2#2) = some (.frames [0xEF#8, 0x86#8]) := by decide

theorem witness_EveryTwoFramesAreOneControlWord : Config.ref.wf = true := by decide

/-- The widest pattern that fits and the first that does not, in a port that is read and in one that is not. -/
theorem witness_DecoderRefusesExactlyMalformedInput :
    Config.ref.wf = true ∧ [0xEF#8, 0x86#8].length = 2 ∧ [0xEF#8].length ≠ 2 ∧
    portsFit Config.ref ⟨1#3, 65535, 0, 65536, false⟩ ∧ portsFit Config.ref ⟨3#3, 65536, 65536, 65536, true⟩ ∧
    ¬ portsFit Config.ref ⟨1#3, 0, 65536, 0, false⟩ ∧ ¬ portsFit Config.ref ⟨2#3, 0, 0, 65536, false⟩ := by
  unfold portsFit
  decide

end Sys2Proof.Tests
end

section
/-! The statements of 40_encoder.md R110, R111, R114 and R115: one rule per primitive of the Encoder, the value of an
attenuation code as an integer, and what SET_VOLUME does with an illegal value. -/

namespace Sys2Proof.Machine

/-! What each primitive hands back; the rest of the state is as it was. -/

theorem exec_volumeValid (v : Int) (s : State) :
    exec (.volumeValid v) s = .next { s with result := .bool (volumeValid s.cfg v) } := rfl

theorem exec_atten (v : Int) (s : State) : exec (.atten v) s = .next { s with result := .word (atten v) } := rfl

theorem exec_assemble (sel : Reg) (payload : Word) (s : State) :
    exec (.assemble sel payload) s = .next { s with result := .word (assemble s.cfg sel payload) } := rfl

theorem exec_flagBit (f : Feature) (e : Bool) (s : State) :
    exec (.flagBit f e) s = .next { s with result := .flag (flagBit f e).1 (flagBit f e).2 } := rfl

/-! The values themselves. -/

theorem volumeValid_eq_decide (cfg : Config) (v : Int) :
    volumeValid cfg v = decide (cfg.volMin ≤ v ∧ v ≤ cfg.volMax) := (Bool.decide_and ..).symm

theorem trunc16_toNat (z : Int) : ((trunc16 z).toNat : Int) = z % 65536 := by
  rw [trunc16, BitVec.toNat_ofInt]
  exact Int.toNat_of_nonneg (Int.emod_nonneg z (by decide))

theorem atten_toNat (v : Int) : ((atten v).toNat : Int) = (4096 + (-v * 128)) % 65536 := trunc16_toNat _

/-- On the legal range the code is the untruncated integer, between the codes of 0 and of -447 (R111). -/
theorem atten_toNat_of_legal {v : Int} (hlo : -447 ≤ v) (hhi : v ≤ 0) :
    ((atten v).toNat : Int) = 4096 + (-v * 128) ∧ 4096 ≤ (atten v).toNat ∧ (atten v).toNat ≤ 61312 := by
  have hcode := atten_toNat v
  omega

/-- An illegal operand on either side is found before anything is sent (42_device_operations.md R162, R194). -/
theorem setVolume_trace_of_invalid {l r : Int} {s t : State} (h : exec (.setVolume l r) s = .next t)
    (hv : volumeValid s.cfg l = false ∨ volumeValid s.cfg r = false) : t.trace = s.trace := by
  obtain ⟨-, -, -, ⟨hl, hr, -⟩ | ⟨-, rfl⟩⟩ := exec_setVolume_next h
  · simp [hl, hr] at hv
  · exact s.raiseValueError_trace

theorem volumeValid_of_illegal {cfg : Config} (h : cfg.wf = true) {v : Int} (hv : v < -447 ∨ 0 < v) :
    volumeValid cfg v = false := by
  rw [Bool.eq_false_iff, Ne, volumeValid_iff h]
  omega

/-! The statements. -/

/-- Settles O2: `trunc16` is the residue modulo 65536, and an operand outside the range ends SET_VOLUME in ValueError. -/
theorem attenAnswersTheTruncatedCode : Obligations.AttenAnswersTheTruncatedCode := by
  intro s v
  refine ⟨atten v, exec_atten v s, atten_toNat v, atten_toNat_of_legal, ?v0, ?vMin, ?v1, ?vBelow, ?vZero, ?vWraps, ?sends⟩
  case sends =>
    intro hwf hv u t ht
    have hinvalid := volumeValid_of_illegal hwf hv
    obtain hleft | hright := ht
    · exact setVolume_trace_of_invalid hleft (.inl hinvalid)
    · exact setVolume_trace_of_invalid hright (.inr hinvalid)
  -- the six example values of R111
  all_goals rintro rfl; decide

/-- Settles O1: the two comparisons are one, with the bounds a legal configuration fixes. -/
theorem volumeValidAnswersTheRangeTest : Obligations.VolumeValidAnswersTheRangeTest := by
  intro s v
  rw [exec_volumeValid, volumeValid_eq_decide]
  refine ⟨rfl, fun hwf => ?_⟩
  obtain ⟨hmin, hmax⟩ := wf_volume hwf
  rw [hmin, hmax]

/-- Settles O6: the one rule of ASSEMBLE, at each select constant. -/
theorem assembleOrsTheThreeParts : Obligations.AssembleOrsTheThreeParts := fun s payload =>
  ⟨exec_assemble .attL payload s, exec_assemble .attR payload s, exec_assemble .gain payload s,
    exec_assemble .states payload s⟩

/-- Settles O7: the one rule of FLAG_BIT, at each feature and operand. -/
theorem flagBitAnswersIndexAndPolarity : Obligations.FlagBitAnswersIndexAndPolarity := by
  intro s e
  cases e with
  | false => exact ⟨exec_flagBit .zeroCrossing false s, exec_flagBit .externalClock false s, exec_flagBit .link false s⟩
  | true => exact ⟨exec_flagBit .zeroCrossing true s, exec_flagBit .externalClock true s, exec_flagBit .link true s⟩

end Sys2Proof.Machine
end

section
/-! The statements of 41_transport.md R136 and R137: what serializing one byte does by either strategy, read off the
byte's list of calls. -/

namespace Sys2Proof.Machine

/-! Where every call returns, the primitive completes and its calls have their effects. -/

theorem exec_shiftByteSw_ready {s : State} (h : Ready s) (hm : s.cfg.mode = .sw) (b : Byte) :
    exec (.shiftByteSw b) s = .next ((s.effects ((msbBits b).flatMap (bitCallsSw s.cfg))).handBack .none) := by
  rw [← calls_free _ h.free, ← shiftByteSw_calls, exec, execShiftByteSw, whenSw_ready h hm]

theorem exec_shiftByteHw_ready {s : State} (h : Ready s) (hm : s.cfg.mode = .hw) (b : Byte) :
    exec (.shiftByteHw b) s = .next ((s.effects ((msbBits b).flatMap (bitCallsHw s.cfg))).handBack .none) := by
  rw [← calls_free _ h.free, ← shiftByteHw_calls, exec, execShiftByteHw, whenHw_ready h hm]

/-- The last bit of a byte on the wire is its bit 0, which data-out keeps (R136). -/
theorem byteSw_pins (s : State) (cfg : Config) (b : Byte) :
    (s.effects ((msbBits b).flatMap (bitCallsSw cfg))).sclk = .low ∧
      (s.effects ((msbBits b).flatMap (bitCallsSw cfg))).mosi = levelOf (b.getLsbD 0) := by
  rw [msbBits_byte]
  exact bits_pins s cfg [b.getLsbD 7, b.getLsbD 6, b.getLsbD 5, b.getLsbD 4, b.getLsbD 3, b.getLsbD 2, b.getLsbD 1] _

/-! The statements. -/

/-- Settles O8: the byte's calls emit its bits and clocks, leave the last bit on data-out, and neither write nor release
chip-select. -/
theorem shiftByteSwEmitsItsBitsAndClocks : Obligations.ShiftByteSwEmitsItsBitsAndClocks := by
  intro s b h hm
  obtain ⟨ds, hds, htrace⟩ := byte_trace (.inl rfl) b s
  obtain ⟨hclk, hdata⟩ := byteSw_pins s s.cfg b
  obtain ⟨hcs, -, hquiet, -⟩ := writes_bits s.cfg (msbBits b)
  refine ⟨_, ds, exec_shiftByteSw_ready h hm b, hds, ?_⟩
  simp only [State.handBack_trace, State.handBack_csN, State.handBack_sclk, State.handBack_mosi, State.handBack_mem]
  refine ⟨htrace, ?count, hclk, hdata, effects_csN hcs s, (effects_core _ h.free).handBack .none, rfl,
    fun hl a => congrArg (readByte · a) (effects_mem hquiet hl)⟩
  case count => rw [htrace, List.length_append, byteWireEvents_length _ _ _ hds]

/-- Settles O9: the peripheral's calls emit the same events, write no pin register, and release no chip-select. -/
theorem shiftByteHwEmitsTheSameEvents : Obligations.ShiftByteHwEmitsTheSameEvents := by
  intro s b h hm
  obtain ⟨ds, hds, htrace⟩ := byte_trace (.inr rfl) b s
  obtain ⟨-, hpins, -, hquiet⟩ := writes_bits s.cfg (msbBits b)
  refine ⟨_, ds, exec_shiftByteHw_ready h hm b, hds, ?_⟩
  simp only [State.handBack_trace, State.handBack_csN, State.handBack_sclk, State.handBack_mosi, State.handBack_mem]
  exact ⟨htrace, effects_sclk (hpins .sclk) s, effects_mosi (hpins .mosi) s, effects_csN (hpins .csN) s,
    (effects_core _ h.free).handBack .none, rfl, fun hl a => congrArg (readByte · a) (effects_mem hquiet hl)⟩

end Sys2Proof.Machine
end

section
/-! The statements of 60_exceptions.md R191 and R193: which instructions raise ValueError, and that every other one
leaves the error register as it was. -/

namespace Sys2Proof.Machine

/-- The two causes of ValueError (R191), as the two operations test them. -/
def raises (cfg : Config) : Instr → Bool
  | .setVolume l r => !(volumeValid cfg l && volumeValid cfg r)
  | .setGain g => !gainValid cfg g
  | _ => false

@[simp] theorem raises_setVolume (cfg : Config) (l r : Int) :
    raises cfg (.setVolume l r) = !(volumeValid cfg l && volumeValid cfg r) := rfl

@[simp] theorem raises_setGain (cfg : Config) (g : Int) : raises cfg (.setGain g) = !gainValid cfg g := rfl

theorem raises_setVolume_iff {cfg : Config} (h : cfg.wf = true) (l r : Int) :
    raises cfg (.setVolume l r) = true ↔ l < -447 ∨ 0 < l ∨ r < -447 ∨ 0 < r := by
  rw [raises_setVolume, Bool.not_eq_true', Bool.eq_false_iff, Ne, Bool.and_eq_true, volumeValid_iff h,
    volumeValid_iff h]
  omega

theorem raises_setGain_iff (cfg : Config) (g : Int) :
    raises cfg (.setGain g) = true ↔ 0 < g ∧ cfg.gainRejectPositive = true := by
  rw [raises_setGain, Bool.not_eq_true', Bool.eq_false_iff, Ne, gainValid_iff, not_or, not_le, Bool.not_eq_false,
    and_comm]

theorem raises_iff {cfg : Config} (h : cfg.wf = true) (i : Instr) :
    raises cfg i = true ↔
      (∃ l r : Int, i = .setVolume l r ∧ (l < -447 ∨ 0 < l ∨ r < -447 ∨ 0 < r)) ∨
      (∃ g : Int, i = .setGain g ∧ 0 < g ∧ cfg.gainRejectPositive = true) := by
  constructor
  · intro hi
    cases i with
    | setVolume l r => exact .inl ⟨l, r, rfl, (raises_setVolume_iff h l r).1 hi⟩
    | setGain g => exact .inr ⟨g, rfl, (raises_setGain_iff cfg g).1 hi⟩
    | _ => cases hi
  · rintro (⟨l, r, rfl, hv⟩ | ⟨g, rfl, hv⟩)
    · exact (raises_setVolume_iff h l r).2 hv
    · exact (raises_setGain_iff cfg g).2 hv

theorem isOperation_of_raises {cfg : Config} {i : Instr} (h : raises cfg i = true) : isOperation i = true := by
  cases i with
  | setVolume l r => rfl
  | setGain g => rfl
  | _ => cases h

/-! Raising, where an operation may start: whether later calls return does not matter, since none is made. -/

theorem whenBegun_begun {k : State → Out} {s : State} (hq : s.seq = .idle) (hb : s.blocked = false)
    (hi : s.init = true) : whenBegun k s = k s := by
  rw [whenBegun, whenIdle_idle hq hb, if_pos hi]

theorem exec_of_raises {i : Instr} {s : State} (hq : s.seq = .idle) (hb : s.blocked = false) (hi : s.init = true)
    (h : raises s.cfg i = true) : exec i s = .next s.raiseValueError := by
  cases i with
  | setVolume l r =>
    rw [raises_setVolume, Bool.not_eq_true', Bool.eq_false_iff] at h
    rw [exec, execSetVolume, whenBegun_begun hq hb hi, if_neg h]
  | setGain g =>
    rw [raises_setGain, Bool.not_eq_true', Bool.eq_false_iff] at h
    rw [exec, execSetGain, whenBegun_begun hq hb hi, if_neg h]
  | _ => cases h

theorem eq_raiseValueError_of_raises {i : Instr} {s t : State} (ht : exec i s = .next t)
    (h : raises s.cfg i = true) : t = s.raiseValueError := by
  have begun : s.seq = .idle ∧ s.blocked = false ∧ s.init = true := by
    cases i with
    | setVolume l r => obtain ⟨hq, hb, hi, -⟩ := exec_setVolume_next ht; exact ⟨hq, hb, hi⟩
    | setGain g => obtain ⟨hq, hb, hi, -⟩ := exec_setGain_next ht; exact ⟨hq, hb, hi⟩
    | _ => cases h
  obtain ⟨hq, hb, hi⟩ := begun
  rw [exec_of_raises hq hb hi h] at ht
  exact (Host.Outcome.next.inj ht).symm

/-! The error register under what the other instructions are made of. -/

theorem calls_err (cs : List Call) (s : State) : (s.calls cs).err = s.err := by
  obtain ⟨_, -, e, -⟩ := emits_calls cs s
  exact e.err

theorem Sends.err {s t : State} {ws : List Word} (h : Sends s t ws) : t.err = s.err := by
  obtain ⟨_, -, e⟩ := h.part
  exact e.err

theorem transfer_err {body : State → State} {cs : List Call} {s : State} (hb : body s = s.calls cs) (w : Word)
    (x : Nat) : (s.transfer body w x).err = s.err := by
  obtain ⟨_, e, -⟩ := transfer_calls hb w x
  rw [e, State.moveTo_err, calls_err]

theorem beginPins_err (s : State) : s.beginPins.err = s.err := by rw [beginPins_calls, calls_err]

theorem shiftByteSw_err (s : State) (b : Byte) : (s.shiftByteSw b).err = s.err := by rw [shiftByteSw_calls, calls_err]

theorem shiftByteHw_err (s : State) (b : Byte) : (s.shiftByteHw b).err = s.err := by rw [shiftByteHw_calls, calls_err]

theorem latch_err (s : State) (w : Word) : (s.latch w).err = s.err := by
  cases hl : s.linkSound with
  | true => rw [latch_sound hl]
  | false => rw [latch_unsound hl, State.upset_err]

theorem complete_err {f : State → State} {s : State} (hf : (f s).err = s.err) : (s.complete f).err = s.err := by
  cases hb : s.blocked with
  | true => rw [complete_blocked hb, State.handBack_err]
  | false => rw [complete_running hb, hf]

/-- An operation of which a call hangs hands nothing back, so it does not answer false. -/
theorem complete_not_false {f : State → State} {s : State} (hf : (f s).result = .bool true) :
    (s.complete f).result ≠ .bool false := by
  cases hb : s.blocked with
  | true => rw [complete_blocked hb]; nofun
  | false => rw [complete_running hb, hf]; nofun

/-! What does not raise. -/

theorem eq_of_setVolume_accepted {l r : Int} {s t : State} (h : exec (.setVolume l r) s = .next t)
    (hr : raises s.cfg (.setVolume l r) = false) :
    t = ((s.memWrite .attL (atten l)).memWrite .attR (atten r)).complete (State.handBack (.bool true)) := by
  obtain ⟨-, -, -, ⟨-, -, ht⟩ | ⟨hbad, -⟩⟩ := exec_setVolume_next h
  · exact ht
  · rw [raises_setVolume, hbad] at hr; cases hr

theorem eq_of_setGain_accepted {g : Int} {s t : State} (h : exec (.setGain g) s = .next t)
    (hr : raises s.cfg (.setGain g) = false) :
    t = (s.storeGain (gainCode g)).complete (State.handBack (.bool true)) := by
  obtain ⟨-, -, -, ⟨-, ht⟩ | ⟨hbad, -⟩⟩ := exec_setGain_next h
  · exact ht
  · rw [raises_setGain, hbad] at hr; cases hr

theorem err_of_not_raises {i : Instr} {s t : State} (h : exec i s = .next t) (hr : raises s.cfg i = false) :
    t.err = s.err := by
  cases i with
  | attL p c => obtain ⟨-, rfl⟩ := exec_wordInstr_next (r := .attL) h; exact latch_err s _
  | attR p c => obtain ⟨-, rfl⟩ := exec_wordInstr_next (r := .attR) h; exact latch_err s _
  | gain p c => obtain ⟨-, rfl⟩ := exec_wordInstr_next (r := .gain) h; exact latch_err s _
  | states p c => obtain ⟨-, rfl⟩ := exec_wordInstr_next (r := .states) h; exact latch_err s _
  | beginOp => obtain ⟨-, -, rfl⟩ := exec_begin_next h; exact (complete_err rfl).trans (beginPins_err s)
  | setVolume l r =>
    rw [eq_of_setVolume_accepted h hr]
    exact (complete_err rfl).trans (twoWrites_sends s _ _ _ _).err
  | setGain g =>
    rw [eq_of_setGain_accepted h hr]
    exact (complete_err rfl).trans (storeGain_sends s _).err
  | mute => obtain ⟨-, -, -, rfl⟩ := exec_mute_next h; exact (twoWrites_sends s _ _ _ _).err
  | setZeroCrossing e => obtain ⟨-, -, -, rfl⟩ := exec_setZeroCrossing_next h; exact (storeGain_sends s _).err
  | setExternalClock e => obtain ⟨-, -, -, rfl⟩ := exec_setExternalClock_next h; exact (storeStates_sends s _).err
  | setLinkChannels e => obtain ⟨-, -, -, rfl⟩ := exec_setLinkChannels_next h; exact (storeGain_sends s _).err
  | getStatus => obtain ⟨-, -, rfl⟩ := exec_getStatus_next h; exact s.handBack_err _
  | shiftByteSw b => obtain ⟨-, -, -, -, rfl⟩ := exec_shiftByteSw_next h; exact shiftByteSw_err s b
  | shiftByteHw b => obtain ⟨-, -, -, -, rfl⟩ := exec_shiftByteHw_next h; exact shiftByteHw_err s b
  | sendWordSw w => obtain ⟨-, -, -, -, rfl⟩ := exec_sendWordSw_next h; exact transfer_err (bracketSw_calls s w) w 0
  | sendWordHw w => obtain ⟨-, -, -, -, rfl⟩ := exec_sendWordHw_next h; exact transfer_err (bracketHw_calls s w) w 1
  | sendWord w => obtain ⟨-, -, -, rfl⟩ := exec_sendWord_next h; exact (sendWord_sends s w).err
  -- the Encoder's primitives only hand back a value
  | volumeValid _ | atten _ | gainCode _ | gainValid _ | assemble _ _ | flagBit _ _ => cases h; rfl

theorem not_false_of_not_raises {i : Instr} {s t : State} (hop : isOperation i = true) (h : exec i s = .next t)
    (hr : raises s.cfg i = false) : t.result ≠ .bool false := by
  cases i with
  | beginOp => obtain ⟨-, -, rfl⟩ := exec_begin_next h; exact complete_not_false rfl
  | setVolume l r => rw [eq_of_setVolume_accepted h hr]; exact complete_not_false rfl
  | setGain g => rw [eq_of_setGain_accepted h hr]; exact complete_not_false rfl
  | mute => obtain ⟨-, -, -, rfl⟩ := exec_mute_next h; nofun
  | setZeroCrossing e => obtain ⟨-, -, -, rfl⟩ := exec_setZeroCrossing_next h; nofun
  | setExternalClock e => obtain ⟨-, -, -, rfl⟩ := exec_setExternalClock_next h; nofun
  | setLinkChannels e => obtain ⟨-, -, -, rfl⟩ := exec_setLinkChannels_next h; nofun
  | getStatus => obtain ⟨-, -, rfl⟩ := exec_getStatus_next h; nofun
  | _ => cases hop

/-! The statements. -/

/-- Settles O31: either cause is found before anything is done, and all that follows is the raise. -/
theorem raisingValueErrorHasThreeEffects : Obligations.RaisingValueErrorHasThreeEffects := fun s hwf hq hb hi =>
  ⟨fun l r hv => exec_of_raises hq hb hi ((raises_setVolume_iff hwf l r).2 hv),
    fun g hrej hg => exec_of_raises hq hb hi ((raises_setGain_iff s.cfg g).2 ⟨hg, hrej⟩)⟩

/-- Settles O32: what raises leaves the raised state, and what does not keeps the error register and answers no
`false`. -/
theorem errorCausesAreExactlyTwo : Obligations.ErrorCausesAreExactlyTwo := by
  intro i s t hwf h
  rw [← raises_iff hwf]
  cases hr : raises s.cfg i with
  | true =>
    obtain rfl := eq_raiseValueError_of_raises h hr
    have answer : isOperation i = true ∧ s.raiseValueError.result = .bool false := ⟨isOperation_of_raises hr, rfl⟩
    exact ⟨iff_of_true answer rfl, fun _ => rfl, fun _ => answer⟩
  | false =>
    have answer : ¬ (isOperation i = true ∧ t.result = .bool false) := fun ⟨hop, hf⟩ =>
      not_false_of_not_raises hop h hr hf
    exact ⟨iff_of_false answer Bool.false_ne_true, fun ha => absurd ha answer,
      fun hne => absurd (err_of_not_raises h hr) hne⟩

end Sys2Proof.Machine
end

section
/-! The statements of 30_encoding.md R80, R81, R98 and R100: the port pattern of an operand reads back as the operand,
the fields of a control word read back as they went in, and every word has one of the four select constants. -/

namespace Sys2Proof.Machine

/-! Argument ports (00_scope.md R6, R8). -/

theorem wf_wVal {cfg : Config} (h : cfg.wf = true) : 10 ≤ cfg.wVal := by
  simp only [Config.wf, Bool.and_eq_true, Config.wValOk, decide_eq_true_eq] at h
  obtain ⟨⟨⟨⟨-, hw⟩, -⟩, -⟩, -⟩ := h
  exact hw

theorem fitsPort_iff (n : Nat) (z : Int) : fitsPort n z = true ↔ -(2 ^ (n - 1) : Int) ≤ z ∧ z < 2 ^ (n - 1) := by
  rw [fitsPort, decide_eq_true_iff]

/-- The range of a port of `n` bits is twice its sign bit's weight. -/
theorem two_pow_port {n : Nat} (hn : 0 < n) : 2 ^ n = 2 * 2 ^ (n - 1) := by
  rw [← Nat.pow_succ', Nat.succ_eq_add_one, Nat.sub_one_add_one (by omega)]

theorem portPattern_lt (n : Nat) (z : Int) : portPattern n z < 2 ^ n := by
  have hpos : (0 : Int) < 2 ^ n := by positivity
  rw [portPattern, Int.toNat_lt (Int.emod_nonneg z hpos.ne')]
  exact_mod_cast Int.emod_lt_of_pos z hpos

theorem sext_portPattern {n : Nat} (hn : 0 < n) {z : Int} (hz : fitsPort n z = true) :
    sext n (portPattern n z) = z := by
  obtain ⟨hlo, hhi⟩ := (fitsPort_iff n z).1 hz
  have hw : (2 : Int) ^ n = 2 * 2 ^ (n - 1) := by exact_mod_cast two_pow_port hn
  have hnat : ((2 ^ (n - 1) : Nat) : Int) = 2 ^ (n - 1) := by norm_cast
  unfold sext portPattern
  rw [hw]
  by_cases hs : 0 ≤ z
  · rw [Int.emod_eq_of_lt hs (by omega), if_pos (by omega)]
    omega
  · have hm : z % (2 * 2 ^ (n - 1)) = z + 2 * 2 ^ (n - 1) := by
      rw [← Int.add_emod_right]
      exact Int.emod_eq_of_lt (by omega) (by omega)
    rw [hm, if_neg (by omega)]
    omega

theorem fitsPort_sext {n v : Nat} (hn : 0 < n) (hv : v < 2 ^ n) : fitsPort n (sext n v) = true := by
  have hw := two_pow_port hn
  have hw' : (2 : Int) ^ n = 2 * 2 ^ (n - 1) := by exact_mod_cast hw
  have hnat : ((2 ^ (n - 1) : Nat) : Int) = 2 ^ (n - 1) := by norm_cast
  rw [fitsPort_iff]
  unfold sext
  split <;> omega

theorem readPort_fits {cfg : Config} {v : Nat} (h : v < 2 ^ cfg.wVal) : readPort cfg v = .ok (sext cfg.wVal v) :=
  if_pos h

theorem readPort_wide {cfg : Config} {v : Nat} (h : ¬ v < 2 ^ cfg.wVal) : readPort cfg v = .error .portTooWide :=
  if_neg h

theorem readPort_portPattern {cfg : Config} (h : cfg.wf = true) {z : Int} (hz : fitsPort cfg.wVal z = true) :
    readPort cfg (portPattern cfg.wVal z) = .ok z := by
  have hn : 0 < cfg.wVal := Nat.lt_of_lt_of_le (by decide) (wf_wVal h)
  rw [readPort_fits (portPattern_lt _ z), sext_portPattern hn hz]

/-! Control words. -/

theorem payloadField_shift (p : BitVec 12) : payloadField (p.setWidth 16 <<< 4) = p := by
  apply BitVec.eq_of_getLsbD_eq
  intro i hi
  have h4 : 4 + i < 16 := by omega
  simp [payloadField, hi, h4]

theorem payloadField_controlWord {cfg : Config} (h : cfg.wf = true) (r : Reg) (p : BitVec 12) (c : BitVec 2) :
    payloadField (controlWord cfg r p c) = p := by
  obtain ⟨-, -, hp⟩ := controlWord_parts h r p c
  rw [← payloadField_shift (payloadField _), payloadField_eq, hp, payloadField_shift]

theorem chipBits_controlWord {cfg : Config} (h : cfg.wf = true) (r : Reg) (p : BitVec 12) (c : BitVec 2) :
    chipBits (controlWord cfg r p c) = c := by
  obtain ⟨hc, -, -⟩ := controlWord_parts h r p c
  have low : ∀ b : BitVec 2, (b.setWidth 16).setWidth 2 = b := by decide
  rw [← low (chipBits _), chipBits_eq, hc, low]

/-- The four select constants are all there is in bits [3:2] (R82). -/
theorem exists_select {cfg : Config} (h : cfg.wf = true) (w : Word) : ∃ r, w &&& 0x000C#16 = selConst cfg r := by
  have nodup : ([Reg.attL, .attR, .gain, .states].map (selConst cfg)).Nodup :=
    List.Nodup.map (fun _ _ => selConst_injective h) (by decide)
  have sub : [Reg.attL, .attR, .gain, .states].map (selConst cfg) ⊆ [0x0000#16, 0x0004#16, 0x0008#16, 0x000C#16] := by
    intro c hc
    obtain ⟨r, -, rfl⟩ := List.mem_map.1 hc
    simpa using selConst_cases h r
  have all := (List.subperm_of_subset nodup sub).perm_of_length_le (by simp)
  have hw : w &&& 0x000C#16 ∈ [0x0000#16, 0x0004#16, 0x0008#16, 0x000C#16] := by
    simpa using select_cases (w &&& 0x000C#16) (by rw [BitVec.and_assoc]; simp) (by rw [BitVec.and_assoc]; simp)
  obtain ⟨r, -, hr⟩ := List.mem_map.1 (all.mem_iff.2 hw)
  exact ⟨r, hr.symm⟩

theorem decodeWord_of_select {cfg : Config} (h : cfg.wf = true) {r : Reg} {w : Word}
    (hr : w &&& 0x000C#16 = selConst cfg r) :
    decodeWord cfg w = .ok (wordInstr r (payloadField w) (chipBits w)) := by
  rw [decodeWord, selectedReg_of_select h hr]
  cases r <;> rfl

theorem decode_framesOf (cfg : Config) (w : Word) : decode cfg (framesOf w) = decodeWord cfg w := by
  rw [framesOf, decode, decodeFrames, joinFrames_hi_lo]

theorem encode_wordInstr (cfg : Config) (r : Reg) (p : BitVec 12) (c : BitVec 2) :
    encode cfg (wordInstr r p c) = some (framesOf (controlWord cfg r p c)) := by
  cases r <;> rfl

theorem decode_controlWord {cfg : Config} (h : cfg.wf = true) (r : Reg) (p : BitVec 12) (c : BitVec 2) :
    decode cfg (framesOf (controlWord cfg r p c)) = .ok (wordInstr r p c) := by
  obtain ⟨-, hr, -⟩ := controlWord_parts h r p c
  rw [decode_framesOf, decodeWord_of_select h hr, payloadField_controlWord h, chipBits_controlWord h]

/-- A word is the control word of its own three fields: no bit is dropped. -/
theorem controlWord_fields {cfg : Config} {r : Reg} {w : Word} (hr : w &&& 0x000C#16 = selConst cfg r) :
    controlWord cfg r (payloadField w) (chipBits w) = w := by
  rw [controlWord, payloadField_eq, chipBits_eq, ← hr, ← BitVec.and_or_distrib_left, ← BitVec.and_or_distrib_left]
  exact BitVec.and_allOnes

/-! The decoder on commands. -/

theorem decode_setVolume {cfg : Config} {l r : Nat} (v : Nat) (e : Bool) {a b : Int} (ha : readPort cfg l = .ok a)
    (hb : readPort cfg r = .ok b) : decode cfg (.command ⟨1, l, r, v, e⟩) = .ok (.setVolume a b) := by
  show decodeCommand cfg ⟨1, l, r, v, e⟩ = _
  simp [decodeCommand, ha, hb]

theorem decode_setGain {cfg : Config} (l r : Nat) {v : Nat} (e : Bool) {g : Int} (hg : readPort cfg v = .ok g) :
    decode cfg (.command ⟨2, l, r, v, e⟩) = .ok (.setGain g) := by
  show decodeCommand cfg ⟨2, l, r, v, e⟩ = _
  simp [decodeCommand, hg]

/-- Settles O54: the ports of an operation read back as its operands, and the fields of a control word as its own. -/
theorem decodeUndoesEncode : Obligations.DecodeUndoesEncode := by
  intro cfg i x hwf hi hx
  cases i with
  | attL p c => cases hx; exact decode_controlWord hwf .attL p c
  | attR p c => cases hx; exact decode_controlWord hwf .attR p c
  | gain p c => cases hx; exact decode_controlWord hwf .gain p c
  | states p c => cases hx; exact decode_controlWord hwf .states p c
  | setVolume l r =>
    cases hx
    obtain ⟨hl, hr⟩ := Bool.and_eq_true_iff.1 hi
    exact decode_setVolume 0 false (readPort_portPattern hwf hl) (readPort_portPattern hwf hr)
  | setGain g => cases hx; exact decode_setGain 0 0 false (readPort_portPattern hwf hi)
  | beginOp | mute | getStatus | setZeroCrossing _ | setExternalClock _ | setLinkChannels _ => cases hx; rfl
  -- a primitive has no encoding
  | _ => cases hx

/-- Settles O55: the word of the two frames has a select constant, and is the control word of its own fields. -/
theorem everyTwoFramesAreOneControlWord : Obligations.EveryTwoFramesAreOneControlWord := by
  intro cfg f1 f2 hwf
  obtain ⟨r, hr⟩ := exists_select hwf (joinFrames f1 f2)
  refine ⟨r, payloadField (joinFrames f1 f2), chipBits (joinFrames f1 f2), decodeWord_of_select hwf hr, ?_⟩
  rw [encode_wordInstr, controlWord_fields hr, framesOf, hi8_joinFrames, lo8_joinFrames]

theorem decode_bracket {cfg : Config} (h : cfg.wf = true) (fs : List Byte) :
    (∃ i, decode cfg (.frames fs) = .ok i ∧ fs.length = 2) ∨
      (decode cfg (.frames fs) = .error .malformedBracket ∧ fs.length ≠ 2) := by
  match fs with
  | [] | [_] => exact .inr ⟨rfl, by simp⟩
  | _ :: _ :: _ :: _ => exact .inr ⟨rfl, by simp⟩
  | [f1, f2] =>
    obtain ⟨r, hr⟩ := exists_select h (joinFrames f1 f2)
    exact .inl ⟨_, decodeWord_of_select h hr, rfl⟩

theorem decode_command_fits {cfg : Config} (h : cfg.wf = true) {p : CommandPort} (hp : portsFit cfg p) :
    ∃ i, decode cfg (.command p) = .ok i ∧ i.wf cfg = true := by
  have hn : 0 < cfg.wVal := Nat.lt_of_lt_of_le (by decide) (wf_wVal h)
  obtain ⟨code, l, r, v, e⟩ := p
  obtain ⟨hvol, hgain⟩ := hp
  match code with
  | 0 | 3 | 4 | 5 | 6 | 7 => exact ⟨_, rfl, rfl⟩
  | 1 =>
    obtain ⟨hl, hr⟩ := hvol rfl
    exact ⟨_, decode_setVolume v e (readPort_fits hl) (readPort_fits hr),
      Bool.and_eq_true_iff.2 ⟨fitsPort_sext hn hl, fitsPort_sext hn hr⟩⟩
  | 2 => exact ⟨_, decode_setGain l r e (readPort_fits (hgain rfl)), fitsPort_sext hn (hgain rfl)⟩

theorem decode_command_wide {cfg : Config} {p : CommandPort} (hp : ¬ portsFit cfg p) :
    decode cfg (.command p) = .error .portTooWide := by
  obtain ⟨code, l, r, v, e⟩ := p
  show decodeCommand cfg ⟨code, l, r, v, e⟩ = _
  match code with
  | 0 | 3 | 4 | 5 | 6 | 7 => exact absurd ⟨nofun, nofun⟩ hp
  | 1 =>
    by_cases hl : l < 2 ^ cfg.wVal
    · have hr : ¬ r < 2 ^ cfg.wVal := fun hr => hp ⟨fun _ => ⟨hl, hr⟩, nofun⟩
      simp [decodeCommand, readPort_fits hl, readPort_wide hr]
    · simp [decodeCommand, readPort_wide hl]
  | 2 =>
    have hv : ¬ v < 2 ^ cfg.wVal := fun hv => hp ⟨nofun, fun _ => hv⟩
    simp [decodeCommand, readPort_wide hv]

/-- Settles O56: a bracket is taken exactly when it has two frames, a command exactly when the ports it reads fit. -/
theorem decoderRefusesExactlyMalformedInput : Obligations.DecoderRefusesExactlyMalformedInput := by
  intro cfg hwf
  refine ⟨fun fs => ?_, fun fs hfs => ?_, fun p => decode_command_fits hwf, fun p => decode_command_wide⟩
  · obtain ⟨i, hi, hlen⟩ | ⟨he, hlen⟩ := decode_bracket hwf fs
    · simp [hi, hlen]
    · simp [he, hlen]
  · obtain ⟨i, hi, -⟩ | ⟨-, hlen⟩ := decode_bracket hwf fs
    · exact ⟨i, hi⟩
    · exact absurd hfs hlen

/-- Settles O57: the decoder evaluated on the words the spec prints. -/
theorem sampleWordsDecodeAsTheSpecPrints : Obligations.SampleWordsDecodeAsTheSpecPrints := by
  unfold Obligations.SampleWordsDecodeAsTheSpecPrints
  decide

end Sys2Proof.Machine
end

section
/-! What an instruction that answers a next state has done, said once for all of them: `exec_ran` sorts it into six
cases, and `Keeps` is what each case leaves of the wire, the pins and the chip. -/

namespace Sys2Proof.Machine

/-! The mirrors an instruction writes and the words it sends. -/

/-- The gain mirror as the instruction writes it, before its word is sent (42_device_operations.md sections 2 and 3). -/
def gainAfter (s : State) : Instr → Word
  | .setGain g => if gainValid s.cfg g then gainCode g else s.gainMirror
  | .setZeroCrossing e => setFeature .zeroCrossing e s.gainMirror
  | .setLinkChannels e => setFeature .link e s.gainMirror
  | _ => s.gainMirror

/-- The states mirror as the instruction writes it (42_device_operations.md section 3). -/
def statesAfter (s : State) : Instr → Word
  | .setExternalClock e => setFeature .externalClock e s.statesMirror
  | _ => s.statesMirror

/-- The state with the mirrors written, before anything is sent. -/
def State.prepared (i : Instr) (s : State) : State :=
  { s with gainMirror := gainAfter s i, statesMirror := statesAfter s i }

/-- The payloads an operation sends, each with its register, in order (42_device_operations.md R162 to R167). -/
def stores (s : State) : Instr → List (Reg × Word)
  | .setVolume l r =>
    if volumeValid s.cfg l && volumeValid s.cfg r then [(.attL, atten l), (.attR, atten r)] else []
  | .setGain g => if gainValid s.cfg g then [(.gain, gainCode g)] else []
  | .mute => [(.attL, 0x0000#16), (.attR, 0x0000#16)]
  | .setZeroCrossing e => [(.gain, setFeature .zeroCrossing e s.gainMirror)]
  | .setLinkChannels e => [(.gain, setFeature .link e s.gainMirror)]
  | .setExternalClock e => [(.states, setFeature .externalClock e s.statesMirror)]
  | _ => []

/-- The words the instruction sends, in order. -/
def wordsSent (s : State) : Instr → List Word
  | .sendWordSw w | .sendWordHw w | .sendWord w => [w]
  | i => (stores s i).map fun p => assemble s.cfg p.1 p.2

/-- What an instruction that sends words hands back when it returns. -/
def answer : Instr → Result
  | .setVolume _ _ | .setGain _ => .bool true
  | _ => .none

/-- The instruction writes no mirror and sends no word here. -/
structure Sendless (s : State) (i : Instr) : Prop where
  mirrors : s.prepared i = s
  words   : wordsSent s i = []

/-- The calls of one byte by the strategy in force (41_transport.md R136, R137). -/
def byteCalls (cfg : Config) (b : Byte) : List Call :=
  (msbBits b).flatMap (match cfg.mode with
    | .hw => bitCallsHw cfg
    | .sw => bitCallsSw cfg)

theorem byteCalls_sw {cfg : Config} (hm : cfg.mode = .sw) (b : Byte) :
    byteCalls cfg b = (msbBits b).flatMap (bitCallsSw cfg) := by
  rw [byteCalls, hm]

theorem byteCalls_hw {cfg : Config} (hm : cfg.mode = .hw) (b : Byte) :
    byteCalls cfg b = (msbBits b).flatMap (bitCallsHw cfg) := by
  rw [byteCalls, hm]

/-- All that an instruction which answers a next state can have done. -/
inductive Ran (s : State) (i : Instr) : State → Prop
  | latched (w : Word) (quiet : s.seq = .idle) (other : isOperation i = false) (silent : Sendless s i) :
      Ran s i (s.latch w)
  | answered (r : Result) (silent : Sendless s i) : Ran s i (s.handBack r)
  | raised (cause : raises s.cfg i = true) (silent : Sendless s i) : Ran s i s.raiseValueError
  | began (begin : i = .beginOp) (running : s.blocked = false) (silent : Sendless s i) :
      Ran s i (s.beginPins.complete fun u => { u with init := true }.handBack (.bool true))
  | shifted (b : Byte) (running : s.blocked = false) (begun : s.init = true) (other : isOperation i = false)
      (silent : Sendless s i) : Ran s i ((s.calls (byteCalls s.cfg b)).handBack .none)
  | sent (u : State) (running : s.blocked = false) (begun : s.init = true) (words : wordsSent s i ≠ [])
      (sends : Sends (s.prepared i) u (wordsSent s i)) : Ran s i (u.handBack (if u.blocked then .none else answer i))

theorem stores_setVolume (s : State) (l r : Int) : stores s (.setVolume l r) =
    if volumeValid s.cfg l && volumeValid s.cfg r then [(.attL, atten l), (.attR, atten r)] else [] := rfl

theorem stores_setGain (s : State) (g : Int) :
    stores s (.setGain g) = if gainValid s.cfg g then [(.gain, gainCode g)] else [] := rfl

theorem gainAfter_setGain (s : State) (g : Int) :
    gainAfter s (.setGain g) = if gainValid s.cfg g then gainCode g else s.gainMirror := rfl

theorem wordsSent_operation {i : Instr} (h : isOperation i = true) (s : State) :
    wordsSent s i = (stores s i).map fun p => assemble s.cfg p.1 p.2 := by
  cases i with
  | sendWordSw w | sendWordHw w | sendWord w => cases h
  | _ => rfl

/-- An operation that stores nothing and leaves the mirrors sends nothing. -/
theorem sendless_of_stores {s : State} {i : Instr} (h : isOperation i = true) (nothing : stores s i = [])
    (mirrors : s.prepared i = s) : Sendless s i :=
  ⟨mirrors, by rw [wordsSent_operation h, nothing, List.map_nil]⟩

theorem complete_handBack (u : State) (r : Result) :
    u.complete (State.handBack r) = u.handBack (if u.blocked then .none else r) := by
  cases hb : u.blocked with
  | true => exact complete_blocked hb
  | false => exact complete_running hb

/-- An instruction whose answer is `none` hands that back whether or not a call of it hangs. -/
theorem handBack_none (u : State) : u.handBack .none = u.handBack (if u.blocked then .none else .none) := by
  rw [ite_self]

theorem sendWord_sw {s : State} (hm : s.cfg.mode = .sw) (w : Word) : s.sendWord w = s.sendWordSw w := by
  rw [State.sendWord, hm]

theorem sendWord_hw {s : State} (hm : s.cfg.mode = .hw) (w : Word) : s.sendWord w = s.sendWordHw w := by
  rw [State.sendWord, hm]

theorem exec_ran {i : Instr} {s t : State} (h : exec i s = .next t) : Ran s i t := by
  cases i with
  | attL p c => obtain ⟨hq, rfl⟩ := exec_wordInstr_next (r := .attL) h; exact .latched _ hq rfl ⟨rfl, rfl⟩
  | attR p c => obtain ⟨hq, rfl⟩ := exec_wordInstr_next (r := .attR) h; exact .latched _ hq rfl ⟨rfl, rfl⟩
  | gain p c => obtain ⟨hq, rfl⟩ := exec_wordInstr_next (r := .gain) h; exact .latched _ hq rfl ⟨rfl, rfl⟩
  | states p c => obtain ⟨hq, rfl⟩ := exec_wordInstr_next (r := .states) h; exact .latched _ hq rfl ⟨rfl, rfl⟩
  | beginOp => obtain ⟨-, hb, rfl⟩ := exec_begin_next h; exact .began rfl hb ⟨rfl, rfl⟩
  | setVolume l r =>
    obtain ⟨-, hb, hi, ⟨hl, hr, rfl⟩ | ⟨hv, rfl⟩⟩ := exec_setVolume_next h
    · have hw : wordsSent s (.setVolume l r) = [assemble s.cfg .attL (atten l), assemble s.cfg .attR (atten r)] := by
        rw [wordsSent_operation rfl, stores_setVolume, if_pos (by rw [hl, hr]; rfl)]
        rfl
      rw [complete_handBack]
      exact .sent _ hb hi (by rw [hw]; simp) (by rw [hw]; exact twoWrites_sends s _ _ _ _)
    · exact .raised (by rw [raises_setVolume, hv]; rfl)
        (sendless_of_stores rfl (by rw [stores_setVolume, hv]; rfl) rfl)
  | setGain g =>
    obtain ⟨-, hb, hi, ⟨hv, rfl⟩ | ⟨hv, rfl⟩⟩ := exec_setGain_next h
    · have hw : wordsSent s (.setGain g) = [assemble s.cfg .gain (gainCode g)] := by
        rw [wordsSent_operation rfl, stores_setGain, if_pos hv]
        rfl
      have hm : s.prepared (.setGain g) = { s with gainMirror := gainCode g } := by
        rw [State.prepared, gainAfter_setGain, if_pos hv]
        rfl
      rw [complete_handBack]
      exact .sent _ hb hi (by rw [hw]; simp) (by rw [hw, hm]; exact storeGain_sends s _)
    · exact .raised (by rw [raises_setGain, hv]; rfl)
        (sendless_of_stores rfl (by rw [stores_setGain, hv]; rfl)
          (by rw [State.prepared, gainAfter_setGain, hv]; rfl))
  | mute =>
    obtain ⟨-, hb, hi, rfl⟩ := exec_mute_next h
    rw [handBack_none]
    exact .sent _ hb hi (List.cons_ne_nil _ _) (twoWrites_sends s _ _ _ _)
  | setZeroCrossing e =>
    obtain ⟨-, hb, hi, rfl⟩ := exec_setZeroCrossing_next h
    rw [gainFeature_eq, handBack_none]
    exact .sent _ hb hi (List.cons_ne_nil _ _) (storeGain_sends s _)
  | setLinkChannels e =>
    obtain ⟨-, hb, hi, rfl⟩ := exec_setLinkChannels_next h
    rw [gainFeature_eq, handBack_none]
    exact .sent _ hb hi (List.cons_ne_nil _ _) (storeGain_sends s _)
  | setExternalClock e =>
    obtain ⟨-, hb, hi, rfl⟩ := exec_setExternalClock_next h
    rw [statesFeature_eq, handBack_none]
    exact .sent _ hb hi (List.cons_ne_nil _ _) (storeStates_sends s _)
  | getStatus => obtain ⟨-, -, rfl⟩ := exec_getStatus_next h; exact .answered _ ⟨rfl, rfl⟩
  | volumeValid _ | atten _ | gainCode _ | gainValid _ | assemble _ _ | flagBit _ _ =>
    cases h; exact .answered _ ⟨rfl, rfl⟩
  | shiftByteSw b =>
    obtain ⟨-, hb, hi, hm, rfl⟩ := exec_shiftByteSw_next h
    rw [shiftByteSw_calls, ← byteCalls_sw hm]
    exact .shifted b hb hi rfl ⟨rfl, rfl⟩
  | shiftByteHw b =>
    obtain ⟨-, hb, hi, hm, rfl⟩ := exec_shiftByteHw_next h
    rw [shiftByteHw_calls, ← byteCalls_hw hm]
    exact .shifted b hb hi rfl ⟨rfl, rfl⟩
  | sendWord w =>
    obtain ⟨-, hb, hi, rfl⟩ := exec_sendWord_next h
    rw [handBack_none]
    exact .sent _ hb hi (List.cons_ne_nil _ _) (sendWord_sends s w)
  | sendWordSw w =>
    obtain ⟨-, hb, hi, hm, rfl⟩ := exec_sendWordSw_next h
    rw [handBack_none, ← sendWord_sw hm]
    exact .sent _ hb hi (List.cons_ne_nil _ _) (sendWord_sends s w)
  | sendWordHw w =>
    obtain ⟨-, hb, hi, hm, rfl⟩ := exec_sendWordHw_next h
    rw [handBack_none, ← sendWord_hw hm]
    exact .sent _ hb hi (List.cons_ne_nil _ _) (sendWord_sends s w)

/-! What each case leaves. -/

/-- The pin events `ps` went out between the two states; of the block's registers nothing is said. -/
structure Acts (s t : State) (ps : List Event) : Prop where
  cfg       : t.cfg = s.cfg
  inputs    : t.inputs = s.inputs
  linkSound : t.linkSound = s.linkSound
  trace     : ∃ es, t.trace = s.trace ++ es ∧ pinTrace es = ps
  rx        : t.rx = ps.foldl Receiver.step s.rx
  canonical : memWf s.mem = true → memWf t.mem = true
  mapped    : s.cfg.wf = true → (∀ c ∈ s.mem, c.1 < 32) → ∀ c ∈ t.mem, c.1 < 32
  total     : ∀ a, (readByte s.mem a).isSome = true → (readByte t.mem a).isSome = true
  outside   : ∀ a, (∀ r, ¬ inRegister s.cfg r a) → readByte t.mem a = readByte s.mem a

/-- No bracket was malformed (41_transport.md R141). -/
def WordsOnly (r : Receiver) : Prop := ∀ l ∈ r.out, l ≠ .malformed

/-- What an instruction leaves of the wire, the pins and the chip, whether or not a call of it hangs. -/
structure Keeps (s t : State) : Prop where
  acts    : ∃ ps, Acts s t ps
  running : t.blocked = false → s.blocked = false
  quiet   : t.blocked = false → t.seq = s.seq
  wire    : WireIdle s → t.blocked = false → WireIdle t
  words   : (s.blocked = false → WireIdle s) → WordsOnly s.rx → WordsOnly t.rx
  begun   : t.blocked = false → t.init = true → (s.init = true → PinsIdle s) → PinsIdle t
  fresh   : t.blocked = false → t.init = false →
    s.init = false ∧ t.csN = s.csN ∧ t.sclk = s.sclk ∧ t.mosi = s.mosi ∧ t.trace = s.trace
  hw      : s.cfg.mode = .hw → t.sclk = s.sclk ∧ t.mosi = s.mosi

/-- The events of calls made after the mirrors were written, whatever is then handed back. -/
theorem Emits.acts {s t : State} {g m : Word} {ps : List Event}
    (h : Emits { s with gainMirror := g, statesMirror := m } t ps) (b : Bool) (r : Result) :
    Acts s { t with init := b, result := r } ps :=
  ⟨h.cfg, h.inputs, h.linkSound, h.trace, h.rx, h.canonical, h.mapped, h.total, h.outside⟩

/-- What happens to the chip alone, or to the error register and the result, is nothing on the wire. -/
theorem acts_chip (s : State) (m : List Host.Cell) (k : Nat) (e : ErrCode) (r : Result)
    (canonical : memWf s.mem = true → memWf m = true)
    (mapped : s.cfg.wf = true → (∀ c ∈ s.mem, c.1 < 32) → ∀ c ∈ m, c.1 < 32)
    (total : ∀ a, (readByte s.mem a).isSome = true → (readByte m a).isSome = true)
    (outside : ∀ a, (∀ r, ¬ inRegister s.cfg r a) → readByte m a = readByte s.mem a) :
    Acts s { s with mem := m, upsets := k, err := e, result := r } [] :=
  ⟨rfl, rfl, rfl, ⟨[], by simp, rfl⟩, rfl, canonical, mapped, total, outside⟩

theorem acts_registers (s : State) (e : ErrCode) (r : Result) : Acts s { s with err := e, result := r } [] :=
  acts_chip s s.mem s.upsets e r id (fun _ h => h) (fun _ h => h) (fun _ _ => rfl)

theorem acts_upset (s : State) : Acts s s.upset [] :=
  acts_chip s _ _ s.err s.result (memWf_upsetMem s.cfg _) (fun hc => mapped_upsetMem hc _)
    (fun _ => total_upsetMem s.cfg _) (readByte_upsetMem s.cfg _ _)

theorem acts_latchWord (s : State) (w : Word) : Acts s { s with mem := latchWord s.cfg w s.mem } [] :=
  acts_chip s _ s.upsets s.err s.result (memWf_latchWord s.cfg w) (fun hc => mapped_latchWord hc w)
    (fun _ => total_latchWord s.cfg w) (readByte_latchWord s.cfg w _)

theorem keeps_chip {s : State} {m : List Host.Cell} {k : Nat} {e : ErrCode} {r : Result}
    (h : Acts s { s with mem := m, upsets := k, err := e, result := r } []) :
    Keeps s { s with mem := m, upsets := k, err := e, result := r } :=
  ⟨⟨[], h⟩, id, fun _ => rfl, fun hw _ => ⟨hw.cs, hw.clk⟩, fun _ ho => ho,
    fun _ hi hp => ⟨(hp hi).cs, (hp hi).clk⟩, fun _ hi => ⟨hi, rfl, rfl, rfl, rfl⟩, fun _ => ⟨rfl, rfl⟩⟩

theorem keeps_upset (s : State) : Keeps s s.upset := keeps_chip (acts_upset s)

theorem keeps_latch (s : State) (w : Word) : Keeps s (s.latch w) := by
  cases hl : s.linkSound with
  | true => rw [latch_sound hl]; exact keeps_chip (acts_latchWord s w)
  | false => rw [latch_unsound hl]; exact keeps_upset s

/-- While chip-select is high nothing is latched, and it stays high unless it is driven low. -/
theorem receiver_high {ps : List Event} (h : ∀ e ∈ ps, e ≠ .cs false) {r : Receiver} (hcs : r.cs = true) :
    (ps.foldl Receiver.step r).out = r.out := by
  induction ps generalizing r with
  | nil => rfl
  | cons e ps ih =>
    have he := h e List.mem_cons_self
    have step : (r.step e).cs = true ∧ (r.step e).out = r.out := by
      cases e with
      | cs l => cases l <;> simp_all [Receiver.step, Receiver.latches]
      | sclk l => cases l <;> exact ⟨hcs, rfl⟩
      | _ => exact ⟨hcs, rfl⟩
    rw [List.foldl_cons, ih (fun x hx => h x (List.mem_cons_of_mem _ hx)) step.1, step.2]

theorem wordsOnly_append {r : Receiver} (h : WordsOnly r) {q : Receiver} {vs : List Word}
    (ho : q.out = r.out ++ vs.map Latched.word) : WordsOnly q := by
  intro l hl
  rw [ho, List.mem_append, List.mem_map] at hl
  rcases hl with hl | ⟨v, -, rfl⟩
  · exact h l hl
  · exact Latched.noConfusion

theorem keeps_sends {s u : State} {g m : Word} {ws : List Word} (r : Result) (hb : s.blocked = false)
    (hi : s.init = true) (hne : ws ≠ []) (h : Sends { s with gainMirror := g, statesMirror := m } u ws) :
    Keeps s (u.handBack r) := by
  obtain ⟨ps, hpart, e⟩ := h.part
  have init : u.init = true := e.init.trans hi
  have idle : WireIdle s → WireIdle { s with gainMirror := g, statesMirror := m } := fun hw => ⟨hw.cs, hw.clk⟩
  refine ⟨⟨ps, e.acts _ _⟩, fun _ => hb,
    fun hu => (h.whole hu).2.2, fun hw hu => ?wire, fun hw ho => ?words, fun hu _ _ => ?begun, fun _ hf => ?fresh, h.hw⟩
  case wire =>
    have := (h.whole hu).2.1.idle (idle hw)
    exact ⟨this.cs, this.clk⟩
  case words =>
    obtain ⟨vs, -, hout⟩ := receiver_part hpart (hw hb).cs (hw hb).clk
    exact wordsOnly_append ho (by rw [← hout, State.handBack_rx, e.rx])
  case begun =>
    obtain ⟨-, ht, -⟩ := h.whole hu
    have hlast := List.getLast?_eq_some_getLast hne
    exact ⟨ht.csN _ hlast, fun hm => (ht.sw (by rw [← e.cfg]; exact hm) _ hlast).1⟩
  case fresh => exact absurd (init.symm.trans hf) (by decide)

/-! BEGIN. -/

theorem beginCalls_high (cfg : Config) : ∀ e ∈ (beginCalls cfg).flatMap Call.pins, e ≠ .cs false := by
  rw [beginCalls_pins]
  cases cfg.mode <;> simp

theorem beginCalls_writes {cfg : Config} (hm : cfg.mode = .hw) {p : Pin} (hp : p ≠ .csN) :
    ∀ c ∈ beginCalls cfg, c.writes p = false := by
  intro c hc
  simp only [beginCalls, hm, List.mem_append, List.mem_cons, List.not_mem_nil, or_false] at hc
  rcases hc with (rfl | rfl) | rfl
  · rfl
  · exact decide_eq_false hp.symm
  · rfl

/-- A pin register that no call of a list writes is unchanged by the calls, however many of them return. -/
theorem calls_clock_data {cs : List Call} (h : ∀ p, p ≠ Pin.csN → ∀ c ∈ cs, c.writes p = false) (s : State) :
    (s.calls cs).sclk = s.sclk ∧ (s.calls cs).mosi = s.mosi := by
  obtain ⟨n, hn⟩ := calls_prefix cs s
  rw [hn]
  exact ⟨effects_sclk (fun c hc => h .sclk (by decide) c (List.mem_of_mem_take hc)) s,
    effects_mosi (fun c hc => h .mosi (by decide) c (List.mem_of_mem_take hc)) s⟩

/-- On an idle wire BEGIN latches nothing, however many of its calls return. -/
theorem beginCalls_out {s : State} (h : WireIdle s) : (s.calls (beginCalls s.cfg)).rx.out = s.rx.out := by
  obtain ⟨ps, hpre, e, -⟩ := emits_calls (beginCalls s.cfg) s
  rw [e.rx]
  exact receiver_high (fun x hx => beginCalls_high s.cfg x (hpre.subset hx)) h.cs

theorem keeps_begin {s : State} (hb : s.blocked = false) :
    Keeps s (s.beginPins.complete fun u => { u with init := true }.handBack (.bool true)) := by
  rw [beginPins_calls]
  obtain ⟨ps, -, e, -⟩ := emits_calls (beginCalls s.cfg) s
  have hw (hm : s.cfg.mode = .hw) := calls_clock_data (fun p hp => beginCalls_writes hm hp) s
  cases hc : (s.calls (beginCalls s.cfg)).blocked with
  | true =>
    rw [complete_blocked hc]
    have stuck : ((s.calls (beginCalls s.cfg)).handBack .none).blocked ≠ false := by
      rw [State.handBack_blocked, hc]; decide
    exact ⟨⟨ps, e.acts _ _⟩, fun _ => hb,
      fun hf => absurd hf stuck, fun _ hf => absurd hf stuck,
      fun hw ho l hl => ho l (by rw [← beginCalls_out (hw hb)]; exact hl), fun hf => absurd hf stuck,
      fun hf => absurd hf stuck, hw⟩
  | false =>
    rw [complete_running hc]
    have returned := calls_returned hc
    obtain ⟨hcs, hsw, -⟩ := begin_pins s
    refine ⟨⟨ps, e.acts _ _⟩,
      fun _ => hb, fun _ => calls_seq _ s, fun hw _ => ?wire,
      fun hw ho l hl => ho l (by rw [← beginCalls_out (hw hb)]; exact hl),
      fun _ _ _ => ⟨?cs, fun hm => ?clk⟩, fun _ hf => Bool.noConfusion hf, hw⟩
    case wire =>
      obtain ⟨idle, -, -⟩ := begin_idle hw
      rw [returned]
      exact ⟨idle.cs, idle.clk⟩
    case cs => rw [returned]; exact hcs
    case clk =>
      rw [returned]
      exact (hsw (by rw [← e.cfg]; exact hm)).1

/-! One byte outside a bracket. -/

theorem byteCalls_pins (cfg : Config) (b : Byte) : (byteCalls cfg b).flatMap Call.pins = bytePinEvents b := by
  rw [byteCalls, bytePinEvents_eq]
  split
  · exact bitsCalls_pins (bitCallsHw_pins cfg) _
  · exact bitsCalls_pins (bitCallsSw_pins cfg) _

theorem byteCalls_csN (cfg : Config) (b : Byte) : ∀ c ∈ byteCalls cfg b, c.writes .csN = false := by
  obtain ⟨hsw, hhw, -, -⟩ := writes_bits cfg (msbBits b)
  unfold byteCalls
  split
  · exact hhw .csN
  · exact hsw

theorem bytePinEvents_cs (b : Byte) (l : Bool) : ∀ e ∈ bytePinEvents b, e ≠ .cs l := by
  intro e he
  simp only [bytePinEvents, bitPinEvents, List.mem_flatMap, List.mem_cons, List.not_mem_nil, or_false] at he
  rintro rfl
  simp at he

theorem keeps_shifted {s : State} (hb : s.blocked = false) (hi : s.init = true) (b : Byte) :
    Keeps s ((s.calls (byteCalls s.cfg b)).handBack .none) := by
  obtain ⟨ps, hpre, e, hall⟩ := emits_calls (byteCalls s.cfg b) s
  rw [byteCalls_pins] at hpre hall
  have init : (s.calls (byteCalls s.cfg b)).init = true := e.init.trans hi
  have out : (s.calls (byteCalls s.cfg b)).rx.out = s.rx.out := by
    rw [e.rx]
    exact receiver_out ps (fun x hx => bytePinEvents_cs b true x (hpre.subset hx)) _
  refine ⟨⟨ps, e.acts _ _⟩, fun _ => hb,
    fun _ => calls_seq _ s, fun hw hu => ?wire, fun _ ho l hl => ho l (by rw [← out]; exact hl),
    fun hu _ hp => ?begun, fun _ hf => ?fresh, fun hm => ?hw⟩
  case wire =>
    obtain ⟨m, hm⟩ := receiver_byte b s.rx hw.clk
    have hrx := e.rx
    rw [hall hu, hm] at hrx
    exact ⟨by rw [State.handBack_rx, hrx]; exact hw.cs, by rw [State.handBack_rx, hrx]; exact hw.clk⟩
  case begun =>
    have returned := calls_returned hu
    refine ⟨?_, fun hm => ?_⟩
    · rw [State.handBack_csN, returned]
      exact (effects_csN (byteCalls_csN s.cfg b) s).trans (hp hi).cs
    · have low := (byteSw_pins s s.cfg b).1
      rw [← byteCalls_sw (by rw [← e.cfg]; exact hm)] at low
      rw [State.handBack_sclk, returned]
      exact low
  case fresh => exact absurd (init.symm.trans hf) (by decide)
  case hw =>
    refine calls_clock_data (fun p _ => ?_) s
    rw [byteCalls_hw hm]
    exact (writes_bits s.cfg (msbBits b)).2.1 p

theorem Ran.keeps {i : Instr} {s t : State} (h : Ran s i t) : Keeps s t := by
  cases h with
  | latched w => exact keeps_latch s w
  | answered r => exact keeps_chip (acts_registers s s.err r)
  | raised => exact keeps_chip (acts_registers s _ _)
  | began _ hb => exact keeps_begin hb
  | shifted b hb hi => exact keeps_shifted hb hi b
  | sent u hb hi hne hs => exact keeps_sends _ hb hi hne hs

theorem exec_keeps {i : Instr} {s t : State} (h : exec i s = .next t) : Keeps s t := (exec_ran h).keeps

/-! The mirrors and the flag `init`. -/

theorem Ran.mirrors {i : Instr} {s t : State} (h : Ran s i t) :
    t.gainMirror = gainAfter s i ∧ t.statesMirror = statesAfter s i := by
  have still (hn : Sendless s i) : s.gainMirror = gainAfter s i ∧ s.statesMirror = statesAfter s i :=
    ⟨congrArg State.gainMirror hn.mirrors.symm, congrArg State.statesMirror hn.mirrors.symm⟩
  cases h with
  | latched w _ _ hn =>
    cases hl : s.linkSound with
    | true => rw [latch_sound hl]; exact still hn
    | false => rw [latch_unsound hl]; exact still hn
  | answered r hn => exact still hn
  | raised _ hn => exact still hn
  | began _ hb hn =>
    rw [beginPins_calls]
    obtain ⟨_, -, e, -⟩ := emits_calls (beginCalls s.cfg) s
    obtain ⟨hg, hs⟩ := still hn
    unfold State.complete
    split
    · exact ⟨e.gainMirror.trans hg, e.statesMirror.trans hs⟩
    · exact ⟨e.gainMirror.trans hg, e.statesMirror.trans hs⟩
  | shifted b _ _ _ hn =>
    obtain ⟨_, -, e, -⟩ := emits_calls (byteCalls s.cfg b) s
    obtain ⟨hg, hs⟩ := still hn
    exact ⟨e.gainMirror.trans hg, e.statesMirror.trans hs⟩
  | sent u _ _ _ hs =>
    obtain ⟨_, -, e⟩ := hs.part
    exact ⟨e.gainMirror, e.statesMirror⟩

theorem exec_mirrors {i : Instr} {s t : State} (h : exec i s = .next t) :
    t.gainMirror = gainAfter s i ∧ t.statesMirror = statesAfter s i := (exec_ran h).mirrors

theorem latch_init (s : State) (w : Word) : (s.latch w).init = s.init := by
  cases hl : s.linkSound with
  | true => rw [latch_sound hl]
  | false => rw [latch_unsound hl, State.upset_init]

theorem exec_init {i : Instr} {s t : State} (h : exec i s = .next t) :
    t.init = s.init ∨ (i = .beginOp ∧ t.init = true) := by
  cases exec_ran h with
  | latched w => exact .inl (latch_init s w)
  | answered r => exact .inl rfl
  | raised => exact .inl rfl
  | began hbegin =>
    rw [beginPins_calls]
    obtain ⟨_, -, e, -⟩ := emits_calls (beginCalls s.cfg) s
    unfold State.complete
    split
    · exact .inl e.init
    · exact .inr ⟨hbegin, rfl⟩
  | shifted b =>
    obtain ⟨_, -, e, -⟩ := emits_calls (byteCalls s.cfg b) s
    exact .inl e.init
  | sent u _ _ _ hs =>
    obtain ⟨_, -, e⟩ := hs.part
    exact .inl e.init

end Sys2Proof.Machine
end

section
/-! The statements on every instruction and every step: who writes which register, what the wire and the memory keep,
and the invariant of the machine. -/

namespace Sys2Proof.Machine

/-! The frame of an instruction. -/

theorem Acts.grows {s t : State} {ps : List Event} (h : Acts s t ps) : s.trace <+: t.trace := by
  obtain ⟨es, he, -⟩ := h.trace
  exact ⟨es, he.symm⟩

/-- An event only adds to what the receiver has latched. -/
theorem receiver_step_out (r : Receiver) (e : Event) : r.out <+: (r.step e).out := by
  cases e with
  | cs l => cases l <;> simp [Receiver.step]
  | sclk l => cases l <;> exact List.prefix_refl _
  | _ => exact List.prefix_refl _

theorem receiver_out_grows (ps : List Event) (r : Receiver) : r.out <+: (ps.foldl Receiver.step r).out := by
  induction ps generalizing r with
  | nil => exact List.prefix_refl _
  | cons e ps ih => exact (receiver_step_out r e).trans (ih _)

/-- Settles O34: `Keeps` has the frame, and the receiver only adds to its view. -/
theorem configurationIsFixedAndTheTraceGrows : Obligations.ConfigurationIsFixedAndTheTraceGrows := by
  intro i s t h
  have k := exec_keeps h
  obtain ⟨ps, a⟩ := k.acts
  exact ⟨a.cfg, a.grows, by rw [a.rx]; exact receiver_out_grows ps s.rx, a.inputs, a.linkSound, k.quiet⟩

/-- Settles O35: whatever an instruction puts on the wire, the chip writes its own registers only. -/
theorem onlyTheChipsFourRegistersChange : Obligations.OnlyTheChipsFourRegistersChange := by
  intro i s t h
  obtain ⟨_, a⟩ := (exec_keeps h).acts
  exact a.outside

/-! The mirrors. -/

theorem gainAfter_writers {s : State} {i : Instr} (h : gainAfter s i ≠ s.gainMirror) :
    (∃ g, i = .setGain g) ∨ (∃ e, i = .setZeroCrossing e) ∨ (∃ e, i = .setLinkChannels e) := by
  cases i with
  | setGain g => exact .inl ⟨g, rfl⟩
  | setZeroCrossing e => exact .inr (.inl ⟨e, rfl⟩)
  | setLinkChannels e => exact .inr (.inr ⟨e, rfl⟩)
  | _ => exact absurd rfl h

theorem statesAfter_writers {s : State} {i : Instr} (h : statesAfter s i ≠ s.statesMirror) :
    ∃ e, i = .setExternalClock e := by
  cases i with
  | setExternalClock e => exact ⟨e, rfl⟩
  | _ => exact absurd rfl h

theorem raises_writers {cfg : Config} {i : Instr} (h : raises cfg i = true) :
    (∃ l r, i = .setVolume l r) ∨ (∃ g, i = .setGain g) := by
  cases i with
  | setVolume l r => exact .inl ⟨l, r, rfl⟩
  | setGain g => exact .inr ⟨g, rfl⟩
  | _ => cases h

/-- The error register after an instruction: set where it raises, else as before. -/
theorem exec_err {i : Instr} {s t : State} (h : exec i s = .next t) :
    t.err = if raises s.cfg i then .valueError else s.err := by
  split
  · rename_i hr
    rw [eq_raiseValueError_of_raises h hr, State.raiseValueError_err]
  · rename_i hr
    exact err_of_not_raises h (by simpa using hr)

/-- Settles O33: each register's value after an instruction is said once, and changes only for its writers. -/
theorem eachRegisterHasOnlyItsWriters : Obligations.EachRegisterHasOnlyItsWriters := by
  intro i s t h
  obtain ⟨hg, hs⟩ := exec_mirrors h
  have he := exec_err h
  refine ⟨fun hne => gainAfter_writers (hg ▸ hne), fun hne => statesAfter_writers (hs ▸ hne), fun hne => ?_,
    fun hset => ?_, fun hne => (exec_init h).resolve_left hne⟩
  · cases hr : raises s.cfg i with
    | true => exact raises_writers hr
    | false => exact absurd (by simpa [hr] using he) hne
  · rw [he, hset, ite_self]

/-- A predicate on the gain mirror that the three writers establish or keep holds after every instruction. -/
theorem gainAfter_keeps {P : Word → Prop} (code : ∀ g, P (gainCode g))
    (feature : ∀ f e m, f ≠ .externalClock → P m → P (setFeature f e m)) {s : State} (h : P s.gainMirror) (i : Instr) :
    P (gainAfter s i) := by
  cases i with
  | setGain g =>
    rw [gainAfter_setGain]
    split
    · exact code g
    · exact h
  | setZeroCrossing e => exact feature .zeroCrossing e _ (by decide) h
  | setLinkChannels e => exact feature .link e _ (by decide) h
  | _ => exact h

theorem statesAfter_keeps {P : Word → Prop} (feature : ∀ e m, P m → P (setFeature .externalClock e m)) {s : State}
    (h : P s.statesMirror) (i : Instr) : P (statesAfter s i) := by
  cases i with
  | setExternalClock e => exact feature e _ h
  | _ => exact h

/-- A masked word is clear exactly when its bits under the mask are. -/
theorem and_eq_zero_iff (w mask : Word) :
    w &&& mask = 0#16 ↔ ∀ j < 16, mask.getLsbD j = true → w.getLsbD j = false := by
  constructor
  · intro h j _ hm
    have e := congrArg (fun v : Word => v.getLsbD j) h
    simpa [hm] using e
  · intro h
    apply word_ext
    intro j hj
    cases hm : mask.getLsbD j with
    | true => simp [h j hj hm]
    | false => simp [hm]

/-- A feature bit outside the mask leaves what the mask clears clear. -/
theorem setFeature_and_eq_zero {f : Feature} {e : Bool} {m mask : Word} (hf : mask.getLsbD (flagBit f e).1 = false)
    (h : m &&& mask = 0#16) : setFeature f e m &&& mask = 0#16 := by
  rw [and_eq_zero_iff] at h ⊢
  intro j hj hm
  rw [getLsbD_setFeature f e m j hj, if_neg (by rintro rfl; rw [hf] at hm; cases hm)]
  exact h j hj hm

/-- What is clear under a mask is clear under a part of it. -/
theorem and_eq_zero_of_part {w mask part : Word} (hp : mask &&& part = part) (h : w &&& mask = 0#16) :
    w &&& part = 0#16 := by
  rw [← hp, ← BitVec.and_assoc, h]
  exact BitVec.zero_and

/-- A word shifted up is clear under a mask of the bits it left. -/
theorem shiftLeft_and_eq_zero (w : Word) {mask : Word} {k : Nat} (h : ∀ j < 16, mask.getLsbD j = true → j < k) :
    (w <<< k) &&& mask = 0#16 := by
  rw [and_eq_zero_iff]
  exact fun j hj hm => shifted_low_clear w k j (h j hj hm)

theorem gainCode_low_clear (g : Int) : gainCode g &&& 0x01FF#16 = 0#16 := by
  rw [gainCode_eq, BitVec.and_or_distrib_right, shiftLeft_and_eq_zero _ (by decide),
    shiftLeft_and_eq_zero _ (by decide)]
  rfl

theorem gainCode_tame (g : Int) : gainCode g &&& 0x00FF#16 = 0#16 := and_eq_zero_of_part rfl (gainCode_low_clear g)

/-- Settles O39: no gain code and no feature bit has a bit that is to stay clear. -/
theorem unusedMirrorBitsStayClear : Obligations.UnusedMirrorBitsStayClear := by
  intro i s t tame h
  obtain ⟨hg, hs⟩ := exec_mirrors h
  constructor
  · rw [hg]
    refine gainAfter_keeps (P := (· &&& 0x00FF#16 = 0#16)) gainCode_tame (fun f e m hf => ?_) tame.gain i
    cases f with
    | zeroCrossing => exact setFeature_and_eq_zero (show (0x00FF#16).getLsbD 8 = false by decide)
    | externalClock => exact absurd rfl hf
    | link => exact setFeature_and_eq_zero (show (0x00FF#16).getLsbD 15 = false by decide)
  · rw [hs]
    exact statesAfter_keeps (P := (· &&& 0xFDFF#16 = 0#16))
      (fun e m => setFeature_and_eq_zero (show (0xFDFF#16).getLsbD 9 = false by decide)) tame.states i

/-! The invariant. -/

/-- Settles O42: every clause at the values of reset. -/
theorem resetStateHasTheInvariant : Obligations.ResetStateHasTheInvariant :=
  ⟨⟨by decide, fun _ => rfl, rfl, rfl, powerOnMem_wf, powerOnMem_mapped, powerOnMem_total, rfl, fun _ => ⟨rfl, rfl⟩,
      nofun, nofun, fun _ _ => ⟨rfl, rfl, rfl, rfl⟩, nofun⟩,
    ⟨rfl, rfl⟩, ⟨nofun, nofun⟩⟩

/-- What keeps the wire, the pins and the chip, and leaves mirrors clear of the address bits, keeps the invariant. -/
theorem Keeps.invariant {s t : State} (k : Keeps s t) (inv : Invariant s) (gain : t.gainMirror &&& 0x000F#16 = 0#16)
    (states : t.statesMirror &&& 0x000F#16 = 0#16) : Invariant t := by
  obtain ⟨ps, a⟩ := k.acts
  obtain ⟨es, htrace, hpins⟩ := a.trace
  refine ⟨?config, fun hb => (k.quiet hb).trans (inv.quiet (k.running hb)), gain, states, a.canonical inv.canonical,
    a.mapped inv.config inv.mapped, fun x hx => a.total x (inv.total x hx), ?receiver,
    fun hb => k.wire (inv.wire (k.running hb)) hb, k.words inv.wire inv.wordsOnly,
    fun hb hi => k.begun hb hi (inv.begun (k.running hb)), fun hb hf => ?fresh, fun hm => ?peripheral⟩
  case config => rw [a.cfg]; exact inv.config
  case receiver => rw [a.rx, inv.receiver, htrace, pinTrace_append, hpins, List.foldl_append]
  case fresh =>
    obtain ⟨hi, h1, h2, h3, h4⟩ := k.fresh hb hf
    rw [h1, h2, h3, h4]
    exact inv.fresh (k.running hb) hi
  case peripheral =>
    rw [a.cfg] at hm
    obtain ⟨h1, h2⟩ := k.hw hm
    rw [h1, h2]
    exact inv.peripheral hm

theorem exec_invariant {i : Instr} {s t : State} (inv : Invariant s) (h : exec i s = .next t) : Invariant t := by
  obtain ⟨hg, hs⟩ := exec_mirrors h
  refine (exec_keeps h).invariant inv ?_ ?_
  · rw [hg]
    exact gainAfter_keeps (P := (· &&& 0x000F#16 = 0#16)) gainCode_payload (fun f e _ _ => setFeature_payload f e)
      inv.gainClear i
  · rw [hs]
    exact statesAfter_keeps (P := (· &&& 0x000F#16 = 0#16)) (fun e _ => setFeature_payload .externalClock e)
      inv.statesClear i

/-- A fresh handle over a chip and a wire that have the invariant. -/
theorem freshHandle_invariant {s : State} {cfg : Config} (inv : Invariant s) (h : cfg.wf = true) :
    Invariant (s.freshHandle cfg) := by
  have mirrors := h
  simp only [Config.wf, Bool.and_eq_true, Config.mirrorsOk, decide_eq_true_eq] at mirrors
  obtain ⟨⟨⟨⟨⟨⟨-, hg, hs⟩, -⟩, -⟩, -⟩, -⟩, -⟩ := mirrors
  exact ⟨h, fun _ => rfl, hg, hs, inv.canonical, inv.mapped, inv.total, rfl, fun _ => ⟨rfl, rfl⟩, nofun, nofun,
    fun _ _ => ⟨rfl, rfl, rfl, rfl⟩, fun _ => ⟨rfl, rfl⟩⟩

theorem construct_next {cfg : Config} {s t : State} (h : construct cfg s = .next t) :
    cfg.wf = true ∧ t = s.freshHandle cfg := by
  unfold construct at h
  split at h
  · rename_i hc; injection h with h; exact ⟨hc, h.symm⟩
  · cases h

theorem upset_invariant {s : State} (inv : Invariant s) : Invariant s.upset :=
  (keeps_upset s).invariant inv inv.gainClear inv.statesClear

/-- The environment's fields are not in the invariant. -/
theorem Invariant.environment {s : State} (inv : Invariant s) (xs : List Input) (n : Option Nat) (b : Bool) :
    Invariant { s with inputs := xs, returns := n, linkSound := b } :=
  ⟨inv.config, inv.quiet, inv.gainClear, inv.statesClear, inv.canonical, inv.mapped, inv.total, inv.receiver,
    fun hb => ⟨(inv.wire hb).cs, (inv.wire hb).clk⟩, inv.wordsOnly,
    fun hb hi => ⟨(inv.begun hb hi).cs, (inv.begun hb hi).clk⟩, inv.fresh, inv.peripheral⟩

theorem runIssue_next {x : Issue} {s t : State} (h : runIssue x s = .next t) : ∃ i, exec i s = .next t := by
  unfold runIssue at h
  split at h
  · exact ⟨_, h⟩
  · cases h

theorem runInput_invariant {x : Input} {s t : State} (inv : Invariant s) (h : runInput x s = .next t) :
    Invariant t := by
  cases x with
  | issue y =>
    obtain ⟨i, hi⟩ := runIssue_next h
    exact exec_invariant inv hi
  | construct cfg =>
    obtain ⟨-, -, hk⟩ := whenIdle_next h
    obtain ⟨hc, rfl⟩ := construct_next hk
    exact freshHandle_invariant inv hc
  | powerLoss =>
    obtain ⟨hc, rfl⟩ := construct_next h
    refine freshHandle_invariant ?_ hc
    split
    · exact inv
    · exact upset_invariant inv
  | chipPowerLoss => cases h; exact upset_invariant inv
  | stall n => cases h; exact inv.environment s.inputs n s.linkSound
  | link b => cases h; exact inv.environment s.inputs s.returns b

/-- Between operations, and while a call hangs, a step takes the next input. -/
theorem step_takes {s : State} (hc : s.cfg.wf = true) (h : s.seq = .idle ∨ s.blocked = true) :
    step s = takeInput s := by
  rw [step, if_pos hc, if_pos (h.imp_right .inl)]

theorem takeInput_nil {s : State} (h : s.inputs = []) : takeInput s = .next s := by rw [takeInput, h]

theorem takeInput_cons {s : State} {x : Input} {rest : List Input} (h : s.inputs = x :: rest) :
    takeInput s = runInput x { s with inputs := rest } := by rw [takeInput, h]

/-- Settles O43: with the invariant no transfer goes on, so a step takes an input, and whatever the input does keeps
each clause. -/
theorem everyStepKeepsTheInvariant : Obligations.EveryStepKeepsTheInvariant := by
  intro s t inv h
  have idle : s.seq = .idle ∨ s.blocked = true := by
    cases hb : s.blocked with
    | true => exact .inr rfl
    | false => exact .inl (inv.quiet hb)
  rw [step_takes inv.config idle] at h
  cases hx : s.inputs with
  | nil =>
    rw [takeInput_nil hx] at h
    cases h
    exact inv
  | cons x rest =>
    rw [takeInput_cons hx] at h
    exact runInput_invariant (inv.environment rest s.returns s.linkSound) h

end Sys2Proof.Machine
end

section
/-! The statements of 41_transport.md R138 to R146: a word sent whole by either strategy, its exact events, and the chip
that takes it. -/

namespace Sys2Proof.Machine

/-! A word sent where every call returns. -/

theorem exec_sendWord_ready {s : State} (h : Ready s) (w : Word) :
    exec (.sendWord w) s = .next ((s.effects (wordCalls s.cfg w)).handBack .none) := by
  rw [exec, execSendWord, whenBegun_ready h, sendWord_free h.free]

theorem exec_sendWord_sw {s : State} (hm : s.cfg.mode = .sw) (w : Word) :
    exec (.sendWord w) s = exec (.sendWordSw w) s := by
  simp only [exec, execSendWord, execSendWordSw, whenSw, whenBegun, whenIdle, sendWord_sw hm, hm, if_true]

theorem exec_sendWord_hw {s : State} (hm : s.cfg.mode = .hw) (w : Word) :
    exec (.sendWord w) s = exec (.sendWordHw w) s := by
  simp only [exec, execSendWord, execSendWordHw, whenHw, whenBegun, whenIdle, sendWord_hw hm, hm, if_true]

theorem exec_sendWordSw_ready {s : State} (h : Ready s) (hm : s.cfg.mode = .sw) (w : Word) :
    exec (.sendWordSw w) s = .next ((s.effects (wordCalls s.cfg w)).handBack .none) := by
  rw [← exec_sendWord_ready h, exec_sendWord_sw hm]

theorem exec_sendWordHw_ready {s : State} (h : Ready s) (hm : s.cfg.mode = .hw) (w : Word) :
    exec (.sendWordHw w) s = .next ((s.effects (wordCalls s.cfg w)).handBack .none) := by
  rw [← exec_sendWord_ready h, exec_sendWord_hw hm]

/-- What the wire, the block and the chip show of a word sent whole. -/
structure WordSent (s t : State) (w : Word) : Prop where
  transmitted : Transmitted s t [w]
  core        : SameCore s t
  nothing     : t.result = .none
  chip        : s.cfg.wf = true → WireIdle s → s.linkSound = true → ChipTook s t w

theorem wordSent {s : State} (h : Free s) (w : Word) :
    WordSent s ((s.effects (wordCalls s.cfg w)).handBack .none) w where
  transmitted := (word_transmitted s w).handBack .none
  core := (effects_core _ h).handBack .none
  nothing := rfl
  chip := fun hc hi hl => ChipTook.of_latch hc (word_mem s w hi hl)

/-- The events of a word by the software strategy (R138). -/
theorem wordSw_trace (s : State) (w : Word) :
    ∃ ds es : List Bool, ds.length = 8 ∧ es.length = 8 ∧ (s.effects (wordCallsSw s.cfg w)).trace =
      s.trace ++ ([.cs false] ++ byteWireEvents s.cfg.hasMiso (w.extractLsb' 8 8) ds ++
        byteWireEvents s.cfg.hasMiso (w.extractLsb' 0 8) es ++ [.cs true]) := by
  obtain ⟨ds, es, hds, hes, htrace⟩ := wordBits_trace (.inl rfl) w (s.drive .csN false)
  rw [State.driveCs_cfg, State.driveCs_trace] at htrace
  refine ⟨ds, es, hds, hes, ?_⟩
  rw [wordCallsSw, effects_append, effects_append]
  show (((s.drive .csN false).effects _).drive .csN true).trace = _
  rw [State.driveCs_trace, htrace]
  simp only [List.append_assoc]

/-- The events of a word by the hardware strategy, inside one transaction (R139). -/
theorem wordHw_trace (s : State) (w : Word) :
    ∃ ds es : List Bool, ds.length = 8 ∧ es.length = 8 ∧ (s.effects (wordCallsHw s.cfg w)).trace =
      s.trace ++ ([.txnBegin, .cs false] ++ byteWireEvents s.cfg.hasMiso (w.extractLsb' 8 8) ds ++
        byteWireEvents s.cfg.hasMiso (w.extractLsb' 0 8) es ++ [.cs true, .txnEnd]) := by
  obtain ⟨ds, es, hds, hes, htrace⟩ := wordBits_trace (.inr rfl) w ((s.emit .txnBegin).drive .csN false)
  rw [State.driveCs_cfg, State.emit_cfg, State.driveCs_trace, State.emit_trace] at htrace
  refine ⟨ds, es, hds, hes, ?_⟩
  rw [wordCallsHw, effects_append, effects_append]
  show (((((s.emit .txnBegin).drive .csN false).effects _).drive .csN true).emit .txnEnd).trace = _
  rw [State.emit_trace, State.driveCs_trace, htrace]
  simp only [List.append_assoc, List.cons_append, List.nil_append]

/-- Settles O10: the word's calls in the software strategy, and what a word sent whole always shows. -/
theorem sendWordSwTransmitsTheWord : Obligations.SendWordSwTransmitsTheWord := by
  intro s w h hm
  obtain ⟨ds, es, hds, hes, htrace⟩ := wordSw_trace s w
  have sent := wordSent h.free w
  rw [show wordCallsSw s.cfg w = wordCalls s.cfg w by rw [wordCalls, hm]] at htrace
  refine ⟨_, ds, es, exec_sendWordSw_ready h hm w, hds, hes, htrace, ?length, sent.transmitted, sent.core,
    sent.nothing, sent.chip⟩
  case length =>
    rw [State.handBack_trace, htrace]
    simp only [List.length_append, List.length_singleton, byteWireEvents_length _ _ _ hds,
      byteWireEvents_length _ _ _ hes]
    split <;> omega

/-- Settles O11: the same inside a transaction. -/
theorem sendWordHwTransmitsInsideATransaction : Obligations.SendWordHwTransmitsInsideATransaction := by
  intro s w h hm
  obtain ⟨ds, es, hds, hes, htrace⟩ := wordHw_trace s w
  have sent := wordSent h.free w
  rw [show wordCallsHw s.cfg w = wordCalls s.cfg w by rw [wordCalls, hm]] at htrace
  exact ⟨_, ds, es, exec_sendWordHw_ready h hm w, hds, hes, htrace, sent.transmitted, sent.core, sent.nothing,
    sent.chip⟩

/-- Settles O12: the choice is by the mode alone, and either way the word is sent whole. -/
theorem sendWordFollowsTheTransportMode : Obligations.SendWordFollowsTheTransportMode := by
  intro s w
  refine ⟨fun hm => exec_sendWord_hw hm w, fun hm => exec_sendWord_sw hm w, fun h => ?_⟩
  have sent := wordSent h.free w
  exact ⟨_, exec_sendWord_ready h w, sent.transmitted, sent.core, sent.nothing, sent.chip⟩

/-! The two strategies side by side. -/

/-- The handle with the same configuration but for the strategy and the reference that goes with it (R200). -/
def State.withMode (m : TransportMode) (p : Option Nat) (s : State) : State :=
  { s with cfg := { s.cfg with mode := m, spiPeripheral := p } }

theorem withMode_ready {s : State} (h : Ready s) (m : TransportMode) (p : Option Nat) : Ready (s.withMode m p) :=
  ⟨h.idle, h.begun, ⟨h.free.returns, h.free.running⟩⟩

/-- The receiver after a word does not depend on the strategy. -/
theorem wordCalls_rx (s : State) (m : TransportMode) (p : Option Nat) (w : Word) :
    ((s.withMode m p).effects (wordCalls (s.withMode m p).cfg w)).rx = (wordPinEvents w).foldl Receiver.step s.rx := by
  rw [(emits_effects _ _).rx, wordCalls_pins]
  rfl

/-- The pin trace after a word does not depend on it either (R142 a). -/
theorem wordCalls_pinTrace (s : State) (m : TransportMode) (p : Option Nat) (w : Word) :
    pinTrace ((s.withMode m p).effects (wordCalls (s.withMode m p).cfg w)).trace =
      pinTrace s.trace ++ wordPinEvents w := by
  rw [(emits_effects _ _).pinTrace_eq, wordCalls_pins]
  rfl

theorem wordCalls_mem {s : State} (m : TransportMode) (p : Option Nat) (w : Word) (hi : WireIdle s)
    (hl : s.linkSound = true) :
    ((s.withMode m p).effects (wordCalls (s.withMode m p).cfg w)).mem = latchWord s.cfg w s.mem := by
  rw [word_mem (s.withMode m p) w ⟨hi.cs, hi.clk⟩ hl]
  rfl

/-- Settles O13: the pin events of a word are the same by either strategy, and they alone decide the receiver and the
chip. -/
theorem bothStrategiesPutTheSameWordOnTheWire : Obligations.BothStrategiesPutTheSameWordOnTheWire := by
  intro s w p h
  refine ⟨_, _, exec_sendWordSw_ready (withMode_ready h .sw none) rfl w,
    exec_sendWordHw_ready (withMode_ready h .hw (some p)) rfl w, ?_⟩
  simp only [State.handBack_trace, State.handBack_rx, State.handBack_mem]
  refine ⟨(wordCalls_pinTrace s .sw none w).trans (wordCalls_pinTrace s .hw (some p) w).symm,
    (wordCalls_rx s .sw none w).trans (wordCalls_rx s .hw (some p) w).symm, fun hi => ?_, fun hi hl => ?_⟩
  · obtain ⟨m, hm⟩ := receiver_word w s.rx hi.cs hi.clk
    rw [wordCalls_rx, hm]
    exact ⟨rfl, wordBits_eq w⟩
  · exact (wordCalls_mem .sw none w hi hl).trans (wordCalls_mem .hw (some p) w hi hl).symm

end Sys2Proof.Machine
end

section
/-! The statements of 41_transport.md R145 and 70_reset_and_hazards.md R226 on one word of the software strategy: where
a call hangs it is cut short, and the framer's small steps come to the same states as the whole word. -/

namespace Sys2Proof.Machine

@[simp] theorem moveTo_self (s : State) : s.moveTo s.seq = s := rfl

theorem hang_free {s : State} (h : Free s) : s.hang none false = s := by
  calc s.hang none false = s.hang s.returns s.blocked := by rw [h.returns, h.running]
    _ = s := hang_self s

/-! The first calls of a word. -/

theorem take_wordCallsSw {cfg : Config} {w : Word} {n : Nat} (hn : n < wordEvents cfg) :
    (wordCallsSw cfg w).take n = (.drive .csN false :: (wordBits w).flatMap (bitCallsSw cfg)).take n := by
  have hlen := wordCallsSw_length cfg w
  rw [wordCallsSw, List.length_append, List.length_singleton] at hlen
  rw [wordCallsSw, List.take_append_of_le_length (by omega), List.singleton_append]

theorem take_releases {cfg : Config} {w : Word} {n : Nat} (hn : n < wordEvents cfg) :
    ∀ c ∈ (wordCallsSw cfg w).take n, c.releases = false := by
  intro c hc
  rw [take_wordCallsSw hn] at hc
  rcases List.mem_cons.1 (List.mem_of_mem_take hc) with rfl | h
  · rfl
  · exact (writes_bits cfg (wordBits w)).2.2.1 c h

/-- A call that ends no bracket makes no rising edge of chip-select. -/
theorem pins_of_not_releases {c : Call} (h : c.releases = false) : ∀ e ∈ c.pins, e ≠ .cs true := by
  intro e he
  rintro rfl
  cases c with
  | silent => cases he
  | drive p l =>
    rw [Call.pins, List.mem_singleton] at he
    cases p <;> cases he
    cases h
  | emit x =>
    have hx : x = .cs true := (List.mem_singleton.1 (List.mem_of_mem_filter he)).symm
    rw [hx] at h
    cases h
  | sample => cases he

theorem take_csN {s : State} {w : Word} {n : Nat} (hn : n < wordEvents s.cfg) (hpos : 0 < n) :
    (s.effects ((wordCallsSw s.cfg w).take n)).csN = .low := by
  obtain ⟨k, rfl⟩ : ∃ k, n = k + 1 := ⟨n - 1, by omega⟩
  rw [take_wordCallsSw hn, List.take_succ_cons, effects_cons, effects_csN]
  · rfl
  · exact fun c hc => (writes_bits s.cfg (wordBits w)).1 c (List.mem_of_mem_take hc)

theorem take_trace {s : State} {w : Word} {n : Nat} (hn : n < wordEvents s.cfg) :
    (s.effects ((wordCallsSw s.cfg w).take n)).trace.length = s.trace.length + n := by
  rw [effects_trace_length (fun c hc => wordCallsSw_events s.cfg w c (List.mem_of_mem_take hc)), List.length_take,
    wordCallsSw_length]
  omega

/-- The events of the first calls are the first events. -/
theorem take_trace_prefix (s : State) (cs : List Call) (n : Nat) :
    (s.effects (cs.take n)).trace <+: (s.effects cs).trace := by
  have grows := (emits_effects (cs.drop n) (s.effects (cs.take n))).grows
  rwa [← effects_append, List.take_append_drop] at grows

/-- With calls enough to return the whole word is sent. -/
theorem sendWordSw_enough {s : State} {w : Word} {n : Nat} (hb : s.blocked = false) (hr : s.returns = some n)
    (hn : wordEvents s.cfg ≤ n) :
    s.sendWordSw w = (s.effects (wordCallsSw s.cfg w)).hang (some (n - wordEvents s.cfg)) false := by
  obtain ⟨p, hp, hq⟩ := transfer_calls (bracketSw_calls s w) w 0
  have hc := calls_count (wordCallsSw s.cfg w) hr hb
  rw [wordCallsSw_length, if_pos hn] at hc
  rw [State.sendWordSw, hp, hq (.inl (by rw [hc]; rfl)), ← calls_seq (wordCallsSw s.cfg w) s, moveTo_self, hc]

theorem exec_sendWordSw_begun {s : State} (hq : s.seq = .idle) (hb : s.blocked = false) (hi : s.init = true)
    (hm : s.cfg.mode = .sw) (w : Word) : exec (.sendWordSw w) s = .next ((s.sendWordSw w).handBack .none) := by
  rw [exec, execSendWordSw, whenSw, whenBegun_begun hq hb hi, if_pos hm]

/-- Settles O15: with too few calls the first of the word's calls have their effects and the framer is held; with
enough, all of them have. -/
theorem aHangingCallCutsTheWordShort : Obligations.AHangingCallCutsTheWordShort := by
  intro s w n hq hb hi hm hr
  have whole : ({ s with returns := none } : State).sendWordSw w =
      (s.effects (wordCallsSw s.cfg w)).hang none s.blocked :=
    (sendWordSw_free (s := { s with returns := none }) ⟨rfl, hb⟩ w).trans (effects_hang _ s none s.blocked)
  refine ⟨_, _, exec_sendWordSw_begun hq hb hi hm w,
    exec_sendWordSw_begun (s := { s with returns := none }) hq hb hi hm w, fun hn => ?short, fun hn => ?enough⟩
  case short =>
    change n < wordEvents s.cfg at hn
    have e := emits_effects ((wordCallsSw s.cfg w).take n) s
    have length := take_trace (s := s) (w := w) hn
    have cs := take_csN (s := s) (w := w) hn
    have mem := effects_mem (take_releases (w := w) hn) (s := s)
    have cut := take_trace_prefix s (wordCallsSw s.cfg w) n
    rw [List.prefix_iff_eq_take, length] at cut
    have out : (s.effects ((wordCallsSw s.cfg w).take n)).rx.out = s.rx.out := by
      rw [e.rx]
      refine receiver_out _ (fun x hx => ?_) s.rx
      obtain ⟨c, hc, hx⟩ := List.mem_flatMap.1 hx
      exact pins_of_not_releases (take_releases hn c hc) x hx
    rw [whole, sendWordSw_held hb hr hn]
    generalize s.effects ((wordCallsSw s.cfg w).take n) = x at *
    generalize s.effects (wordCallsSw s.cfg w) = y at *
    exact ⟨rfl, rfl, framerPosition_ne_idle s.cfg w n, cut, length, cs, out, e.cfg, e.gainMirror, e.statesMirror, e.err,
      e.init, rfl, e.inputs, fun hl a => congrArg (readByte · a) (mem hl)⟩
  case enough =>
    rw [whole, sendWordSw_enough hb hr hn, hb]
    generalize s.effects (wordCallsSw s.cfg w) = y
    rfl

/-! The framer. -/

/-- One more step of a run. -/
theorem run_succ (M : Host.Core) {k : Nat} {s t : M.State} (h : M.run k s = .next t) : M.run (k + 1) s = M.step t := by
  induction k generalizing s with
  | zero =>
    cases h
    rw [Host.Core.run]
    split <;> rename_i hs <;> rw [hs]
    rfl
  | succ k ih =>
    rw [Host.Core.run] at h
    rw [Host.Core.run]
    split at h
    · exact ih h
    · cases h
    · cases h

/-- The framer after `j` of a word's calls: at its `j`-th position, and idle at the end. -/
def framerSeq (cfg : Config) (w : Word) (j : Nat) : Seq :=
  if j = wordEvents cfg then .idle else framerPosition cfg w j

/-- The state in which `j` of the calls of a word have had their effect, with `r` more to return. -/
def State.midWord (w : Word) (j : Nat) (r : Option Nat) (s : State) : State :=
  ((s.effects ((wordCallsSw s.cfg w).take j)).hang r false).moveTo (framerSeq s.cfg w j)

theorem midWord_cfg (s : State) (w : Word) (j : Nat) (r : Option Nat) : (s.midWord w j r).cfg = s.cfg :=
  (emits_effects _ s).cfg

theorem effect_moveTo (c : Call) (s : State) (p : Seq) : c.effect (s.moveTo p) = (c.effect s).moveTo p := by
  cases c with
  | silent => rfl
  | drive q l => cases q <;> rfl
  | emit e => rfl
  | sample => rfl

theorem framerSeq_of_lt {cfg : Config} (w : Word) {j : Nat} (hj : j < wordEvents cfg) :
    framerSeq cfg w j = framerPosition cfg w j :=
  if_neg (by omega)

/-- One step inside a word is its next call. -/
theorem step_midWord {s : State} {w : Word} {j : Nat} (hc : s.cfg.wf = true) (hm : s.cfg.mode = .sw)
    (hi : s.interrupted = false) (hj : j < wordEvents s.cfg) (r : Option Nat) :
    ∃ c, (wordCallsSw s.cfg w)[j]? = some c ∧
      step (s.midWord w j r) = .next (((s.midWord w j r).call c.effect).advance (framerSeq s.cfg w (j + 1))) := by
  have e := emits_effects ((wordCallsSw s.cfg w).take j) s
  have cfg := midWord_cfg s w j r
  have seq : (s.midWord w j r).seq = framerPosition s.cfg w j := framerSeq_of_lt w hj
  have hlen : j < (wordCallsSw s.cfg w).length := by rw [wordCallsSw_length]; exact hj
  refine ⟨(wordCallsSw s.cfg w)[j], List.getElem?_eq_getElem hlen, ?_⟩
  have line := framerStep_call (s := s.midWord w j r) (by rw [cfg, hm])
    (by rw [cfg]; exact List.getElem?_eq_getElem hlen) (by rw [cfg, seq])
  rw [cfg] at line
  refine step_framer (by rw [cfg, hc]) ?_ rfl ?_ line
  · rw [seq]; exact framerPosition_ne_idle s.cfg w j
  · rw [State.interrupted, show (s.midWord w j r).inputs = s.inputs from e.inputs]; exact hi

/-- Where the call returns, the step comes to the next state of the word. -/
theorem step_midWord_returns {s : State} {w : Word} {j : Nat} (hc : s.cfg.wf = true) (hm : s.cfg.mode = .sw)
    (hi : s.interrupted = false) (hj : j < wordEvents s.cfg) {r : Option Nat} (hr : r ≠ some 0) :
    step (s.midWord w j r) = .next (s.midWord w (j + 1) (r.map (· - 1))) := by
  obtain ⟨c, hcall, hstep⟩ := step_midWord hc hm hi hj r (w := w)
  have returned : (s.midWord w j r).call c.effect = (c.effect (s.midWord w j r)).hang (r.map (· - 1)) false := by
    cases r with
    | none =>
      have free : Free (s.midWord w j none) := ⟨rfl, rfl⟩
      rw [call_free free, Option.map_none, hang_free (effect_free c free)]
    | some n =>
      cases n with
      | zero => exact absurd rfl hr
      | succ n => exact call_succ c rfl rfl
  rw [hstep, returned, State.midWord, effect_moveTo, effect_hang, State.midWord, List.take_add_one, hcall,
    effects_append]
  rfl

theorem run_midWord {s : State} {w : Word} (hc : s.cfg.wf = true) (hm : s.cfg.mode = .sw) (hi : s.interrupted = false)
    {r : Option Nat} {k : Nat} (hk : k ≤ wordEvents s.cfg) (hr : ∀ n, r = some n → k ≤ n) :
    Sys2Proof.core.run k (s.midWord w 0 r) = .next (s.midWord w k (r.map (· - k))) := by
  induction k with
  | zero => cases r <;> rfl
  | succ k ih =>
    have before := ih (by omega) fun n hn => by have := hr n hn; omega
    refine (run_succ Sys2Proof.core before).trans
      ((step_midWord_returns hc hm hi (by omega) fun h0 => ?_).trans ?_)
    · cases r with
      | none => cases h0
      | some n =>
        have := hr n rfl
        simp only [Option.map_some, Option.some.injEq] at h0
        omega
    · cases r <;> rfl

/-- The start line of R145 is the state before a word's first call. -/
theorem startTransfer_eq_midWord {s : State} (hb : s.blocked = false) (w : Word) :
    s.startTransfer w = s.midWord w 0 s.returns := by
  have start : framerSeq s.cfg w 0 = .sending w 15 .assert := by
    rw [framerSeq, wordEvents]
    cases s.cfg.hasMiso <;> rfl
  rw [State.midWord, start, List.take_zero, effects_nil, ← hb, hang_self]
  rfl

/-- Settles O14: as many steps as the word has events come to the end of its calls, the framer idle. -/
theorem framerStepsMakeUpOneWord : Obligations.FramerStepsMakeUpOneWord := by
  intro s w hc hm hq hf hi
  have steps := run_midWord (w := w) hc hm hi (r := none) (Nat.le_refl (wordEvents s.cfg)) nofun
  rw [startTransfer_eq_midWord hf.running, hf.returns]
  refine steps.trans (congrArg _ ?_)
  rw [sendWordSw_free hf, State.midWord, ← wordCallsSw_length s.cfg w, List.take_length, wordCallsSw_length, framerSeq,
    if_pos rfl, ← hq, ← effects_seq (wordCallsSw s.cfg w) s]
  rw [Option.map_none, hang_free (effects_free _ hf), moveTo_self]

/-- Settles O16: the `n` calls that return are `n` steps, and the next step hangs where the word is held. -/
theorem theFramerStopsWhereTheWordDoes : Obligations.TheFramerStopsWhereTheWordDoes := by
  intro s w n hc hm hq hb hi hr hn
  change n < wordEvents s.cfg at hn
  have steps := run_midWord (w := w) hc hm hi (r := some n) (Nat.le_of_lt hn) fun m hmn => by
    injection hmn with hmn; omega
  rw [Option.map_some, Nat.sub_self] at steps
  obtain ⟨c, -, hang⟩ := step_midWord hc hm hi hn (some 0) (w := w)
  rw [startTransfer_eq_midWord hb, hr, sendWordSw_held hb hr hn]
  refine (run_succ Sys2Proof.core steps).trans (hang.trans (congrArg _ ?_))
  rw [call_zero rfl rfl, State.midWord, framerSeq_of_lt w hn]
  rfl

end Sys2Proof.Machine
end

section
/-! The statements of 40_encoder.md R112, R113 and R117: the codes of attenuation and gain as integers. -/

namespace Sys2Proof.Machine

theorem exec_gainCode (g : Int) (s : State) :
    exec (.gainCode g) s = .next { s with result := .word (gainCode g) } := rfl

theorem exec_gainValid (g : Int) (s : State) :
    exec (.gainValid g) s = .next { s with result := .bool (gainValid s.cfg g) } := rfl

/-! Attenuation codes. -/

/-- An attenuation code is a multiple of 128. -/
theorem atten_low_clear (v : Int) : atten v &&& 0x007F#16 = 0#16 := by
  rw [atten_eq_shift]
  exact shiftLeft_and_eq_zero _ (by decide)

theorem attField_toNat (w : Word) : (attField w).toNat = w.toNat / 128 % 512 := by
  rw [attField, BitVec.extractLsb'_toNat, Nat.shiftRight_eq_div_pow]

/-- Settles O3: on the legal range the code is the integer `4096 - 128 v`, and the laws are laws of that integer. -/
theorem attenLawsOnTheLegalRange : Obligations.AttenLawsOnTheLegalRange := by
  intro v u hv hv0 hu hu0
  obtain ⟨codeV, lowV, -⟩ := atten_toNat_of_legal hv hv0
  obtain ⟨codeU, -, -⟩ := atten_toNat_of_legal hu hu0
  refine ⟨by omega, atten_low_clear v, atten_payload v, ?field, fun hlt => by omega, fun he => ?injective,
    fun hneg => ?next, fun h0 => ?nonzero⟩
  case field => rw [attField_toNat]; omega
  case injective => rw [he] at codeV; omega
  case next =>
    obtain ⟨codeNext, -, -⟩ := atten_toNat_of_legal (v := v + 1) (by omega) (by omega)
    omega
  case nonzero => rw [h0] at lowV; simp at lowV

/-! Gain codes. -/

theorem toNat_ofInt_word (g : Int) : ((BitVec.ofInt 16 g).toNat : Int) = g % 65536 := trunc16_toNat g

/-- The copies do not reach past bit 15: the low four bits of the value count in the one, seven in the other. -/
theorem gainCode_toNat (g : Int) :
    (gainCode g).toNat = (((g % 16).toNat <<< 12) ||| ((g % 128).toNat <<< 9)) % 65536 := by
  have hn := toNat_ofInt_word g
  have high : (BitVec.ofInt 16 g).toNat <<< 12 % 2 ^ 16 = (g % 16).toNat <<< 12 % 2 ^ 16 := by
    rw [Nat.shiftLeft_eq, Nat.shiftLeft_eq]
    omega
  have low : (BitVec.ofInt 16 g).toNat <<< 9 % 2 ^ 16 = (g % 128).toNat <<< 9 % 2 ^ 16 := by
    rw [Nat.shiftLeft_eq, Nat.shiftLeft_eq]
    omega
  rw [gainCode_eq, BitVec.toNat_or, BitVec.toNat_shiftLeft, BitVec.toNat_shiftLeft, high, low]
  exact Nat.or_mod_two_pow.symm

/-- The code depends on the value modulo 128 only. -/
theorem gainCode_congr {g h : Int} (e : h % 128 = g % 128) : gainCode h = gainCode g := by
  apply BitVec.eq_of_toNat_eq
  rw [gainCode_toNat, gainCode_toNat, e, show h % 16 = g % 16 by omega]

/-- Bit 3 of the value comes to bit 15 by one copy, bit 6 by the other (log entry 12). -/
theorem linkField_gainCode (g : Int) : linkField (gainCode g) = decide (8 ≤ g % 16 ∨ 64 ≤ g % 128) := by
  have hn := toNat_ofInt_word g
  have bit (k : Nat) : (BitVec.ofInt 16 g).getLsbD k = decide ((BitVec.ofInt 16 g).toNat / 2 ^ k % 2 = 1) := by
    rw [BitVec.getLsbD, Nat.testBit_eq_decide_div_mod_eq]
  have copies : linkField (gainCode g) = ((BitVec.ofInt 16 g).getLsbD 3 || (BitVec.ofInt 16 g).getLsbD 6) := by
    simp [linkField, gainCode_eq]
  rw [copies, bit, bit, ← Bool.decide_or, decide_eq_decide]
  omega

theorem zcNField_gainCode (g : Int) : zcNField (gainCode g) = false := by
  have low := gainCode_low_clear g
  rw [and_eq_zero_iff] at low
  exact low 8 (by decide) (by decide)

/-- Settles O4: the code as a number, from which its dependence on the value is read off. -/
theorem gainCodeAnswersTwoShiftedCopies : Obligations.GainCodeAnswersTwoShiftedCopies := by
  intro s g
  refine ⟨gainCode g, exec_gainCode g s, gainCode_toNat g, gainCode_low_clear g, fun hlo hhi => ?small,
    linkField_gainCode g, fun h he => by rw [exec_gainCode, exec_gainCode, gainCode_congr he], ?three⟩
  case small => interval_cases g <;> decide
  case three => rintro rfl; decide

/-- Settles O5: the model's test is the statement's. -/
theorem gainValidAnswersByConfiguration : Obligations.GainValidAnswersByConfiguration := by
  intro s g
  rw [exec_gainValid, Bool.eq_iff_iff.2 ((gainValid_iff s.cfg g).trans decide_eq_true_iff.symm)]

end Sys2Proof.Machine
end

section
/-! The statements of 20_memory.md R56 and 30_encoding.md R100: a control word at the receiver, over a link that can be
trusted and over one that cannot. -/

namespace Sys2Proof.Machine

theorem exec_wordInstr_idle {s : State} (h : s.seq = .idle) (r : Reg) (p : BitVec 12) (c : BitVec 2) :
    exec (wordInstr r p c) s = .next (s.latch (controlWord s.cfg r p c)) := by
  rw [exec_wordInstr, whenBusFree_idle h]

/-- The chip bits of a word are this chip's exactly when they are its address. -/
theorem setWidth_eq_chipField {cfg : Config} (h : cfg.wf = true) (c : BitVec 2) :
    c.setWidth 16 = chipField cfg ↔ c.toNat = cfg.chipAddr := by
  have haddr := wf_chipAddr h
  have hc : c.toNat < 4 := c.isLt
  rw [← BitVec.toNat_inj, chipField, BitVec.toNat_setWidth, BitVec.toNat_ofNat]
  omega

theorem upsetContent_payload (w : Word) : (w &&& 0xFFF0#16) &&& 0x000F#16 = 0#16 := by
  rw [BitVec.and_assoc]
  exact BitVec.and_zero

/-- After an event nothing is known of, each of the chip's registers holds some payload. -/
theorem readRegister_upsetMem {cfg : Config} (h : cfg.wf = true) (n : Nat) (m : List Host.Cell) (q : Reg) :
    ∃ v, readRegister (upsetMem cfg n m) cfg q = some v ∧ v &&& 0x000F#16 = 0#16 := by
  have other := @readRegister_writeRegister_ne cfg h
  unfold upsetMem
  cases q with
  | states => exact ⟨_, readRegister_writeRegister _ _ _ _, upsetContent_payload _⟩
  | gain =>
    rw [other _ (q := .gain) _ (by decide)]
    exact ⟨_, readRegister_writeRegister _ _ _ _, upsetContent_payload _⟩
  | attR =>
    rw [other _ (q := .attR) _ (by decide), other _ (q := .attR) _ (by decide)]
    exact ⟨_, readRegister_writeRegister _ _ _ _, upsetContent_payload _⟩
  | attL =>
    rw [other _ (q := .attL) _ (by decide), other _ (q := .attL) _ (by decide), other _ (q := .attL) _ (by decide)]
    exact ⟨_, readRegister_writeRegister _ _ _ _, upsetContent_payload _⟩

/-- Settles O19: the word of this chip is latched into its own register. -/
theorem controlWordReplacesItsRegister : Obligations.ControlWordReplacesItsRegister := by
  intro s r p c hwf hq hl hc
  obtain ⟨hchip, hsel, hpay⟩ := controlWord_parts hwf r p c
  refine ⟨_, exec_wordInstr_idle hq r p c, ?_⟩
  rw [latch_sound hl]
  refine ⟨rfl, ChipHolds.one ?_⟩
  show latchWord s.cfg _ s.mem = _
  rw [latchWord_hit hwf s.mem (hchip.trans ((setWidth_eq_chipField hwf c).2 hc)) hsel, hpay]

/-- Settles O20: the chip bits are another chip's, so the receiver ignores the word. -/
theorem controlWordForAnotherChipIsIgnored : Obligations.ControlWordForAnotherChipIsIgnored := by
  intro s r p c hwf hq hl hc
  obtain ⟨hchip, -, -⟩ := controlWord_parts hwf r p c
  have ignored : latchWord s.cfg (controlWord s.cfg r p c) s.mem = s.mem :=
    if_neg fun he => hc ((setWidth_eq_chipField hwf c).1 (hchip.symm.trans he))
  rw [exec_wordInstr_idle hq, latch_sound hl, ignored]

/-- Settles O21: the receiver is upset. -/
theorem controlWordOverAnUnsoundLinkLeavesAnyPayload : Obligations.ControlWordOverAnUnsoundLinkLeavesAnyPayload := by
  intro s r p c hwf hq hl
  refine ⟨_, exec_wordInstr_idle hq r p c, ?_⟩
  rw [latch_unsound hl]
  exact ⟨rfl, readRegister_upsetMem hwf s.upsets s.mem, readByte_upsetMem s.cfg s.upsets s.mem⟩

/-- Settles O22: either way the chip latches the one word. -/
theorem sendingAWordExecutesItAtTheReceiver : Obligations.SendingAWordExecutesItAtTheReceiver := by
  intro s r p c h hwf hi hl
  refine ⟨_, _, exec_sendWord_ready h _, exec_wordInstr_idle h.idle r p c, ?_⟩
  rw [latch_sound hl]
  exact word_mem s _ hi hl

end Sys2Proof.Machine
end

section
/-! The statements of 42_device_operations.md R161 to R168: each operation where it returns, read off the words it sends
and the stores they make in the chip. -/

namespace Sys2Proof.Machine

/-- Settles O23: BEGIN's calls drive the idle levels and latch nothing on an idle wire. -/
theorem beginDrivesTheIdleLevels : Obligations.BeginDrivesTheIdleLevels := by
  intro s hq hf
  have core := effects_core (beginCalls s.cfg) hf
  obtain ⟨hcs, hsw, hhw⟩ := begin_pins s
  have run : exec .beginOp s =
      .next ({ s.effects (beginCalls s.cfg) with init := true }.handBack (.bool true)) := by
    rw [exec, execBegin, whenIdle_idle hq hf.running, beginPins_free hf,
      complete_running (core.blocked.trans hf.running)]
  refine ⟨_, run, rfl, ?core, hcs, fun hm => ?sw, fun hm => ?hw, fun hi => ?idle⟩
  case core =>
    exact ⟨core.cfg, core.gainMirror, core.statesMirror, core.err, rfl, core.seq, core.inputs, core.returns,
      core.blocked, core.linkSound⟩
  case sw =>
    obtain ⟨hclk, hdata, htrace⟩ := hsw hm
    exact ⟨htrace, hclk, hdata⟩
  case hw =>
    obtain ⟨hclk, hdata, htrace⟩ := hhw hm
    exact ⟨htrace, hclk, hdata⟩
  case idle =>
    obtain ⟨hidle, hout, hmem⟩ := begin_idle hi
    exact ⟨⟨hidle.cs, hidle.clk⟩, hout, fun hl a => congrArg (readByte · a) (hmem hl)⟩

/-! Two words (SET_VOLUME, MUTE). -/

theorem atten_eq_ofInt (v : Int) : atten v = BitVec.ofInt 16 (4096 - 128 * v) := by
  rw [atten, trunc16]
  congr 1
  ring

theorem twoWrites_transmitted {s : State} (f : Free s) (r q : Reg) (p v : Word) :
    Transmitted s ((s.memWrite r p).memWrite q v) [assemble s.cfg r p, assemble s.cfg q v] :=
  ((twoWrites_sends s r q p v).whole ((twoWrites_core f r q p v).blocked.trans f.running)).2.1

theorem twoWrites_chip {s : State} (f : Free s) (hc : s.cfg.wf = true) {r q : Reg} (hne : r ≠ q) {p v : Word}
    (hp : p &&& 0x000F#16 = 0#16) (hv : v &&& 0x000F#16 = 0#16) (hi : WireIdle s) (hl : s.linkSound = true)
    (x : Result) :
    ChipHolds s (((s.memWrite r p).memWrite q v).handBack x) [(r, p), (q, v)] :=
  ChipHolds.two hc hne (twoWrites_mem f hc r q hp hv hi hl)

/-- Settles O24: two stores, the left one first. -/
theorem setVolumeSendsTheTwoAttenuations : Obligations.SetVolumeSendsTheTwoAttenuations := by
  intro s l r hwf h hl hl0 hr hr0
  have core := twoWrites_core h.free .attL .attR (atten l) (atten r)
  have valid : (volumeValid s.cfg l && volumeValid s.cfg r) = true :=
    Bool.and_eq_true_iff.2 ⟨(volumeValid_iff hwf l).2 ⟨hl, hl0⟩, (volumeValid_iff hwf r).2 ⟨hr, hr0⟩⟩
  have run : exec (.setVolume l r) s =
      .next (((s.memWrite .attL (atten l)).memWrite .attR (atten r)).handBack (.bool true)) := by
    rw [exec, execSetVolume, whenBegun_ready h, if_pos valid, complete_running (core.blocked.trans h.free.running)]
  rw [← atten_eq_ofInt, ← atten_eq_ofInt]
  exact ⟨_, run, rfl, core.handBack _, (twoWrites_transmitted h.free _ _ _ _).handBack _,
    fun hi hl => twoWrites_chip h.free hwf (by decide) (atten_payload l) (atten_payload r) hi hl _⟩

/-- Settles O26: two stores of 0, the left one first. -/
theorem muteSendsPayloadZeroTwice : Obligations.MuteSendsPayloadZeroTwice := by
  intro s h
  have run : exec .mute s = .next (((s.memWrite .attL 0x0000#16).memWrite .attR 0x0000#16).handBack .none) := by
    rw [exec, execMute, whenBegun_ready h]
  have sent := (twoWrites_transmitted h.free .attL .attR 0x0000#16 0x0000#16).handBack .none
  simp only [assemble, BitVec.or_zero] at sent
  exact ⟨_, run, rfl, (twoWrites_core h.free _ _ _ _).handBack _, sent,
    fun hc hi hl => twoWrites_chip h.free hc (by decide) rfl rfl hi hl _⟩

/-! One word with a mirror (SET_GAIN, the features). -/

/-- What a gain mirror written and sent leaves, whatever is then handed back. -/
structure GainStored (s t : State) (m : Word) : Prop where
  core        : SameCore { s with gainMirror := m } t
  transmitted : Transmitted s t [assemble s.cfg .gain m]
  chip        : s.cfg.wf = true → WireIdle s → s.linkSound = true → m &&& 0x000F#16 = 0#16 → ChipHolds s t [(.gain, m)]

theorem gainStored {s : State} (f : Free s) (m : Word) (r : Result) : GainStored s ((s.storeGain m).handBack r) m where
  core := (storeGain_core f m).handBack r
  transmitted := (storeGain_transmitted f m).handBack r
  chip := fun hc hi hl hm =>
    have held := storeGain_chip f hc hi hl hm
    ⟨held.holds, held.frame⟩

theorem exec_setGain (g : Int) : exec (.setGain g) = whenBegun fun s =>
    if gainValid s.cfg g then .next ((s.storeGain (gainCode g)).complete (State.handBack (.bool true)))
    else .next s.raiseValueError := rfl

theorem gainCode_eq_ofInt (g : Int) : gainCode g = BitVec.ofInt 16 (g * 4096) ||| BitVec.ofInt 16 (g * 512) := by
  rw [gainCode_eq, ← ofInt_mul_two_pow, ← ofInt_mul_two_pow]
  norm_num

/-- Settles O25: the accepted value's code is the mirror that is stored. -/
theorem setGainAssignsAndSendsTheMirror : Obligations.SetGainAssignsAndSendsTheMirror := by
  intro s g h hv
  have running : (s.storeGain (gainCode g)).blocked = false := (storeGain_core h.free _).blocked.trans h.free.running
  have run : exec (.setGain g) s = .next ((s.storeGain (gainCode g)).handBack (.bool true)) := by
    rw [exec_setGain, whenBegun_ready h, if_pos ((gainValid_iff s.cfg g).2 hv), complete_running running]
  have stored := gainStored h.free (gainCode g) (.bool true)
  refine ⟨_, gainCode g, gainCode_eq_ofInt g, run, rfl, stored.core, ?zc, ?link, stored.transmitted,
    fun hc hi hl => stored.chip hc hi hl (gainCode_payload g)⟩
  case zc => rw [stored.core.gainMirror]; exact zcNField_gainCode g
  case link => rw [stored.core.gainMirror]; exact linkField_gainCode g

theorem exec_setZeroCrossing_ready {s : State} (h : Ready s) (e : Bool) : exec (.setZeroCrossing e) s =
    .next ((s.storeGain (setFeature .zeroCrossing e s.gainMirror)).handBack .none) := by
  rw [exec, execSetZeroCrossing, whenBegun_ready h, gainFeature_eq]

theorem exec_setLinkChannels_ready {s : State} (h : Ready s) (e : Bool) : exec (.setLinkChannels e) s =
    .next ((s.storeGain (setFeature .link e s.gainMirror)).handBack .none) := by
  rw [exec, execSetLinkChannels, whenBegun_ready h, gainFeature_eq]

theorem exec_setExternalClock_ready {s : State} (h : Ready s) (e : Bool) : exec (.setExternalClock e) s =
    .next ((s.storeStates (setFeature .externalClock e s.statesMirror)).handBack .none) := by
  rw [exec, execSetExternalClock, whenBegun_ready h, statesFeature_eq]

/-- Settles O27: bit 8 of the gain mirror is written, and the mirror is stored. -/
theorem setZeroCrossingWritesBitEight : Obligations.SetZeroCrossingWritesBitEight := by
  intro s e h
  have stored := gainStored h.free (setFeature .zeroCrossing e s.gainMirror) .none
  refine ⟨_, _, fun j hj => ?_, exec_setZeroCrossing_ready h e, rfl, stored.core, stored.transmitted,
    fun hc hi hl hm => stored.chip hc hi hl (setFeature_payload .zeroCrossing e hm)⟩
  rw [getLsbD_setFeature _ _ _ j hj]
  cases e <;> rfl

/-- Settles O29: bit 15 of the gain mirror is written, and the mirror is stored. -/
theorem setLinkChannelsWritesBitFifteen : Obligations.SetLinkChannelsWritesBitFifteen := by
  intro s e h
  have stored := gainStored h.free (setFeature .link e s.gainMirror) .none
  refine ⟨_, _, fun j hj => ?_, exec_setLinkChannels_ready h e, rfl, stored.core, stored.transmitted,
    fun hc hi hl hm => stored.chip hc hi hl (setFeature_payload .link e hm)⟩
  rw [getLsbD_setFeature _ _ _ j hj]
  cases e <;> rfl

/-- Settles O28: bit 9 of the states mirror is written, and the mirror is stored. -/
theorem setExternalClockWritesBitNine : Obligations.SetExternalClockWritesBitNine := by
  intro s e h
  refine ⟨_, _, fun j hj => ?_, exec_setExternalClock_ready h e, rfl, (storeStates_core h.free _).handBack .none,
    (storeStates_transmitted h.free _).handBack .none, fun hc hi hl hm => ?_⟩
  · rw [getLsbD_setFeature _ _ _ j hj]
    cases e <;> rfl
  · have held := storeStates_chip h.free hc hi hl (setFeature_payload .externalClock e hm)
    exact ⟨held.holds, held.frame⟩

/-- Settles O30: GET_STATUS only hands back the code of the error register. -/
theorem getStatusHandsBackTheStickyError : Obligations.GetStatusHandsBackTheStickyError := by
  intro s hq hb
  have code : s.err.code = if s.err = .ok then 0 else 1 := by cases s.err <;> rfl
  rw [exec, execGetStatus, whenIdle_idle hq hb, code]
  rfl

end Sys2Proof.Machine
end

section
/-! The statements on where an instruction stops: what the guards of 42_device_operations.md R160 refuse, and what hangs
where no call returns (70_reset_and_hazards.md R226). -/

namespace Sys2Proof.Machine

/-! The guards refuse. -/

theorem whenIdle_busy {k : State → Out} {s : State} (h : s.seq ≠ .idle ∨ s.blocked = true) :
    whenIdle k s = .refused .transferInProgress := by
  refine if_neg fun ⟨hq, hb⟩ => ?_
  rcases h with h | h
  · exact h hq
  · rw [hb] at h; cases h

theorem whenSw_busy {k : State → Out} {s : State} (h : s.seq ≠ .idle ∨ s.blocked = true) :
    whenSw k s = .refused .transferInProgress := by
  rw [whenSw, whenBegun, whenIdle_busy h]

theorem whenHw_busy {k : State → Out} {s : State} (h : s.seq ≠ .idle ∨ s.blocked = true) :
    whenHw k s = .refused .transferInProgress := by
  rw [whenHw, whenBegun, whenIdle_busy h]

theorem whenBegun_fresh {k : State → Out} {s : State} (hq : s.seq = .idle) (hb : s.blocked = false)
    (hi : s.init = false) : whenBegun k s = .refused .notBegun := by
  rw [whenBegun, whenIdle_idle hq hb, hi]
  rfl

theorem whenSw_hw {k : State → Out} {s : State} (hq : s.seq = .idle) (hb : s.blocked = false) (hi : s.init = true)
    (hm : s.cfg.mode = .hw) : whenSw k s = .refused .peripheralOwnsPins := by
  rw [whenSw, whenBegun_begun hq hb hi, hm]
  rfl

theorem whenHw_sw {k : State → Out} {s : State} (hq : s.seq = .idle) (hb : s.blocked = false) (hi : s.init = true)
    (hm : s.cfg.mode = .sw) : whenHw k s = .refused .noPeripheral := by
  rw [whenHw, whenBegun_begun hq hb hi, hm]
  rfl

/-! Which guard each instruction has. -/

theorem needsBegin_guarded {i : Instr} (h : needsBegin i = true) : ∃ k, exec i = whenBegun k := by
  cases i with
  | setVolume _ _ | setGain _ | mute => exact ⟨_, rfl⟩
  | setZeroCrossing _ | setExternalClock _ | setLinkChannels _ => exact ⟨_, rfl⟩
  | _ => cases h

theorem operation_guarded {i : Instr} (h : isOperation i = true) : ∃ k, exec i = whenIdle k := by
  cases i with
  | beginOp | getStatus => exact ⟨_, rfl⟩
  | setVolume _ _ | setGain _ | mute => exact ⟨_, rfl⟩
  | setZeroCrossing _ | setExternalClock _ | setLinkChannels _ => exact ⟨_, rfl⟩
  | _ => cases h

theorem exec_shiftByteSw (b : Byte) :
    exec (.shiftByteSw b) = whenSw fun s => .next ((s.shiftByteSw b).handBack .none) := rfl

theorem exec_shiftByteHw (b : Byte) :
    exec (.shiftByteHw b) = whenHw fun s => .next ((s.shiftByteHw b).handBack .none) := rfl

theorem exec_sendWordSw (w : Word) :
    exec (.sendWordSw w) = whenSw fun s => .next ((s.sendWordSw w).handBack .none) := rfl

theorem exec_sendWordHw (w : Word) :
    exec (.sendWordHw w) = whenHw fun s => .next ((s.sendWordHw w).handBack .none) := rfl

theorem exec_sendWord (w : Word) :
    exec (.sendWord w) = whenBegun fun s => .next ((s.sendWord w).handBack .none) := rfl

theorem operation_busy {i : Instr} {s : State} (hop : isOperation i = true)
    (h : s.seq ≠ .idle ∨ s.blocked = true) : exec i s = .refused .transferInProgress := by
  obtain ⟨k, hk⟩ := operation_guarded hop
  rw [hk, whenIdle_busy h]

/-- An operation that answers a next state started with nothing under way. -/
theorem operation_idle {i : Instr} {s t : State} (hop : isOperation i = true) (h : exec i s = .next t) :
    s.seq = .idle ∧ s.blocked = false := by
  obtain ⟨k, hk⟩ := operation_guarded hop
  rw [hk] at h
  obtain ⟨hq, hb, -⟩ := whenIdle_next h
  exact ⟨hq, hb⟩

/-- Settles O46: every instruction that sends has BEGIN's guard. -/
theorem sendingBeforeBeginIsRefused : Obligations.SendingBeforeBeginIsRefused := by
  intro s hq hb hi
  have fresh {k : State → Out} : whenBegun k s = .refused .notBegun := whenBegun_fresh hq hb hi
  refine ⟨fun i hn => ?_, fun b => ?_, fun w => ?_⟩
  · obtain ⟨k, hk⟩ := needsBegin_guarded hn
    rw [hk, fresh]
  · rw [exec_shiftByteSw, exec_shiftByteHw]
    exact ⟨fresh, fresh⟩
  · rw [exec_sendWordSw, exec_sendWordHw, exec_sendWord]
    exact ⟨fresh, fresh, fresh⟩

/-- Settles O47: every operation and every primitive of the Transport has the guard of an idle block, a control word
that of an idle bus. -/
theorem nothingStartsInsideATransfer : Obligations.NothingStartsInsideATransfer := by
  intro s
  refine ⟨fun h => ⟨fun i hop => operation_busy hop h, fun b => ?_, fun w => ?_⟩, fun hq r p c => ?_⟩
  · rw [exec_shiftByteSw, exec_shiftByteHw]
    exact ⟨whenSw_busy h, whenHw_busy h⟩
  · rw [exec_sendWordSw, exec_sendWordHw, exec_sendWord]
    exact ⟨whenSw_busy h, whenHw_busy h, whenIdle_busy h⟩
  · rw [exec_wordInstr, whenBusFree, if_neg hq]

/-- Settles O49: each strategy's primitives have that strategy's guard. -/
theorem strategyPrimitivesNeedTheirStrategy : Obligations.StrategyPrimitivesNeedTheirStrategy := fun s hq hb hi =>
  ⟨fun hm => ⟨fun b => by rw [exec_shiftByteHw, whenHw_sw hq hb hi hm],
      fun w => by rw [exec_sendWordHw, whenHw_sw hq hb hi hm]⟩,
    fun hm => ⟨fun b => by rw [exec_shiftByteSw, whenSw_hw hq hb hi hm],
      fun w => by rw [exec_sendWordSw, whenSw_hw hq hb hi hm]⟩⟩

/-! Where no call returns. -/

/-- No transfer is under way, nothing hangs yet, and no call returns any more. -/
structure Dead (s : State) : Prop where
  idle    : s.seq = .idle
  running : s.blocked = false
  returns : s.returns = some 0

/-- The state held at the start of a word's transfer. -/
def State.held (w : Word) (s : State) : State := { s with blocked := true, seq := .sending w 15 .assert }

theorem calls_dead {s : State} (h : Dead s) {cs : List Call} (hne : cs ≠ []) :
    s.calls cs = { s with blocked := true } := by
  rw [calls_count cs h.returns h.running, if_neg (by simpa using hne), ← h.returns]
  rfl

theorem transfer_dead {s : State} (h : Dead s) {body : State → State} {cs : List Call} (hne : cs ≠ [])
    (hb : body s = s.calls cs) (w : Word) (x : Nat) : s.transfer body w x = s.held w := by
  rw [calls_dead h hne] at hb
  rw [State.transfer, if_neg (by rw [h.running]; decide), hb]
  refine (if_pos rfl).trans ?_
  rw [Nat.sub_self, Nat.zero_sub, framerPosition, if_pos rfl]
  rfl

theorem sendWord_dead {s : State} (h : Dead s) (w : Word) : s.sendWord w = s.held w := by
  cases hm : s.cfg.mode <;> simp only [State.sendWord, hm]
  · exact transfer_dead h (List.cons_ne_nil _ _) (bracketHw_calls s w) w 1
  · exact transfer_dead h (List.cons_ne_nil _ _) (bracketSw_calls s w) w 0

theorem memWrite_dead {s : State} (h : Dead s) (r : Reg) (p : Word) : s.memWrite r p = s.held (assemble s.cfg r p) :=
  sendWord_dead h _

theorem memWrite_blocked {s : State} (h : s.blocked = true) (r : Reg) (p : Word) : s.memWrite r p = s :=
  (sendWord_sends s _).stuck h

/-- Of two stores the first hangs and the second is not begun. -/
theorem twoWrites_dead {s : State} (h : Dead s) (r q : Reg) (p v : Word) :
    (s.memWrite r p).memWrite q v = s.held (assemble s.cfg r p) := by
  rw [memWrite_dead h, memWrite_blocked rfl]

theorem storeGain_dead {s : State} (h : Dead s) (m : Word) :
    s.storeGain m = { s with gainMirror := m }.held (assemble s.cfg .gain m) :=
  memWrite_dead (s := { s with gainMirror := m }) ⟨h.idle, h.running, h.returns⟩ .gain m

theorem storeStates_dead {s : State} (h : Dead s) (m : Word) :
    s.storeStates m = { s with statesMirror := m }.held (assemble s.cfg .states m) :=
  memWrite_dead (s := { s with statesMirror := m }) ⟨h.idle, h.running, h.returns⟩ .states m

theorem byteCalls_ne_nil (cfg : Config) (b : Byte) : byteCalls cfg b ≠ [] := by
  cases hm : cfg.mode with
  | hw =>
    rw [byteCalls_hw hm, msbBits_byte, List.flatMap_cons]
    exact List.append_ne_nil_of_left_ne_nil (List.cons_ne_nil _ _) _
  | sw =>
    rw [byteCalls_sw hm, msbBits_byte, List.flatMap_cons]
    exact List.append_ne_nil_of_left_ne_nil (List.cons_ne_nil _ _) _

theorem exec_begin_dead {s : State} (h : Dead s) :
    exec .beginOp s = .next { s with blocked := true, result := .none } := by
  rw [exec, execBegin, whenIdle_idle h.idle h.running, beginPins_calls,
    calls_dead h (cs := beginCalls s.cfg) (List.cons_ne_nil _ _), complete_blocked rfl]
  rfl

theorem exec_setVolume_dead {s : State} (h : Dead s) (hi : s.init = true) {l r : Int}
    (hl : volumeValid s.cfg l = true) (hr : volumeValid s.cfg r = true) :
    exec (.setVolume l r) s = .next ((s.held (assemble s.cfg .attL (atten l))).handBack .none) := by
  rw [exec, execSetVolume, whenBegun_begun h.idle h.running hi, if_pos (Bool.and_eq_true_iff.2 ⟨hl, hr⟩),
    twoWrites_dead h, complete_blocked rfl]

theorem exec_mute_dead {s : State} (h : Dead s) (hi : s.init = true) :
    exec .mute s = .next ((s.held (assemble s.cfg .attL 0x0000#16)).handBack .none) := by
  rw [exec, execMute, whenBegun_begun h.idle h.running hi, twoWrites_dead h]

theorem exec_setGain_dead {s : State} (h : Dead s) (hi : s.init = true) {g : Int} (hg : gainValid s.cfg g = true) :
    exec (.setGain g) s =
      .next (({ s with gainMirror := gainCode g }.held (assemble s.cfg .gain (gainCode g))).handBack .none) := by
  rw [exec_setGain, whenBegun_begun h.idle h.running hi, if_pos hg, storeGain_dead h, complete_blocked rfl]

/-- Settles O48: the first call of an operation that makes one hangs, before any event. -/
theorem withNoCallReturningOnlyCallersHang : Obligations.WithNoCallReturningOnlyCallersHang := by
  intro s hwf hq hb hr
  have dead : Dead s := ⟨hq, hb, hr⟩
  refine ⟨exec_begin_dead dead, getStatusHandsBackTheStickyError s hq hb, fun hi => ?_⟩
  have begun {k : State → Out} : whenBegun k s = k s := whenBegun_begun hq hb hi
  refine ⟨(raisingValueErrorHasThreeEffects s hwf hq hb hi).1, fun l r hl hl0 hr hr0 => ?volume, ?mute,
    fun g hg m hm => ?gain, fun e m => ⟨fun hm => ?zeroCrossing, fun hm => ?link, fun hm => ?externalClock⟩,
    fun w => ?word, fun b => ⟨fun hm => ?byteSw, fun hm => ?byteHw⟩⟩
  case volume =>
    rw [← atten_eq_ofInt]
    exact exec_setVolume_dead dead hi ((volumeValid_iff hwf l).2 ⟨hl, hl0⟩) ((volumeValid_iff hwf r).2 ⟨hr, hr0⟩)
  case mute =>
    rw [exec_mute_dead dead hi, assemble, BitVec.or_zero]
    rfl
  case gain =>
    subst hm
    exact exec_setGain_dead dead hi ((gainValid_iff s.cfg g).2 hg)
  case zeroCrossing =>
    subst hm
    rw [exec, execSetZeroCrossing, begun, gainFeature_eq, storeGain_dead dead]
    rfl
  case link =>
    subst hm
    rw [exec, execSetLinkChannels, begun, gainFeature_eq, storeGain_dead dead]
    rfl
  case externalClock =>
    subst hm
    rw [exec, execSetExternalClock, begun, statesFeature_eq, storeStates_dead dead]
    rfl
  case word =>
    rw [exec_sendWord, begun, sendWord_dead dead]
    rfl
  case byteSw =>
    rw [exec_shiftByteSw, whenSw, begun, if_pos hm, shiftByteSw_calls, ← byteCalls_sw hm,
      calls_dead dead (byteCalls_ne_nil s.cfg b)]
    rfl
  case byteHw =>
    rw [exec_shiftByteHw, whenHw, begun, if_pos hm, shiftByteHw_calls, ← byteCalls_hw hm,
      calls_dead dead (byteCalls_ne_nil s.cfg b)]
    rfl

end Sys2Proof.Machine
end

section
/-! The statements on what the operations send: which words (40_encoder.md R119, 30_encoding.md R84 to R88), how many
(42_device_operations.md R171 d), and that the mirrors show them (10_state.md R27). -/

namespace Sys2Proof.Machine

/-! The device view after an operation. -/

/-- Over an idle wire an operation makes the receiver latch the first of its words, and all of them if it returns. -/
theorem operation_view {i : Instr} {s t : State} (hop : isOperation i = true) (hi : WireIdle s)
    (h : exec i s = .next t) :
    ∃ vs, vs <+: wordsSent s i ∧ t.rx.out = s.rx.out ++ vs.map Latched.word ∧
      (t.blocked = false → vs = wordsSent s i) := by
  have silent (hn : Sendless s i) (ho : t.rx.out = s.rx.out) : ∃ vs, vs <+: wordsSent s i ∧
      t.rx.out = s.rx.out ++ vs.map Latched.word ∧ (t.blocked = false → vs = wordsSent s i) :=
    ⟨[], List.nil_prefix, by rw [ho, List.map_nil, List.append_nil], fun _ => hn.words.symm⟩
  cases exec_ran h with
  | latched _ _ other => rw [hop] at other; cases other
  | answered _ hn => exact silent hn rfl
  | raised _ hn => exact silent hn rfl
  | began _ _ hn =>
    refine silent hn ?_
    rw [beginPins_calls, ← beginCalls_out hi]
    unfold State.complete
    split <;> rfl
  | shifted _ _ _ other => rw [hop] at other; cases other
  | sent u _ _ _ hs =>
    cases hu : u.blocked with
    | true =>
      obtain ⟨ps, hpart, e⟩ := hs.part
      obtain ⟨vs, hvs, hout⟩ := receiver_part hpart (r := s.rx) hi.cs hi.clk
      exact ⟨vs, hvs, by rw [← hout, State.handBack_rx, e.rx]; rfl, fun hf => absurd (hu.symm.trans hf) (by decide)⟩
    | false =>
      obtain ⟨-, ht, -⟩ := hs.whole hu
      exact ⟨_, List.prefix_refl _, ht.view ⟨hi.cs, hi.clk⟩, fun _ => rfl⟩

/-! The stores of an operation. -/

theorem mem_stores_setVolume {s : State} {l r : Int} {p : Reg × Word} (h : p ∈ stores s (.setVolume l r)) :
    p = (.attL, atten l) ∨ p = (.attR, atten r) := by
  rw [stores_setVolume] at h
  split at h
  · simpa using h
  · cases h

theorem mem_stores_setGain {s : State} {g : Int} {p : Reg × Word} (h : p ∈ stores s (.setGain g)) :
    gainValid s.cfg g = true ∧ p = (.gain, gainCode g) := by
  rw [stores_setGain] at h
  split at h
  · exact ⟨by assumption, List.mem_singleton.1 h⟩
  · cases h

/-- What an operation stores is what it is said to send, the mirrors as it leaves them. -/
theorem mem_payloads {i : Instr} {s t : State} (h : exec i s = .next t) {p : Reg × Word} (hp : p ∈ stores s i) :
    p ∈ payloads t i := by
  obtain ⟨hg, hs⟩ := exec_mirrors h
  cases i with
  | setVolume l r =>
    rcases mem_stores_setVolume hp with rfl | rfl
    · exact List.mem_cons.2 (.inl (congrArg _ (atten_eq_ofInt l)))
    · exact List.mem_cons_of_mem _ (List.mem_singleton.2 (congrArg _ (atten_eq_ofInt r)))
  | setGain g =>
    obtain ⟨hv, rfl⟩ := mem_stores_setGain hp
    rw [gainAfter_setGain, if_pos hv] at hg
    exact List.mem_singleton.2 (congrArg _ hg.symm)
  | mute => exact hp
  | setZeroCrossing e =>
    rw [List.mem_singleton.1 hp]
    exact List.mem_singleton.2 (congrArg _ hg.symm)
  | setLinkChannels e =>
    rw [List.mem_singleton.1 hp]
    exact List.mem_singleton.2 (congrArg _ hg.symm)
  | setExternalClock e =>
    rw [List.mem_singleton.1 hp]
    exact List.mem_singleton.2 (congrArg _ hs.symm)
  | _ => cases hp

/-- Every payload stored has its low four bits clear (R119). -/
theorem stores_payload {i : Instr} {s : State} (gain : s.gainMirror &&& 0x000F#16 = 0#16)
    (states : s.statesMirror &&& 0x000F#16 = 0#16) {p : Reg × Word} (hp : p ∈ stores s i) :
    p.2 &&& 0x000F#16 = 0#16 := by
  cases i with
  | setVolume l r => rcases mem_stores_setVolume hp with rfl | rfl <;> exact atten_payload _
  | setGain g => obtain ⟨-, rfl⟩ := mem_stores_setGain hp; exact gainCode_payload g
  | mute =>
    simp only [stores, List.mem_cons, List.not_mem_nil, or_false] at hp
    rcases hp with rfl | rfl <;> rfl
  | setZeroCrossing e => rw [List.mem_singleton.1 hp]; exact setFeature_payload .zeroCrossing e gain
  | setLinkChannels e => rw [List.mem_singleton.1 hp]; exact setFeature_payload .link e gain
  | setExternalClock e => rw [List.mem_singleton.1 hp]; exact setFeature_payload .externalClock e states
  | _ => cases hp

/-- Settles O36: a latched word is one of the operation's, and each of those is assembled of three disjoint parts. -/
theorem everyWordSentHasDisjointParts : Obligations.EveryWordSentHasDisjointParts := by
  intro i s t inv hop h w hw
  obtain ⟨-, hb⟩ := operation_idle hop h
  obtain ⟨vs, hvs, hout, -⟩ := operation_view hop (inv.wire hb) h
  rw [hout, List.drop_left, List.mem_map] at hw
  obtain ⟨v, hv, hvw⟩ := hw
  injection hvw with hvw
  subst hvw
  have sent := hvs.subset hv
  rw [wordsSent_operation hop, List.mem_map] at sent
  obtain ⟨p, hp, rfl⟩ := sent
  obtain ⟨hchip, hsel, hpay⟩ := assemble_parts inv.config p.1 (stores_payload inv.gainClear inv.statesClear hp)
  exact ⟨hchip, p, mem_payloads h hp, hsel, hpay, rfl⟩

/-- The bits that a register's format leaves zero (30_encoding.md R84 to R87). -/
def zeroFields : Reg → Word
  | .attL | .attR => 0x0070#16
  | .gain => 0x00F0#16
  | .states => 0xFDF0#16

theorem payloads_zeroFields {i : Instr} {t : State} (tame : MirrorsTame t) {p : Reg × Word} (hp : p ∈ payloads t i) :
    p.2 &&& zeroFields p.1 = 0#16 := by
  have code (v : Int) : BitVec.ofInt 16 (4096 - 128 * v) &&& 0x0070#16 = 0#16 := by
    rw [← atten_eq_ofInt]
    exact and_eq_zero_of_part rfl (atten_low_clear v)
  have gain : t.gainMirror &&& 0x00F0#16 = 0#16 := and_eq_zero_of_part rfl tame.gain
  have states : t.statesMirror &&& 0xFDF0#16 = 0#16 := and_eq_zero_of_part rfl tame.states
  cases i with
  | setVolume l r =>
    simp only [payloads, List.mem_cons, List.not_mem_nil, or_false] at hp
    rcases hp with rfl | rfl <;> exact code _
  | mute =>
    simp only [payloads, List.mem_cons, List.not_mem_nil, or_false] at hp
    rcases hp with rfl | rfl <;> rfl
  | setGain _ | setZeroCrossing _ | setLinkChannels _ => rw [List.mem_singleton.1 hp]; exact gain
  | setExternalClock _ => rw [List.mem_singleton.1 hp]; exact states
  | _ => cases hp

/-- Settles O37: a word's select constant names the one register whose payload it carries. -/
theorem wordsSentKeepTheFormatsZeroFields : Obligations.WordsSentKeepTheFormatsZeroFields := by
  intro i s t inv tame hop h w hw
  obtain ⟨-, p, hp, hsel, hpay, -⟩ := everyWordSentHasDisjointParts i s t inv hop h w hw
  have clear := payloads_zeroFields (unusedMirrorBitsStayClear i s t tame h) hp
  have zero (r : Reg) (hpart : 0xFFF0#16 &&& zeroFields r = zeroFields r) (hr : w &&& 0x000C#16 = selConst s.cfg r) :
      w &&& zeroFields r = 0#16 := by
    obtain rfl := selConst_injective inv.config (hsel.symm.trans hr)
    rw [← hpart, ← BitVec.and_assoc, hpay, clear]
  exact ⟨zero .attL rfl, zero .attR rfl, zero .gain rfl, zero .states rfl⟩

/-! The mirrors as the last words sent. -/

/-- `m` is the payload of the last word with register `r`'s select constant, if there is one (10_state.md R27). -/
def Shown (cfg : Config) (r : Reg) (m : Word) (out : List Latched) : Prop :=
  ∀ w, lastSent cfg r out = some w → w &&& 0xFFF0#16 = m

theorem lastSent_concat (cfg : Config) (r : Reg) (out : List Latched) (v : Word) :
    lastSent cfg r (out ++ [.word v]) = if v &&& 0x000C#16 = selConst cfg r then some v else lastSent cfg r out := by
  rw [lastSent, List.foldl_append]
  rfl

theorem shown_concat {cfg : Config} (h : cfg.wf = true) {r : Reg} {m : Word} {out : List Latched} {p : Reg × Word}
    (hp : p.2 &&& 0x000F#16 = 0#16) (same : p.1 = r → p.2 = m) (before : p.1 ≠ r → Shown cfg r m out) :
    Shown cfg r m (out ++ [.word (assemble cfg p.1 p.2)]) := by
  obtain ⟨-, hsel, hpay⟩ := assemble_parts h p.1 hp
  intro w hw
  rw [lastSent_concat, hsel] at hw
  split at hw
  · rename_i he
    injection hw with hw
    rw [← hw, hpay]
    exact same (selConst_injective h he)
  · rename_i hne
    exact before (fun he => hne (by rw [he])) w hw

/-- After stores the mirror is shown if it was or if one of them is its own, and each of its own carries it. -/
theorem shown_stores {cfg : Config} (h : cfg.wf = true) {r : Reg} {m : Word} (ps : List (Reg × Word))
    {out : List Latched} (clear : ∀ p ∈ ps, p.2 &&& 0x000F#16 = 0#16) (same : ∀ p ∈ ps, p.1 = r → p.2 = m)
    (before : (∀ p ∈ ps, p.1 ≠ r) → Shown cfg r m out) :
    Shown cfg r m (out ++ (ps.map fun p => assemble cfg p.1 p.2).map Latched.word) := by
  induction ps generalizing out with
  | nil => simpa using before (by simp)
  | cons p ps ih =>
    rw [List.map_cons, List.map_cons, ← List.singleton_append, ← List.append_assoc]
    refine ih (fun q hq => clear q (List.mem_cons_of_mem _ hq)) (fun q hq => same q (List.mem_cons_of_mem _ hq))
      fun rest => ?_
    exact shown_concat h (clear p List.mem_cons_self) (same p List.mem_cons_self)
      fun hne => before (List.forall_mem_cons.2 ⟨hne, rest⟩)

/-- An operation stores in the gain register exactly where it writes the gain mirror, and then the mirror. -/
theorem stores_gain (i : Instr) (s : State) :
    (∀ p ∈ stores s i, p.1 = .gain → p.2 = gainAfter s i) ∧
      ((∀ p ∈ stores s i, p.1 ≠ .gain) → gainAfter s i = s.gainMirror) := by
  cases i with
  | setVolume l r =>
    refine ⟨fun p hp hr => ?_, fun _ => rfl⟩
    rcases mem_stores_setVolume hp with rfl | rfl <;> cases hr
  | setGain g =>
    rw [gainAfter_setGain, stores_setGain]
    split
    · exact ⟨fun p hp _ => by rw [List.mem_singleton.1 hp], fun hn => absurd rfl (hn _ (List.mem_singleton_self _))⟩
    · exact ⟨nofun, fun _ => rfl⟩
  | setZeroCrossing e =>
    exact ⟨fun p hp _ => by rw [List.mem_singleton.1 hp]; rfl, fun hn => absurd rfl (hn _ (List.mem_singleton_self _))⟩
  | setLinkChannels e =>
    exact ⟨fun p hp _ => by rw [List.mem_singleton.1 hp]; rfl, fun hn => absurd rfl (hn _ (List.mem_singleton_self _))⟩
  | setExternalClock e =>
    exact ⟨fun p hp hr => (by rw [List.mem_singleton.1 hp] at hr; cases hr), fun _ => rfl⟩
  | mute => exact ⟨by simp [stores], fun _ => rfl⟩
  | _ => exact ⟨nofun, fun _ => rfl⟩

theorem stores_states (i : Instr) (s : State) :
    (∀ p ∈ stores s i, p.1 = .states → p.2 = statesAfter s i) ∧
      ((∀ p ∈ stores s i, p.1 ≠ .states) → statesAfter s i = s.statesMirror) := by
  cases i with
  | setVolume l r =>
    refine ⟨fun p hp hr => ?_, fun _ => rfl⟩
    rcases mem_stores_setVolume hp with rfl | rfl <;> cases hr
  | setGain g =>
    refine ⟨fun p hp hr => ?_, fun _ => rfl⟩
    obtain ⟨-, rfl⟩ := mem_stores_setGain hp
    cases hr
  | setExternalClock e =>
    exact ⟨fun p hp _ => by rw [List.mem_singleton.1 hp]; rfl, fun hn => absurd rfl (hn _ (List.mem_singleton_self _))⟩
  | mute => exact ⟨by simp [stores], fun _ => rfl⟩
  | setZeroCrossing _ | setLinkChannels _ =>
    exact ⟨fun p hp hr => (by rw [List.mem_singleton.1 hp] at hr; cases hr), fun _ => rfl⟩
  | _ => exact ⟨nofun, fun _ => rfl⟩

/-- Settles O38: the words an operation has added are its stores, and those of a mirror's register carry the mirror. -/
theorem mirrorsShowTheLastWordSent : Obligations.MirrorsShowTheLastWordSent := by
  intro i s t inv shown hop h hb
  obtain ⟨-, hrun⟩ := operation_idle hop h
  obtain ⟨vs, -, hout, hall⟩ := operation_view hop (inv.wire hrun) h
  obtain ⟨hg, hs⟩ := exec_mirrors h
  obtain ⟨_, a⟩ := (exec_keeps h).acts
  obtain ⟨ownGain, keptGain⟩ := stores_gain i s
  obtain ⟨ownStates, keptStates⟩ := stores_states i s
  have clear (p) (hp : p ∈ stores s i) := stores_payload inv.gainClear inv.statesClear hp
  rw [hall hb, wordsSent_operation hop] at hout
  constructor
  · rw [hout, a.cfg, hg]
    exact shown_stores inv.config _ clear ownGain fun hn => by rw [keptGain hn]; exact shown.gain
  · rw [hout, a.cfg, hs]
    exact shown_stores inv.config _ clear ownStates fun hn => by rw [keptStates hn]; exact shown.states

/-! How many words. -/

/-- A returned operation has added as many words as it stores payloads. -/
theorem operation_count {i : Instr} {s t : State} (hop : isOperation i = true) (hi : WireIdle s)
    (h : exec i s = .next t) (hb : t.blocked = false) : t.rx.out.length = s.rx.out.length + (stores s i).length := by
  obtain ⟨vs, -, hout, hall⟩ := operation_view hop hi h
  rw [hout, hall hb, wordsSent_operation hop]
  simp

theorem complete_handBack_result {u : State} {r : Result} (hb : (u.complete (State.handBack r)).blocked = false) :
    (u.complete (State.handBack r)).result = r := by
  rw [complete_handBack, State.handBack_blocked] at hb
  rw [complete_handBack, hb]
  rfl

/-- Settles O40: the stores of each operation, counted, with the answer of the two that can fail. -/
theorem transfersPerOperationAreFixed : Obligations.TransfersPerOperationAreFixed := by
  intro i s t hi h hb
  have count (hop : isOperation i = true) := operation_count hop hi h hb
  refine ⟨?begin, ?volume, ?gain, ?mute, ?feature, ?status⟩
  case begin => rintro rfl; exact count rfl
  case mute => rintro rfl; exact count rfl
  case status => rintro rfl; exact count rfl
  case feature =>
    rintro ⟨e, rfl | rfl | rfl⟩
    · exact count rfl
    · exact count rfl
    · exact count rfl
  case volume =>
    rintro ⟨l, r, rfl⟩
    have two := count rfl
    rw [stores_setVolume] at two
    obtain ⟨-, -, -, ⟨hl, hr, rfl⟩ | ⟨hv, rfl⟩⟩ := exec_setVolume_next h
    · rw [hl, hr] at two
      exact .inl ⟨complete_handBack_result hb, two⟩
    · rw [hv] at two
      exact .inr ⟨rfl, two⟩
  case gain =>
    rintro ⟨g, rfl⟩
    have one := count rfl
    rw [stores_setGain] at one
    obtain ⟨-, -, -, ⟨hv, rfl⟩ | ⟨hv, rfl⟩⟩ := exec_setGain_next h
    · rw [hv] at one
      exact .inl ⟨complete_handBack_result hb, one⟩
    · rw [hv] at one
      exact .inr ⟨rfl, one⟩

/-! Toggling a feature. -/

/-- The last setting of a feature bit counts. -/
theorem setFeature_setFeature (f : Feature) (e d : Bool) (m : Word) :
    setFeature f e (setFeature f d m) = setFeature f e m := by
  have index : (flagBit f e).1 = (flagBit f d).1 := by cases f <;> rfl
  apply word_ext
  intro j hj
  rw [getLsbD_setFeature f e _ j hj, getLsbD_setFeature f e _ j hj, getLsbD_setFeature f d _ j hj]
  split
  · rfl
  · rename_i hne
    rw [if_neg (by rwa [← index])]

theorem setFeature_eq_self_iff (f : Feature) (e : Bool) (m : Word) :
    setFeature f e m = m ↔ m.getLsbD (flagBit f e).1 = (flagBit f e).2 := by
  have small : (flagBit f e).1 < 16 := by cases f <;> simp [flagBit]
  constructor
  · intro h
    rw [← h, getLsbD_setFeature f e m _ small, if_pos rfl]
  · intro h
    apply word_ext
    intro j hj
    rw [getLsbD_setFeature f e m j hj]
    split
    · rename_i he; rw [he, h]
    · rfl

/-- `F` sets the bit of `f` in the one mirror and leaves the other. -/
structure Toggles (F : Bool → Instr) (f : Feature) (mirror other : State → Word) : Prop where
  sets  : ∀ e s t, exec (F e) s = .next t → mirror t = setFeature f e (mirror s)
  keeps : ∀ e s t, exec (F e) s = .next t → other t = other s

theorem Toggles.again {F : Bool → Instr} {f : Feature} {mirror other : State → Word} (h : Toggles F f mirror other)
    {e : Bool} {s t u v : State} (h1 : exec (F e) s = .next t) (h2 : exec (F !e) t = .next u)
    (h3 : exec (F e) u = .next v) : mirror v = mirror t ∧ other v = other t := by
  rw [h.sets _ _ _ h3, h.sets _ _ _ h2, h.sets _ _ _ h1, h.keeps _ _ _ h3, h.keeps _ _ _ h2, setFeature_setFeature,
    setFeature_setFeature]
  exact ⟨rfl, rfl⟩

theorem Toggles.restores {F : Bool → Instr} {f : Feature} {mirror other : State → Word} (h : Toggles F f mirror other)
    {s t u : State} (h1 : exec (F true) s = .next t) (h2 : exec (F false) t = .next u) :
    (mirror u = mirror s ∧ other u = other s) ↔ (mirror s).getLsbD (flagBit f false).1 = (flagBit f false).2 := by
  rw [h.sets _ _ _ h2, h.sets _ _ _ h1, h.keeps _ _ _ h2, h.keeps _ _ _ h1, setFeature_setFeature,
    ← setFeature_eq_self_iff]
  exact and_iff_left rfl

theorem setZeroCrossing_toggles : Toggles .setZeroCrossing .zeroCrossing State.gainMirror State.statesMirror :=
  ⟨fun _ _ _ h => (exec_mirrors h).1, fun _ _ _ h => (exec_mirrors h).2⟩

theorem setLinkChannels_toggles : Toggles .setLinkChannels .link State.gainMirror State.statesMirror :=
  ⟨fun _ _ _ h => (exec_mirrors h).1, fun _ _ _ h => (exec_mirrors h).2⟩

theorem setExternalClock_toggles : Toggles .setExternalClock .externalClock State.statesMirror State.gainMirror :=
  ⟨fun _ _ _ h => (exec_mirrors h).2, fun _ _ _ h => (exec_mirrors h).1⟩

/-- Settles O41: a feature operation sets one bit of one mirror, so only its last setting counts, and setting it
restores the mirror exactly where the bit had that value. -/
theorem featureTogglesRestoreTheMirrors : Obligations.FeatureTogglesRestoreTheMirrors := by
  intro x hx
  simp only [List.mem_cons, List.not_mem_nil, or_false] at hx
  rcases hx with rfl | rfl | rfl
  · exact ⟨fun e s t u v h1 h2 h3 => setZeroCrossing_toggles.again h1 h2 h3,
      fun s t u h1 h2 => setZeroCrossing_toggles.restores h1 h2⟩
  · exact ⟨fun e s t u v h1 h2 h3 => (setExternalClock_toggles.again h1 h2 h3).symm,
      fun s t u h1 h2 => and_comm.trans (setExternalClock_toggles.restores h1 h2)⟩
  · refine ⟨fun e s t u v h1 h2 h3 => setLinkChannels_toggles.again h1 h2 h3, fun s t u h1 h2 => ?_⟩
    rw [Bool.not_eq_true']
    exact setLinkChannels_toggles.restores h1 h2

end Sys2Proof.Machine
end

section
/-! The statements on one step of the machine: which input it takes and what the input does (42_device_operations.md
R160, 60_exceptions.md R203, 70_reset_and_hazards.md R220 and R226). -/

namespace Sys2Proof.Machine

/-! One input. -/

/-- With an input first in line that the step takes, it is the input's effect on the state without it. -/
theorem step_input {s : State} {x : Input} {rest : List Input} (hc : s.cfg.wf = true)
    (h : s.seq = .idle ∨ s.blocked = true) (hx : s.inputs = x :: rest) :
    step s = runInput x { s with inputs := rest } := by
  rw [step_takes hc h, takeInput_cons hx]

/-- Power loss does not wait for the end of a transfer. -/
theorem step_powerLoss {s : State} {rest : List Input} (hc : s.cfg.wf = true) (hx : s.inputs = .powerLoss :: rest) :
    step s = losePower { s with inputs := rest } := by
  have cuts : s.interrupted = true := by rw [State.interrupted, hx]; rfl
  rw [step, if_pos hc, if_pos (.inr (.inr cuts)), takeInput_cons hx]
  rfl

theorem construct_wf {cfg : Config} (h : cfg.wf = true) (s : State) : construct cfg s = .next (s.freshHandle cfg) :=
  if_pos h

theorem construct_ill {cfg : Config} (h : cfg.wf = false) (s : State) : construct cfg s = .refused .illFormedConfig :=
  if_neg (by rw [h]; decide)

/-- The state after the block's power loss: a fresh handle, over a chip that is upset where its bracket was open. -/
def State.powerLost (s : State) : State := (if s.rx.cs then s else s.upset).freshHandle s.cfg

theorem losePower_wf {s : State} (h : s.cfg.wf = true) : losePower s = .next s.powerLost := construct_wf h _

theorem powerLost_inputs (s : State) : s.powerLost.inputs = s.inputs := by
  rw [State.powerLost, State.freshHandle_inputs]
  split <;> rfl

theorem powerLost_mem_of_closed {s : State} (h : s.rx.cs = true) : s.powerLost.mem = s.mem := by
  rw [State.powerLost, State.freshHandle_mem, if_pos h]

theorem powerLost_outside {s : State} {a : Nat} (ha : ∀ r, ¬ inRegister s.cfg r a) :
    readByte s.powerLost.mem a = readByte s.mem a := by
  rw [State.powerLost, State.freshHandle_mem]
  split
  · rfl
  · exact readByte_upsetMem _ _ _ a ha

/-! The statements. -/

/-- Settles O50: an issue is decoded and executed. -/
theorem stepRunsTheDecodedInstruction : Obligations.StepRunsTheDecodedInstruction := by
  intro s x rest i hc h hx hi
  rw [step_input hc h hx]
  show runIssue x { s with inputs := rest } = _
  rw [runIssue, hi]

/-- Settles O51: the step's two branches. -/
theorem stepWaitsOrContinuesATransfer : Obligations.StepWaitsOrContinuesATransfer := by
  intro s hc
  refine ⟨fun h hx => by rw [step_takes hc h, takeInput_nil hx], fun hq hb hi =>
    ⟨fun t ht => step_framer hc hq hb hi ht, fun hnone => ?_⟩⟩
  rw [step, if_pos hc, if_neg (by simp [hq, hb, hi]), continueTransfer, hnone]

/-- Settles O52: an idle step takes the construction, which is the fresh handle. -/
theorem constructionIsTheReset : Obligations.ConstructionIsTheReset := by
  intro s c rest hc hq hb hx
  have run : step s = construct c { s with inputs := rest } := by
    rw [step_input hc (.inl hq) hx]
    exact whenIdle_idle hq hb
  rw [run]
  exact ⟨fun hill => construct_ill hill _, fun hwf =>
    ⟨_, construct_wf hwf _, rfl, rfl, rfl, rfl, rfl, rfl, rfl, rfl, rfl, rfl, rfl, rfl, rfl⟩⟩

/-- Settles O53: the block's power loss is taken at any step and leaves a fresh handle; the chip's upsets its
registers. -/
theorem powerLossOfBlockAndOfChip : Obligations.PowerLossOfBlockAndOfChip := by
  intro s rest hc
  refine ⟨fun hx => ?block, fun h hx => ?chip⟩
  case block =>
    have run := (step_powerLoss hc hx).trans (losePower_wf (s := { s with inputs := rest }) hc)
    exact ⟨_, run, rfl, rfl, rfl, rfl, rfl, rfl, rfl, rfl, rfl, rfl, rfl, rfl, powerLost_inputs _,
      fun hcs => powerLost_mem_of_closed (s := { s with inputs := rest }) hcs,
      fun a ha => powerLost_outside (s := { s with inputs := rest }) ha⟩
  case chip =>
    exact ⟨_, step_input hc h hx, rfl, readRegister_upsetMem hc s.upsets s.mem, readByte_upsetMem s.cfg s.upsets s.mem⟩

/-- Where a call hangs, no input but the block's power loss lets the block go on. -/
theorem runInput_hanging {x : Input} {s t : State} (hb : s.blocked = true) (h : runInput x s = .next t)
    (ht : t.blocked = false) : x = .powerLoss := by
  cases x with
  | powerLoss => rfl
  | issue y =>
    obtain ⟨i, hi⟩ := runIssue_next h
    rw [(exec_keeps hi).running ht] at hb
    cases hb
  | construct c =>
    obtain ⟨-, hf, -⟩ := whenIdle_next h
    rw [hf] at hb
    cases hb
  | chipPowerLoss => cases h; exact absurd (hb.symm.trans ht) (by decide)
  | stall n => cases h; exact absurd (hb.symm.trans ht) (by decide)
  | link b => cases h; exact absurd (hb.symm.trans ht) (by decide)

/-- Settles O18: the hanging block waits, refuses what would start an operation, and goes on only after power loss. -/
theorem aHangingOperationEndsOnlyWithPower : Obligations.AHangingOperationEndsOnlyWithPower := by
  intro s hc hb
  refine ⟨fun hx => ?waits, fun i hop => operation_busy hop (.inr hb), fun c rest hx => ?construct,
    fun rest hx => ?power, fun t h ht => ?only⟩
  case waits => rw [step_takes hc (.inr hb), takeInput_nil hx]
  case construct =>
    rw [step_input hc (.inr hb) hx]
    exact whenIdle_busy (s := { s with inputs := rest }) (.inr hb)
  case power =>
    exact ⟨_, (step_powerLoss hc hx).trans (losePower_wf (s := { s with inputs := rest }) hc), rfl, rfl⟩
  case only =>
    cases hx : s.inputs with
    | nil =>
      rw [step_takes hc (.inr hb), takeInput_nil hx] at h
      cases h
      rw [hb] at ht
      cases ht
    | cons x rest =>
      rw [step_input hc (.inr hb) hx] at h
      rw [runInput_hanging (s := { s with inputs := rest }) hb h ht]
      rfl

end Sys2Proof.Machine
end

section
/-! The statements that compare two runs of one instruction: with another link (60_exceptions.md R197), with other
data-in levels (41_transport.md R143), and with every call returning (70_reset_and_hazards.md R226). A relation that the
calls, the receiver and the register writes keep is kept by every instruction. -/

namespace Sys2Proof.Machine

/-! Two runs side by side. -/

/-- What decides the course of an instruction is the same in both states. -/
structure Agrees (s u : State) : Prop where
  cfg          : u.cfg = s.cfg
  seq          : u.seq = s.seq
  blocked      : u.blocked = s.blocked
  init         : u.init = s.init
  gainMirror   : u.gainMirror = s.gainMirror
  statesMirror : u.statesMirror = s.statesMirror
  err          : u.err = s.err
  length       : u.trace.length = s.trace.length

/-- A write of one register of the block. -/
inductive Write
  | gain (w : Word)
  | states (w : Word)
  | err (e : ErrCode)
  | init (b : Bool)
  | seq (q : Seq)
  | result (r : Result)

/-- The state with the register written. -/
def Write.apply : Write → State → State
  | .gain w, s => { s with gainMirror := w }
  | .states w, s => { s with statesMirror := w }
  | .err e, s => { s with err := e }
  | .init b, s => { s with init := b }
  | .seq q, s => { s with seq := q }
  | .result r, s => { s with result := r }

/-- A relation between two runs that all they are made of keeps; it may ask nothing more once the first run hangs. -/
structure Parallel (R : State → State → Prop) : Prop where
  agrees : ∀ {s u}, R s u → Agrees s u ∨ (s.blocked = true ∧ ∀ a v, a.blocked = true → R a v)
  call   : ∀ {s u}, R s u → ∀ c : Call, R (s.call c.effect) (u.call c.effect)
  latch  : ∀ {s u}, R s u → ∀ w, R (s.latch w) (u.latch w)
  write  : ∀ {s u}, R s u → ∀ d : Write, R (d.apply s) (d.apply u)

/-- Where the first outcome is a next state so is the second, and the two are related. -/
def Follows (R : State → State → Prop) (o p : Out) : Prop := ∀ t, o = .next t → ∃ v, p = .next v ∧ R t v

theorem follows_next {R : State → State → Prop} {t v : State} (h : R t v) : Follows R (.next t) (.next v) := by
  intro x hx
  injection hx with hx
  subst hx
  exact ⟨v, rfl, h⟩

theorem follows_refused {R : State → State → Prop} (r : Refusal) (p : Out) : Follows R (.refused r) p := by
  intro t ht
  cases ht

section guards
variable {R : State → State → Prop} {k : State → Out} {s u : State}

theorem follows_whenBusFree (a : Agrees s u) (h : Follows R (k s) (k u)) :
    Follows R (whenBusFree k s) (whenBusFree k u) := by
  rw [whenBusFree, whenBusFree, a.seq]
  split
  · exact h
  · exact follows_refused _ _

theorem follows_whenIdle (a : Agrees s u) (h : Follows R (k s) (k u)) : Follows R (whenIdle k s) (whenIdle k u) := by
  rw [whenIdle, whenIdle, a.seq, a.blocked]
  split
  · exact h
  · exact follows_refused _ _

theorem follows_whenBegun (a : Agrees s u) (h : Follows R (k s) (k u)) : Follows R (whenBegun k s) (whenBegun k u) := by
  rw [whenBegun, whenBegun]
  refine follows_whenIdle a ?_
  rw [a.init]
  split
  · exact h
  · exact follows_refused _ _

theorem follows_whenSw (a : Agrees s u) (h : s.cfg.mode = .sw → Follows R (k s) (k u)) :
    Follows R (whenSw k s) (whenSw k u) := by
  rw [whenSw, whenSw]
  refine follows_whenBegun a ?_
  rw [a.cfg]
  split
  · exact h (by assumption)
  · exact follows_refused _ _

theorem follows_whenHw (a : Agrees s u) (h : s.cfg.mode = .hw → Follows R (k s) (k u)) :
    Follows R (whenHw k s) (whenHw k u) := by
  rw [whenHw, whenHw]
  refine follows_whenBegun a ?_
  rw [a.cfg]
  split
  · exact h (by assumption)
  · exact follows_refused _ _

end guards

/-! A word's sending as one expression: its calls, and the framer held where one of them hangs. -/

/-- The events before the framer's first one: the beginning of a transaction (R139). -/
def framerOffset (cfg : Config) : Nat :=
  match cfg.mode with
  | .hw => 1
  | .sw => 0

/-- Where the calls of a word, made from `s`, leave the framer at `t`. -/
def heldSeq (s t : State) (w : Word) : Seq :=
  framerPosition s.cfg w (t.trace.length - s.trace.length - framerOffset s.cfg)

theorem transfer_eq {body : State → State} {s : State} {cs : List Call} (hb : body s = s.calls cs) (w : Word)
    (x : Nat) : s.transfer body w x = if s.blocked then s
      else if (s.calls cs).blocked then
        (s.calls cs).moveTo (framerPosition s.cfg w ((s.calls cs).trace.length - s.trace.length - x))
      else s.calls cs := by
  rw [State.transfer, hb]
  rfl

theorem sendWord_eq (s : State) (w : Word) :
    s.sendWord w = if s.blocked then s
      else if (s.calls (wordCalls s.cfg w)).blocked then
        (s.calls (wordCalls s.cfg w)).moveTo (heldSeq s (s.calls (wordCalls s.cfg w)) w)
      else s.calls (wordCalls s.cfg w) := by
  cases hm : s.cfg.mode <;> simp only [State.sendWord, wordCalls, heldSeq, framerOffset, hm]
  · exact transfer_eq (bracketHw_calls s w) w 1
  · exact transfer_eq (bracketSw_calls s w) w 0

section runs
variable {R : State → State → Prop} (P : Parallel R) {s u : State}
include P

theorem Parallel.calls (h : R s u) (cs : List Call) : R (s.calls cs) (u.calls cs) := by
  induction cs generalizing s u with
  | nil => exact h
  | cons c cs ih => exact ih (P.call h c)

theorem Parallel.handBack (h : R s u) (r : Result) : R (s.handBack r) (u.handBack r) := P.write h (.result r)

theorem Parallel.answer (h : R s u) {x y : Result} (hxy : y = x) :
    Follows R (.next (s.handBack x)) (.next (u.handBack y)) := by
  rw [hxy]
  exact follows_next (P.handBack h x)

/-- Both runs take the same branch, or the first hangs. -/
theorem Parallel.branch {a b c d : State} (h : R s u) (ha : a.blocked = s.blocked) (hang : Agrees s u → R a b)
    (run : Agrees s u → R c d) : R (if s.blocked then a else c) (if u.blocked then b else d) := by
  obtain g | ⟨hb, all⟩ := P.agrees h
  · rw [g.blocked]
    split
    · exact hang g
    · exact run g
  · rw [if_pos hb]
    exact all _ _ (ha.trans hb)

theorem Parallel.complete {f : State → State} (h : R s u) (hf : R (f s) (f u)) : R (s.complete f) (u.complete f) :=
  P.branch h rfl (fun _ => P.handBack h .none) fun _ => hf

theorem Parallel.sendWord (h : R s u) (w : Word) : R (s.sendWord w) (u.sendWord w) := by
  rw [sendWord_eq, sendWord_eq]
  refine P.branch h rfl (fun _ => h) fun g => ?_
  rw [g.cfg]
  have sent := P.calls h (wordCalls s.cfg w)
  refine P.branch sent rfl (fun a => ?_) fun _ => sent
  rw [heldSeq, heldSeq, g.cfg, g.length, a.length]
  exact P.write sent (.seq _)

theorem Parallel.memWrite (h : R s u) (r : Reg) (p : Word) : R (s.memWrite r p) (u.memWrite r p) := by
  obtain g | ⟨hb, all⟩ := P.agrees h
  · rw [State.memWrite, State.memWrite, g.cfg]
    exact P.sendWord h _
  · rw [memWrite_blocked hb]
    exact all _ _ hb

theorem Parallel.storeGain (h : R s u) (m : Word) : R (s.storeGain m) (u.storeGain m) :=
  P.memWrite (P.write h (.gain m)) .gain m

theorem Parallel.storeStates (h : R s u) (m : Word) : R (s.storeStates m) (u.storeStates m) :=
  P.memWrite (P.write h (.states m)) .states m

theorem Parallel.wordInstr (h : R s u) (a : Agrees s u) (r : Reg) (p : BitVec 12) (c : BitVec 2) :
    Follows R (exec (wordInstr r p c) s) (exec (wordInstr r p c) u) := by
  rw [exec_wordInstr, exec_wordInstr]
  refine follows_whenBusFree a ?_
  rw [a.cfg]
  exact follows_next (P.latch h _)

/-- Two related runs in step stay related over every instruction. -/
theorem Parallel.follows (h : R s u) (a : Agrees s u) (i : Instr) : Follows R (exec i s) (exec i u) := by
  cases i with
  | attL p c => exact P.wordInstr h a .attL p c
  | attR p c => exact P.wordInstr h a .attR p c
  | gain p c => exact P.wordInstr h a .gain p c
  | states p c => exact P.wordInstr h a .states p c
  | volumeValid v => exact P.answer h (by rw [a.cfg])
  | gainValid g => exact P.answer h (by rw [a.cfg])
  | assemble r p => exact P.answer h (by rw [a.cfg])
  | atten _ | gainCode _ | flagBit _ _ => exact P.answer h rfl
  | beginOp =>
    simp only [exec, execBegin]
    refine follows_whenIdle a (follows_next ?_)
    rw [beginPins_calls, beginPins_calls, a.cfg]
    have pins := P.calls h (beginCalls s.cfg)
    exact P.complete pins (P.handBack (P.write pins (.init true)) _)
  | setVolume l r =>
    simp only [exec, execSetVolume]
    refine follows_whenBegun a ?_
    rw [a.cfg]
    split
    · have sent := P.memWrite (P.memWrite h .attL (atten l)) .attR (atten r)
      exact follows_next (P.complete sent (P.handBack sent _))
    · exact follows_next (P.handBack (P.write h (.err .valueError)) (.bool false))
  | setGain g =>
    rw [exec_setGain]
    refine follows_whenBegun a ?_
    rw [a.cfg]
    split
    · have sent := P.storeGain h (gainCode g)
      exact follows_next (P.complete sent (P.handBack sent _))
    · exact follows_next (P.handBack (P.write h (.err .valueError)) (.bool false))
  | mute =>
    simp only [exec, execMute]
    exact follows_whenBegun a (follows_next (P.handBack (P.memWrite (P.memWrite h _ _) _ _) _))
  | setZeroCrossing e =>
    simp only [exec, execSetZeroCrossing, gainFeature_eq]
    refine follows_whenBegun a (follows_next ?_)
    rw [a.gainMirror]
    exact P.handBack (P.storeGain h _) _
  | setLinkChannels e =>
    simp only [exec, execSetLinkChannels, gainFeature_eq]
    refine follows_whenBegun a (follows_next ?_)
    rw [a.gainMirror]
    exact P.handBack (P.storeGain h _) _
  | setExternalClock e =>
    simp only [exec, execSetExternalClock, statesFeature_eq]
    refine follows_whenBegun a (follows_next ?_)
    rw [a.statesMirror]
    exact P.handBack (P.storeStates h _) _
  | getStatus =>
    simp only [exec, execGetStatus]
    exact follows_whenIdle a (P.answer h (by rw [a.err]))
  | shiftByteSw b =>
    simp only [exec_shiftByteSw, shiftByteSw_calls]
    refine follows_whenSw a fun _ => follows_next ?_
    rw [a.cfg]
    exact P.handBack (P.calls h _) _
  | shiftByteHw b =>
    simp only [exec_shiftByteHw, shiftByteHw_calls]
    refine follows_whenHw a fun _ => follows_next ?_
    rw [a.cfg]
    exact P.handBack (P.calls h _) _
  | sendWord w =>
    rw [exec_sendWord]
    exact follows_whenBegun a (follows_next (P.handBack (P.sendWord h w) _))
  | sendWordSw w =>
    rw [exec_sendWordSw]
    refine follows_whenSw a fun hm => follows_next ?_
    rw [← sendWord_sw hm, ← sendWord_sw (by rw [a.cfg, hm])]
    exact P.handBack (P.sendWord h w) _
  | sendWordHw w =>
    rw [exec_sendWordHw]
    refine follows_whenHw a fun hm => follows_next ?_
    rw [← sendWord_hw hm, ← sendWord_hw (by rw [a.cfg, hm])]
    exact P.handBack (P.sendWord h w) _

end runs

/-! With another link. -/

/-- The second run differs in the link's declaration, the chip and the counter of its free contents. -/
def OtherLink (sound : Bool) (s u : State) : Prop :=
  ∃ (m : List Host.Cell) (k : Nat), u = { s with linkSound := sound, mem := m, upsets := k }

/-- The second run differs in the data-in levels recorded and the counter of draws. -/
def OtherLevels (s u : State) : Prop :=
  ∃ (n : Nat) (tr : List Event), withoutSamples tr = withoutSamples s.trace ∧ tr.length = s.trace.length ∧
    u = { s with draws := n, trace := tr }

/-- The second run is the first with every call returning, unless the first hangs. -/
def AllReturn (s u : State) : Prop := s.blocked = false → u = { s with returns := none }

/-- A relation that the effects keep, in which the same calls return, is kept by the calls. -/
theorem call_related {R : State → State → Prop} (effect : ∀ {s u}, R s u → ∀ c : Call, R (c.effect s) (c.effect u))
    (hang : ∀ {s u}, R s u → ∀ r b, R (s.hang r b) (u.hang r b))
    (same : ∀ {s u}, R s u → u.returns = s.returns ∧ u.blocked = s.blocked) {s u : State} (h : R s u) (c : Call) :
    R (s.call c.effect) (u.call c.effect) := by
  obtain ⟨hr, hb⟩ := same h
  cases hs : s.blocked with
  | true =>
    rw [call_blocked hs, call_blocked (hb.trans hs)]
    exact h
  | false =>
    cases hn : s.returns with
    | none =>
      rw [call_free ⟨hn, hs⟩, call_free ⟨hr.trans hn, hb.trans hs⟩]
      exact effect h c
    | some n =>
      cases n with
      | zero =>
        rw [call_zero hn hs, call_zero (hr.trans hn) (hb.trans hs)]
        exact hang h _ _
      | succ n =>
        rw [call_succ c hn hs, call_succ c (hr.trans hn) (hb.trans hs)]
        exact hang (effect h c) _ _

/-- What the receiver does with a word is to the chip alone. -/
theorem latch_chip (s : State) (w : Word) : ∃ m k, s.latch w = { s with mem := m, upsets := k } := by
  obtain hl | hl := Bool.eq_false_or_eq_true s.linkSound
  · exact ⟨_, _, latch_sound hl w⟩
  · exact ⟨_, _, latch_unsound hl w⟩

theorem otherLink_effect {sound : Bool} {s u : State} (h : OtherLink sound s u) (c : Call) :
    OtherLink sound (c.effect s) (c.effect u) := by
  obtain ⟨m, k, rfl⟩ := h
  cases c with
  | silent => exact ⟨m, k, rfl⟩
  | drive p l => cases p <;> exact ⟨_, _, rfl⟩
  | emit e => exact ⟨_, _, rfl⟩
  | sample => exact ⟨_, _, rfl⟩

theorem otherLink_parallel (sound : Bool) : Parallel (OtherLink sound) where
  agrees := by
    rintro s u ⟨m, k, rfl⟩
    exact .inl ⟨rfl, rfl, rfl, rfl, rfl, rfl, rfl, rfl⟩
  call := call_related otherLink_effect (fun ⟨m, k, hu⟩ r b => ⟨m, k, by rw [hu]; rfl⟩)
    (fun ⟨m, k, hu⟩ => by rw [hu]; exact ⟨rfl, rfl⟩)
  latch := by
    rintro s u ⟨m, k, rfl⟩ w
    obtain ⟨m1, k1, h1⟩ := latch_chip s w
    obtain ⟨m2, k2, h2⟩ := latch_chip { s with linkSound := sound, mem := m, upsets := k } w
    rw [h1, h2]
    exact ⟨m2, k2, rfl⟩
  write := by
    rintro s u ⟨m, k, rfl⟩ d
    cases d <;> exact ⟨m, k, rfl⟩

/-- Settles O44: the link is read only where the chip takes an event. -/
theorem linkFaultsDoNotReachTheBlock : Obligations.LinkFaultsDoNotReachTheBlock := by
  intro i s t sound h
  obtain ⟨v, hv, m, k, rfl⟩ := (otherLink_parallel sound).follows (u := { s with linkSound := sound })
    ⟨s.mem, s.upsets, rfl⟩ ⟨rfl, rfl, rfl, rfl, rfl, rfl, rfl, rfl⟩ i t h
  exact ⟨_, hv, rfl⟩

/-! With other data-in levels. -/

theorem withoutSamples_append (t u : List Event) : withoutSamples (t ++ u) = withoutSamples t ++ withoutSamples u :=
  List.filter_append ..

theorem otherLevels_effect {s u : State} (h : OtherLevels s u) (c : Call) : OtherLevels (c.effect s) (c.effect u) := by
  obtain ⟨n, tr, hsame, hlen, rfl⟩ := h
  have same (e : Event) : withoutSamples (tr ++ [e]) = withoutSamples (s.trace ++ [e]) := by
    rw [withoutSamples_append, withoutSamples_append, hsame]
  have length (d e : Event) : (tr ++ [d]).length = (s.trace ++ [e]).length := by
    rw [List.length_append, List.length_append, hlen]
    rfl
  cases c with
  | silent => exact ⟨n, tr, hsame, hlen, rfl⟩
  | drive p l => cases p <;> exact ⟨n, _, same _, length _ _, rfl⟩
  | emit e => exact ⟨n, _, same e, length e e, rfl⟩
  | sample =>
    refine ⟨n + 1, _, ?_, length (.sample (Config.dataIn n)) (.sample (Config.dataIn s.draws)), rfl⟩
    change _ = withoutSamples (s.trace ++ [.sample (Config.dataIn s.draws)])
    rw [withoutSamples_append, withoutSamples_append, hsame]
    rfl

theorem otherLevels_parallel : Parallel OtherLevels where
  agrees := by
    rintro s u ⟨n, tr, -, hlen, rfl⟩
    exact .inl ⟨rfl, rfl, rfl, rfl, rfl, rfl, rfl, hlen⟩
  call := call_related otherLevels_effect (fun ⟨n, tr, hsame, hlen, hu⟩ r b => ⟨n, tr, hsame, hlen, by rw [hu]; rfl⟩)
    (fun ⟨_, _, _, _, hu⟩ => by rw [hu]; exact ⟨rfl, rfl⟩)
  latch := by
    rintro s u ⟨n, tr, hsame, hlen, rfl⟩ w
    obtain hl | hl := Bool.eq_false_or_eq_true s.linkSound
    · rw [latch_sound hl, latch_sound (s := { s with draws := n, trace := tr }) hl]
      exact ⟨n, tr, hsame, hlen, rfl⟩
    · rw [latch_unsound hl, latch_unsound (s := { s with draws := n, trace := tr }) hl]
      exact ⟨n, tr, hsame, hlen, rfl⟩
  write := by
    rintro s u ⟨n, tr, hsame, hlen, rfl⟩ d
    cases d <;> exact ⟨n, tr, hsame, hlen, rfl⟩

/-- Settles O45: a level drawn goes to the trace and nowhere else. -/
theorem dataInLevelsInfluenceNothing : Obligations.DataInLevelsInfluenceNothing := by
  intro i s t n h
  obtain ⟨v, hv, k, tr, hsame, -, rfl⟩ := otherLevels_parallel.follows (u := { s with draws := n })
    ⟨n, s.trace, rfl, rfl, rfl⟩ ⟨rfl, rfl, rfl, rfl, rfl, rfl, rfl, rfl⟩ i t h
  exact ⟨_, hv, hsame, rfl⟩

/-! With every call returning. -/

theorem latch_blocked (s : State) (w : Word) : (s.latch w).blocked = s.blocked := by
  obtain ⟨m, k, h⟩ := latch_chip s w
  rw [h]

theorem allReturn_parallel : Parallel AllReturn where
  agrees := by
    intro s u h
    cases hb : s.blocked with
    | true => exact .inr ⟨rfl, fun a v ha hf => by rw [ha] at hf; cases hf⟩
    | false => rw [h hb]; exact .inl ⟨rfl, rfl, rfl, rfl, rfl, rfl, rfl, rfl⟩
  call := by
    intro s u h c hf
    have returned := calls_returned (cs := [c]) hf
    have hb : s.blocked = false := by
      cases hb : s.blocked with
      | true => rw [call_blocked hb, hb] at hf; cases hf
      | false => rfl
    rw [h hb]
    have free : Free { s with returns := none } := ⟨rfl, hb⟩
    rw [call_free free, show s.call c.effect = _ from returned]
    exact (effect_hang c s none s.blocked).trans (by rw [hb]; rfl)
  latch := by
    intro s u h w hf
    rw [latch_blocked] at hf
    rw [h hf]
    obtain hl | hl := Bool.eq_false_or_eq_true s.linkSound
    · rw [latch_sound hl, latch_sound (s := { s with returns := none }) hl]
    · rw [latch_unsound hl, latch_unsound (s := { s with returns := none }) hl]
      rfl
  write := by
    intro s u h d hf
    cases d <;> rw [h hf] <;> rfl

/-- Settles O17: while the first run does not hang, the second is it with every call returning. -/
theorem whatReturnsIsAsIfEveryCallDid : Obligations.WhatReturnsIsAsIfEveryCallDid := by
  intro i s t h ht
  obtain ⟨v, hv, hrel⟩ := allReturn_parallel.follows (u := { s with returns := none }) (fun _ => rfl)
    ⟨rfl, rfl, rfl, rfl, rfl, rfl, rfl, rfl⟩ i t h
  rw [hv, hrel ht]

end Sys2Proof.Machine
end
